-- ==== Sys2Proof/Word.lean ====
section
/-! DEFINITION. The word types of ADXCORE: port words, register fields, buffer elements and binary64 patterns
(00_scope R9, R10, R13; 30_encoding R90). -/

namespace Sys2Proof

/-- One element of `BLK` (20_memory R60). -/
abbrev Byte := BitVec 8

/-- A 16-bit field: the operand `idx`, a `u16` register, or one `PCM` word (20_memory R60, 30_encoding R91). -/
abbrev Half := BitVec 16

/-- A 32-bit word: the command word, data-in, data-out, or a `u32` register (30_encoding R90). -/
abbrev Word := BitVec 32

/-- A binary64 bit pattern: sign, 11 exponent bits, 52 fraction bits (00_scope R13). -/
abbrev Binary64 := BitVec 64

end Sys2Proof
end

