-- ==== Sys2Proof/Syntax.lean ====
section
/-! DEFINITION. The transactions of ADXCORE as syntax: opcodes, register names, channels, fault causes, and `Instr`,
one constructor per row of spec/opcode_table.json (30_encoding R92, R93; 10_state R21; 60_exceptions R270). -/

namespace Sys2Proof

/-- The thirteen assigned opcodes (30_encoding R92). -/
inductive Opcode
  | wr | rd | bw | br | pw | pr | coef | start | decblk | encblk | s2b | boff | loopset
  deriving DecidableEq, Repr

/-- A transaction with a legal opcode: `idx` exactly as it stands in the command word (30_encoding R91), and `din` for
the three opcodes that read it (30_encoding R90, R93). Register numbers and indices are not checked here: an
unassigned one is a fault of the transaction, not of its encoding (44_system R250 to R255). -/
inductive Instr
  /-- `WR reg, value` (44_system R250). -/
  | wr (reg : Half) (value : Word)
  /-- `RD reg` (44_system R251). -/
  | rd (reg : Half)
  /-- `BW index, byte` (44_system R252). -/
  | bw (index : Half) (din : Word)
  /-- `BR index` (44_system R253). -/
  | br (index : Half)
  /-- `PW index, sample` (44_system R254). -/
  | pw (index : Half) (din : Word)
  /-- `PR index` (44_system R255). -/
  | pr (index : Half)
  /-- `COEF` (40_predict R131). -/
  | coef
  /-- `START` (44_system R256). -/
  | start
  /-- `DECBLK` (41_decode R161). -/
  | decblk
  /-- `ENCBLK n` (42_encode R191). -/
  | encblk (n : Half)
  /-- `S2B` (43_loopconv R234). -/
  | s2b
  /-- `BOFF` (43_loopconv R236). -/
  | boff
  /-- `LOOPSET` (43_loopconv R238). -/
  | loopset
  deriving DecidableEq, Repr

/-- The register names of 10_state R21. -/
inductive Reg
  | blockSize | bitdepth | channels | sampleRate | highpass | totalSamples | copyrightOffset | blkLen
  | smpIn | blkidxIn | loopBeginSample | loopEndSample
  | status | errinfo | samplesDone | blocksDone | nout | spb | offOut | loopEnabled | loopBeginByte | loopEndByte
  | coef0Hi | coef0Lo | coef1Hi | coef1Lo
  | prev1_0 | prev2_0 | prev1_1 | prev2_1
  deriving DecidableEq, Repr

/-- The two channels of the prediction state (10_state R36; `NCH_MAX` = 2, 00_scope R6). -/
inductive Channel
  | ch0 | ch1
  deriving DecidableEq, Repr

/-- The fault causes of 60_exceptions R270. Raising one is an ordinary transition of the machine (R274). -/
inductive Cause
  | illegalCommand | badRegister | badIndex | badParam | notConfigured | truncated | badLength | range
  deriving DecidableEq, Repr

/-- The grounds (a) to (d) on which 30_encoding R95 makes an encoding illegal. -/
inductive Illegal
  /-- (a): `op` is not one of the thirteen. -/
  | unassignedOp
  /-- (b): `rsv` is not 0. -/
  | reservedNotZero
  /-- (c): `idx` is not 0 on an operand-less command. -/
  | operandNotZero
  /-- (d): `din` is too wide on BW or PW. -/
  | dataTooWide
  deriving DecidableEq, Repr

/-- What the host can do to ADXCORE: issue one transaction (30_encoding R90), or apply the hardware reset input
(70_reset_and_hazards R301). -/
inductive HostAction
  | transaction (cw din : Word)
  | reset
  deriving DecidableEq, Repr

end Sys2Proof
end

