-- ==== Sys2Proof/WellFormed.lean ====
section
/-! DEFINITION. Well-formed transactions: those that some legal pair (`cw`, `din`) encodes (30_encoding R95). -/

namespace Sys2Proof

/-- R95 (d): on BW `din` is below 2^8 and on PW below 2^16. Grounds (a) to (c) cannot be written as an `Instr`. -/
def Instr.wellFormed : Instr → Bool
  | .bw _ din => decide (din.toNat < 2 ^ 8)
  | .pw _ din => decide (din.toNat < 2 ^ 16)
  | .wr _ _ | .rd _ | .br _ | .pr _ | .coef | .start | .decblk | .encblk _ | .s2b | .boff | .loopset => true

end Sys2Proof
end

