-- ==== Sys2Proof/Decode.lean ====
section
/-! DEFINITION. The decoder of a transaction (30_encoding R91 to R96), total on every pair (`cw`, `din`), and the
encoder (30_encoding R97). -/

namespace Sys2Proof

/-- The `op` value of an opcode (30_encoding R92). -/
def Opcode.byte : Opcode → Byte
  | .wr => 0x01#8
  | .rd => 0x02#8
  | .bw => 0x03#8
  | .br => 0x04#8
  | .pw => 0x05#8
  | .pr => 0x06#8
  | .coef => 0x10#8
  | .start => 0x11#8
  | .decblk => 0x20#8
  | .encblk => 0x21#8
  | .s2b => 0x30#8
  | .boff => 0x31#8
  | .loopset => 0x32#8

/-- The opcode map read the other way: every value R92 does not list is unassigned (30_encoding R95 (a)). -/
def Opcode.ofByte (op : Byte) : Option Opcode :=
  match op.toNat with
  | 0x01 => some .wr
  | 0x02 => some .rd
  | 0x03 => some .bw
  | 0x04 => some .br
  | 0x05 => some .pw
  | 0x06 => some .pr
  | 0x10 => some .coef
  | 0x11 => some .start
  | 0x20 => some .decblk
  | 0x21 => some .encblk
  | 0x30 => some .s2b
  | 0x31 => some .boff
  | 0x32 => some .loopset
  | _ => none

/-- Field `op`, bits 7:0 of the command word (30_encoding R91). -/
def opField (cw : Word) : Byte := cw.extractLsb' 0 8

/-- Field `idx`, bits 23:8 of the command word (30_encoding R91). -/
def idxField (cw : Word) : Half := cw.extractLsb' 8 16

/-- Field `rsv`, bits 31:24 of the command word (30_encoding R91). -/
def rsvField (cw : Word) : Byte := cw.extractLsb' 24 8

/-- `cw = rsv * 2^24 + idx * 2^8 + op` with `rsv` = 0 (30_encoding R91). -/
def commandWord (op : Opcode) (idx : Half) : Word := BitVec.ofNat 32 (idx.toNat * 2 ^ 8 + op.byte.toNat)

/-- An operand-less command requires `idx` = 0 (30_encoding R93, R95 (c)). -/
def decodeBare (idx : Half) (i : Instr) : Except Illegal Instr :=
  if idx = 0#16 then .ok i else .error .operandNotZero

/-- A buffer write whose data must be below 2^width (30_encoding R93, R95 (d)). -/
def decodeData (width : Nat) (din : Word) (i : Instr) : Except Illegal Instr :=
  if din.toNat < 2 ^ width then .ok i else .error .dataTooWide

/-- Decoding, "chosen by `op` alone and then by the checks of R95" (30_encoding R96). -/
def decode (cw din : Word) : Except Illegal Instr :=
  match Opcode.ofByte (opField cw) with
  | none => .error .unassignedOp
  | some op =>
    if rsvField cw = 0#8 then
      match op with
      | .wr => .ok (.wr (idxField cw) din)
      | .rd => .ok (.rd (idxField cw))
      | .bw => decodeData 8 din (.bw (idxField cw) din)
      | .br => .ok (.br (idxField cw))
      | .pw => decodeData 16 din (.pw (idxField cw) din)
      | .pr => .ok (.pr (idxField cw))
      | .coef => decodeBare (idxField cw) .coef
      | .start => decodeBare (idxField cw) .start
      | .decblk => decodeBare (idxField cw) .decblk
      | .encblk => .ok (.encblk (idxField cw))
      | .s2b => decodeBare (idxField cw) .s2b
      | .boff => decodeBare (idxField cw) .boff
      | .loopset => decodeBare (idxField cw) .loopset
    else .error .reservedNotZero

/-- The command word of a transaction (30_encoding R97). -/
def commandOf : Instr → Word
  | .wr reg _ => commandWord .wr reg
  | .rd reg => commandWord .rd reg
  | .bw index _ => commandWord .bw index
  | .br index => commandWord .br index
  | .pw index _ => commandWord .pw index
  | .pr index => commandWord .pr index
  | .coef => commandWord .coef 0#16
  | .start => commandWord .start 0#16
  | .decblk => commandWord .decblk 0#16
  | .encblk n => commandWord .encblk n
  | .s2b => commandWord .s2b 0#16
  | .boff => commandWord .boff 0#16
  | .loopset => commandWord .loopset 0#16

/-- The data-in value of a transaction: 0 where it is ignored (30_encoding R97). -/
def dataOf : Instr → Word
  | .wr _ value => value
  | .bw _ din => din
  | .pw _ din => din
  | .rd _ | .br _ | .pr _ | .coef | .start | .decblk | .encblk _ | .s2b | .boff | .loopset => 0#32

/-- The encoder: the pair (`cw`, `din`) of a transaction (30_encoding R97). -/
def encode (i : Instr) : Word × Word := (commandOf i, dataOf i)

/-- The pair (`cw`, `din`) of a transaction numbered as one word: `cw` is bits 31:0 and `din`, the data word beside it,
bits 63:32; bits from `nbits` up are 0. DESIGN CHOICE: the port has no byte order and the spec gives `din` no bit
numbers; safe, a numbering only (log 14). -/
def portPair (nbits w : Nat) : Word × Word :=
  (BitVec.ofNat 32 (w % 2 ^ nbits), BitVec.ofNat 32 (w % 2 ^ nbits / 2 ^ 32))

/-- What the decoder reads from a word of the opcode table (the host's question). -/
def decodeTableWord (nbits w : Nat) : Option Instr :=
  match decode (portPair nbits w).1 (portPair nbits w).2 with
  | .ok i => some i
  | .error _ => none

end Sys2Proof
end

