-- ==== Sys2Proof/Config.lean ====
section
/-! DEFINITION. The parameters the spec leaves OPEN (00_scope R6) and the free values of the model: constants without
a body, so that no proof can see what they are. -/

namespace Sys2Proof

/-- `RMODE_QUANT`, the tie rule of `round(residual / scale)`: OPEN (42_encode R203, 93 U1). The first constructor is
the spec's default. -/
inductive RModeQuant
  | halfAway
  | halfUp
  | trunc
  deriving DecidableEq, Repr, Inhabited

/-- `SCALE_DIV`, how the quotients by 7 and 8 become integers: OPEN (42_encode R200, 93 U2). The first constructor is
the spec's default. -/
inductive ScaleDiv
  | ceil
  | floor
  deriving DecidableEq, Repr, Inhabited

/-- The reference value of `PI64`, the binary64 value nearest to π (40_predict R134): the default of the OPEN parameter
(00_scope R6, 92 D14). -/
def pi64Reference : Binary64 := 0x400921FB54442D18#64

/-- The OPEN parameters that are data, which a model "takes as arguments" (00_scope R6): `RMODE_QUANT`, `SCALE_DIV` and
`PI64`. DESIGN CHOICE: `exec` and `step` have fixed types, so the arguments stand in `State` and nothing changes them;
safe, since a statement over all states holds for every choice (log 7). -/
structure OpenParams where
  rmode : RModeQuant
  scaleDiv : ScaleDiv
  pi64 : Binary64
  deriving DecidableEq, Repr, Inhabited

/-- The defaults of 00_scope R6: nearest with ties away from zero, the ceiling, and the reference value of `PI64`. -/
def OpenParams.default : OpenParams := ⟨.halfAway, .ceil, pi64Reference⟩

/-- The free part of the implementation's cosine `COS64` (40_predict R135, 93 U4). `Machine.cos64` imposes P1 and P2
on it. Safe (log 6). -/
opaque Config.cosDraw : Binary64 → Binary64

/-- What byte `index` of `BLK` holds after hardware reset number `epoch`: "any value, drawn once at reset per element"
(20_memory R64, 93 U7). Safe (log 5). -/
opaque Config.blkDraw (epoch index : Nat) : Byte

/-- What word `index` of `PCM` holds after hardware reset number `epoch` (20_memory R64, 93 U7). Safe (log 5). -/
opaque Config.pcmDraw (epoch index : Nat) : Half

/-- What the `k`-th read of a `COEFn_*` register with `COEF_VALID` = 0 returns: "a 32-bit draw per read; two reads need
not agree" (10_state R34, 93 U6). Safe (log 4). -/
opaque Config.coefDraw (k : Nat) : Word

/-- The integer `RoundPred` gives for a NaN or an infinity. The spec shows that none arises (40_predict R141), so it
states no result; the value is free. Safe (log 8). -/
opaque Config.roundSpecial : Binary64 → Int

/-- What the host's parser makes of a stored `loop_enabled` other than 0 and 1: "any value" (93 U21). Safe (log 17). -/
opaque Config.loopEnabledOther : Word → Bool

end Sys2Proof
end

