-- ==== Sys2Proof/Machine/State.lean ====
section
/-! DEFINITION. The state of ADXCORE as plain data (10_state R20, 20_memory R60), its value at reset
(70_reset_and_hazards R300), and the reasons a step can stop. -/

namespace Sys2Proof.Machine

/-- The prediction state of one channel: two s16 registers, the most recent sample and the one before it
(10_state R36). -/
structure Prediction where
  prev1 : Half
  prev2 : Half
  deriving DecidableEq, Repr

/-- Everything the spec gives the machine, and the model's own fields `openParams`, `host`, `dout`, `epoch`, `draws`. -/
structure State where
  /-- 0x00 (10_state R22). -/
  blockSize : Byte
  /-- 0x01 (10_state R23). -/
  bitdepth : Byte
  /-- 0x02 (10_state R24). -/
  channels : Byte
  /-- 0x03 (10_state R25). -/
  sampleRate : Word
  /-- 0x04 (10_state R26). -/
  highpass : Half
  /-- 0x05 (10_state R27). -/
  totalSamples : Word
  /-- 0x06 (10_state R28). -/
  copyrightOffset : Half
  /-- 0x07 (10_state R29). -/
  blkLen : Half
  /-- 0x08 (10_state R30). -/
  smpIn : Word
  /-- 0x09 (10_state R31). -/
  blkidxIn : Word
  /-- 0x0A (10_state R32). -/
  loopBeginSample : Word
  /-- 0x0B (10_state R33). -/
  loopEndSample : Word
  /-- The coefficient table, 0x20 to 0x23 (10_state R34). -/
  coef0 : Binary64
  coef1 : Binary64
  /-- `STATUS` bit 0 (10_state R35, R45). -/
  coefValid : Bool
  /-- `STATUS` bit 1 (10_state R45). -/
  err : Bool
  /-- `STATUS` bits 7:4 (10_state R45). -/
  errcode : BitVec 4
  /-- 0x11 (10_state R46). -/
  errinfo : Word
  /-- `PREV1[0]`, `PREV2[0]`, 0x28 and 0x29 (10_state R36). -/
  pred0 : Prediction
  /-- `PREV1[1]`, `PREV2[1]`, 0x2A and 0x2B (10_state R36). -/
  pred1 : Prediction
  /-- 0x12 (10_state R37). -/
  samplesDone : Word
  /-- 0x13 (10_state R38). -/
  blocksDone : Word
  /-- 0x14 (10_state R39). -/
  nout : Half
  /-- 0x16 (10_state R42). -/
  offOut : Word
  /-- 0x17 (10_state R43). -/
  loopEnabled : Bool
  /-- 0x18 (10_state R44). -/
  loopBeginByte : Word
  /-- 0x19 (10_state R44). -/
  loopEndByte : Word
  /-- The bytes of `BLK` written since reset, indices strictly rising (20_memory R60, R64; log 5). -/
  blk : List Host.Cell
  /-- The words of `PCM` written since reset, indices strictly rising (20_memory R60, R64; log 5). -/
  pcm : List (Nat × Half)
  /-- The OPEN parameters `RMODE_QUANT`, `SCALE_DIV` and `PI64` (00_scope R6; log 7). -/
  openParams : OpenParams
  /-- What the host will do, oldest first (00_scope R7; log 1). -/
  host : List HostAction
  /-- The data-out value of the last transaction (30_encoding R90; log 2). -/
  dout : Word
  /-- How many hardware resets have been applied: the counter of the buffer draws (log 5). -/
  epoch : Nat
  /-- How many unspecified coefficient reads have happened: the counter of their draws (log 4). -/
  draws : Nat
  deriving DecidableEq, Repr

/-- No behaviour of the spec stops the machine: every fault of 60_exceptions R270 is an error record and the machine
goes on (R274, R276). So there is no reason here, and nobody raises one. -/
inductive Fault
  deriving DecidableEq, Repr

/-- The reasons a step is refused. -/
inductive Refusal
  /-- An instruction without a meaning, raised by `exec`'s arm only. Safe: the model stops where the hardware goes on.
  Every arm of `exec` has its meaning, so nobody raises it. -/
  | notModelled (mnemonic : String)
  deriving DecidableEq, Repr

/-- The machine right after reset (70_reset_and_hazards R300, 10_state R49). DESIGN CHOICE, unsafe: the spec leaves the
coefficient table unspecified and the model stores 0, which no read and no command shows (log 3); `dout` is 0 (log 2).
Nothing is listed in the buffers, so each element reads as a free value (log 5). -/
def State.reset : State where
  blockSize := 0
  bitdepth := 0
  channels := 0
  sampleRate := 0
  highpass := 0
  totalSamples := 0
  copyrightOffset := 0
  blkLen := 0
  smpIn := 0
  blkidxIn := 0
  loopBeginSample := 0
  loopEndSample := 0
  coef0 := 0
  coef1 := 0
  coefValid := false
  err := false
  errcode := 0
  errinfo := 0
  pred0 := ⟨0, 0⟩
  pred1 := ⟨0, 0⟩
  samplesDone := 0
  blocksDone := 0
  nout := 0
  offOut := 0
  loopEnabled := false
  loopBeginByte := 0
  loopEndByte := 0
  blk := []
  pcm := []
  openParams := OpenParams.default
  host := []
  dout := 0
  epoch := 0
  draws := 0

end Sys2Proof.Machine
end

