-- ==== Sys2Proof/Machine/Flags.lean ====
section
/-! DEFINITION. `STATUS` and the error record: the fault codes, the word `STATUS` reads as, setting and clearing
`COEF_VALID`, and recording a fault. ADXCORE has no arithmetic condition codes (10_state R45). -/

namespace Sys2Proof.Machine

/-- The value placed in `STATUS.ERRCODE` (60_exceptions R270). -/
def causeCode : Cause → BitVec 4
  | .illegalCommand => 1#4
  | .badRegister => 2#4
  | .badIndex => 3#4
  | .badParam => 4#4
  | .notConfigured => 5#4
  | .truncated => 6#4
  | .badLength => 7#4
  | .range => 8#4

/-- `STATUS` as read: bit 0 `COEF_VALID`, bit 1 `ERR`, bits 7:4 `ERRCODE`, every other bit 0 (10_state R45). -/
def statusWord (s : State) : Word :=
  BitVec.ofNat 32 (s.errcode.toNat * 2 ^ 4 + s.err.toNat * 2 ^ 1 + s.coefValid.toNat)

/-- The error record of a fault: the first fault since reset is kept (60_exceptions R274, R276). -/
def recordError (c : Cause) (cw : Word) (s : State) : State :=
  if s.err then s else { s with err := true, errcode := causeCode c, errinfo := cw }

/-- A completed write to `SAMPLE_RATE` or `HIGHPASS` clears `COEF_VALID` (10_state R35). -/
def clearCoefValid (s : State) : State := { s with coefValid := false }

/-- A completed COEF writes the table and sets `COEF_VALID` (40_predict R131). -/
def setTable (c0 c1 : Binary64) (s : State) : State := { s with coef0 := c0, coef1 := c1, coefValid := true }

end Sys2Proof.Machine
end

