-- ==== Sys2Proof/Machine/Ops.lean ====
section
/-! DEFINITION. The shared operations: the buffers as lists in canonical form, reading and writing them, the end of a
transaction, raising a fault, refusing, hardware reset, and presenting a transaction on the port. -/

namespace Sys2Proof.Machine

/-- The outcome of a transaction. -/
abbrev Result := Host.Outcome State Fault Refusal

/-! ### The buffers -/

/-- `BLK` has indices 0 to 509 (20_memory R60). -/
def blkBytes : Nat := 510

/-- `PCM` has indices 0 to 1011 (20_memory R60). -/
def pcmWords : Nat := 1012

/-- The element at index `a` if it has been written since reset. -/
def memLookup {w : Nat} : List (Nat × BitVec w) → Nat → Option (BitVec w)
  | [], _ => none
  | (b, v) :: m, a => if b = a then some v else memLookup m a

/-- Write one element, keeping the indices strictly rising. -/
def memStore {w : Nat} : List (Nat × BitVec w) → Nat → BitVec w → List (Nat × BitVec w)
  | [], a, v => [(a, v)]
  | (b, u) :: m, a, v =>
    if a < b then (a, v) :: (b, u) :: m
    else if a = b then (a, v) :: m
    else (b, u) :: memStore m a v

/-- Every index of `m` is at least `lo`, below `cap`, and the indices rise strictly. -/
def memRising {w : Nat} (cap : Nat) : Nat → List (Nat × BitVec w) → Bool
  | _, [] => true
  | lo, (a, _) :: m => decide (lo ≤ a) && decide (a < cap) && memRising cap (a + 1) m

/-- The canonical form of a buffer with indices 0 to `cap - 1`. An unlisted element has no value of its own (it reads
as a draw, log 5), so no listed entry equals what an unlisted one reads as. -/
def Memory.wf {w : Nat} (cap : Nat) (m : List (Nat × BitVec w)) : Bool := memRising cap 0 m

/-- `BLK[a]`: what was last written, or the draw of the current reset (20_memory R64, R77; 93 U7). -/
def readBlk (s : State) (a : Nat) : Byte := (memLookup s.blk a).getD (Config.blkDraw s.epoch a)

/-- `PCM[a]`: what was last written, or the draw of the current reset (20_memory R64, R77; 93 U7). -/
def readPcm (s : State) (a : Nat) : Half := (memLookup s.pcm a).getD (Config.pcmDraw s.epoch a)

/-- `MemWrite(BLK, a, 1, v)` (00_scope R11). -/
def writeBlk (a : Nat) (v : Byte) (s : State) : State := { s with blk := memStore s.blk a v }

/-- `MemWrite(PCM, a, 1, v)` (00_scope R11). -/
def writePcm (a : Nat) (v : Half) (s : State) : State := { s with pcm := memStore s.pcm a v }

/-- `MemRead(BLK, a, 2)`, big-endian (20_memory R66). -/
def readBlk16 (s : State) (a : Nat) : Half := BitVec.ofNat 16 ((readBlk s a).toNat * 256 + (readBlk s (a + 1)).toNat)

/-- `MemWrite(BLK, a, 2, v)`, big-endian (20_memory R66). -/
def writeBlk16 (a : Nat) (v : Half) (s : State) : State :=
  writeBlk (a + 1) (v.extractLsb' 0 8) (writeBlk a (v.extractLsb' 8 8) s)

/-! ### The end of a transaction -/

/-- Drive data-out (30_encoding R90). -/
def setDout (v : Word) (s : State) : State := { s with dout := v }

/-- The host actions still to come. -/
def setHost (q : List HostAction) (s : State) : State := { s with host := q }

/-- The transaction completes with `dout` = 0 (30_encoding R93). -/
def complete (s : State) : Result := .next (setDout 0#32 s)

/-- The transaction completes with a data-out value (30_encoding R93). -/
def answer (v : Word) (s : State) : Result := .next (setDout v s)

/-- TAKING A FAULT, `raise E(cw)`: the error record of the first fault, `dout` = 0, and nothing else; no vector, no
saved return point, no mode change (60_exceptions R274). -/
def raise (c : Cause) (cw : Word) (s : State) : Result := complete (recordError c cw s)

/-- A refused transaction: nothing changes, `dout` = 0 (60_exceptions R276). -/
def refuse (s : State) : Result := complete s

/-- RETURN FROM THE FAULTED CONDITION is hardware reset only (60_exceptions R277): every architectural register as in
70_reset_and_hazards R300, with fresh draws for the buffers. The parameters, the host's pending actions and the draws
already made are not ADXCORE's to reset (log 12). -/
def hardwareReset (s : State) : State :=
  { State.reset with openParams := s.openParams, host := s.host, epoch := s.epoch + 1, draws := s.draws }

/-- Step 1 of 44_system R257 for the transactions other than RD, BR and PR: refused while `ERR` = 1. -/
def unlessFaulted (s : State) (k : Result) : Result := if s.err then refuse s else k

/-- `check p else raise c(cw)` (00_scope R15). -/
def check (p : Prop) [Decidable p] (c : Cause) (cw : Word) (s : State) (k : Result) : Result :=
  if p then k else raise c cw s

/-- The opcodes that are not refused while `ERR` = 1: RD, BR, PR, chosen by `cw[7:0]` alone (44_system R257). -/
def readsOnly (cw : Word) : Bool := opField cw == 0x02#8 || opField cw == 0x04#8 || opField cw == 0x06#8

/-- Steps 1 and 2 of 44_system R257 for an illegal encoding: refused while `ERR` = 1 unless `op` is RD, BR or PR, else
`IllegalCommand`. -/
def rejectEncoding (cw : Word) (s : State) : Result :=
  if s.err && !readsOnly cw then refuse s else raise .illegalCommand cw s

/-! ### The port -/

/-- Present a transaction as the next one the host issues. -/
def presentPair (p : Word × Word) (s : State) : State := setHost (.transaction p.1 p.2 :: s.host) s

end Sys2Proof.Machine
end

