-- ==== Sys2Proof/Machine/Operands.lean ====
section
/-! DEFINITION. The operands: register numbers, widths, access and the coding of register values (10_state R21,
30_encoding R94), channels and the prediction state (10_state R36), the parameter checks (60_exceptions R272), samples
per block (43_loopconv R230) and the layout of the buffers (20_memory R70, R72). -/

namespace Sys2Proof.Machine

/-! ### Registers by number -/

/-- The register of a number; an unassigned number names none (10_state R21). -/
def regOfNumber (n : Half) : Option Reg :=
  match n.toNat with
  | 0x00 => some .blockSize
  | 0x01 => some .bitdepth
  | 0x02 => some .channels
  | 0x03 => some .sampleRate
  | 0x04 => some .highpass
  | 0x05 => some .totalSamples
  | 0x06 => some .copyrightOffset
  | 0x07 => some .blkLen
  | 0x08 => some .smpIn
  | 0x09 => some .blkidxIn
  | 0x0A => some .loopBeginSample
  | 0x0B => some .loopEndSample
  | 0x10 => some .status
  | 0x11 => some .errinfo
  | 0x12 => some .samplesDone
  | 0x13 => some .blocksDone
  | 0x14 => some .nout
  | 0x15 => some .spb
  | 0x16 => some .offOut
  | 0x17 => some .loopEnabled
  | 0x18 => some .loopBeginByte
  | 0x19 => some .loopEndByte
  | 0x20 => some .coef0Hi
  | 0x21 => some .coef0Lo
  | 0x22 => some .coef1Hi
  | 0x23 => some .coef1Lo
  | 0x28 => some .prev1_0
  | 0x29 => some .prev2_0
  | 0x2A => some .prev1_1
  | 0x2B => some .prev2_1
  | _ => none

/-- The number of a register (10_state R21). -/
def regNumber : Reg → Half
  | .blockSize => 0x00#16
  | .bitdepth => 0x01#16
  | .channels => 0x02#16
  | .sampleRate => 0x03#16
  | .highpass => 0x04#16
  | .totalSamples => 0x05#16
  | .copyrightOffset => 0x06#16
  | .blkLen => 0x07#16
  | .smpIn => 0x08#16
  | .blkidxIn => 0x09#16
  | .loopBeginSample => 0x0A#16
  | .loopEndSample => 0x0B#16
  | .status => 0x10#16
  | .errinfo => 0x11#16
  | .samplesDone => 0x12#16
  | .blocksDone => 0x13#16
  | .nout => 0x14#16
  | .spb => 0x15#16
  | .offOut => 0x16#16
  | .loopEnabled => 0x17#16
  | .loopBeginByte => 0x18#16
  | .loopEndByte => 0x19#16
  | .coef0Hi => 0x20#16
  | .coef0Lo => 0x21#16
  | .coef1Hi => 0x22#16
  | .coef1Lo => 0x23#16
  | .prev1_0 => 0x28#16
  | .prev2_0 => 0x29#16
  | .prev1_1 => 0x2A#16
  | .prev2_1 => 0x2B#16

/-- The width of a register that WR can write, `none` for a read-only one (10_state R21, column access). -/
def writableWidth : Reg → Option Nat
  | .blockSize => some 8
  | .bitdepth => some 8
  | .channels => some 8
  | .sampleRate => some 32
  | .highpass => some 16
  | .totalSamples => some 32
  | .copyrightOffset => some 16
  | .blkLen => some 16
  | .smpIn => some 32
  | .blkidxIn => some 32
  | .loopBeginSample => some 32
  | .loopEndSample => some 32
  | .status | .errinfo | .samplesDone | .blocksDone | .nout | .spb | .offOut | .loopEnabled | .loopBeginByte
  | .loopEndByte | .coef0Hi | .coef0Lo | .coef1Hi | .coef1Lo | .prev1_0 | .prev2_0 | .prev1_1 | .prev2_1 => none

/-- The register a WR names, with its width: a number of R21 with access RW (44_system R250). -/
def writableReg (n : Half) : Option (Reg × Nat) :=
  match regOfNumber n with
  | none => none
  | some r => (writableWidth r).map fun w => (r, w)

/-- The value checks of WR: below 2^width, and at most 510 for `BLK_LEN` (44_system R250). -/
def valueFits (r : Reg) (width : Nat) (value : Word) : Bool :=
  decide (value.toNat < 2 ^ width) && (!decide (r = .blkLen) || decide (value.toNat ≤ 510))

/-- The state changes of a WR that passes its checks (44_system R250): the register, and `COEF_VALID` cleared by
`SAMPLE_RATE` and `HIGHPASS` (10_state R35). A read-only register is never written. -/
def writeReg (r : Reg) (value : Word) (s : State) : State :=
  match r with
  | .blockSize => { s with blockSize := value.setWidth 8 }
  | .bitdepth => { s with bitdepth := value.setWidth 8 }
  | .channels => { s with channels := value.setWidth 8 }
  | .sampleRate => clearCoefValid { s with sampleRate := value }
  | .highpass => clearCoefValid { s with highpass := value.setWidth 16 }
  | .totalSamples => { s with totalSamples := value }
  | .copyrightOffset => { s with copyrightOffset := value.setWidth 16 }
  | .blkLen => { s with blkLen := value.setWidth 16 }
  | .smpIn => { s with smpIn := value }
  | .blkidxIn => { s with blkidxIn := value }
  | .loopBeginSample => { s with loopBeginSample := value }
  | .loopEndSample => { s with loopEndSample := value }
  | .status | .errinfo | .samplesDone | .blocksDone | .nout | .spb | .offOut | .loopEnabled | .loopBeginByte
  | .loopEndByte | .coef0Hi | .coef0Lo | .coef1Hi | .coef1Lo | .prev1_0 | .prev2_0 | .prev1_1 | .prev2_1 => s

/-! ### Parameters -/

/-- The condition of `CheckParams` (60_exceptions R272). -/
abbrev ParamsLegal (s : State) : Prop :=
  3 ≤ s.blockSize.toNat ∧ s.bitdepth = 4#8 ∧ (s.channels = 1#8 ∨ s.channels = 2#8)

/-- `SPB()`, samples per block (43_loopconv R230). -/
def spb (s : State) : Nat := (s.blockSize.toNat - 2) * 8 / s.bitdepth.toNat

/-- The view `SPB`: 0 when `BLOCK_SIZE` or `BITDEPTH` is not legal (10_state R41). -/
def spbView (s : State) : Nat :=
  if 3 ≤ s.blockSize.toNat ∧ s.bitdepth = 4#8 then spb s else 0

/-- `BLOCK_SIZE * CHANNELS`, the bytes of one block (20_memory R70). -/
def blockBytes (s : State) : Nat := s.blockSize.toNat * s.channels.toNat

/-! ### Register values on the data port -/

/-- A half of a coefficient register: its bits, or a draw while `COEF_VALID` = 0 (10_state R34, 93 U6). -/
def coefHalf (s : State) (half : Word) : Word := if s.coefValid then half else Config.coefDraw s.draws

/-- The coding of a register value on data-out (30_encoding R94): unsigned zero-extended, signed sign-extended. -/
def readReg (r : Reg) (s : State) : Word :=
  match r with
  | .blockSize => s.blockSize.setWidth 32
  | .bitdepth => s.bitdepth.setWidth 32
  | .channels => s.channels.setWidth 32
  | .sampleRate => s.sampleRate
  | .highpass => s.highpass.setWidth 32
  | .totalSamples => s.totalSamples
  | .copyrightOffset => s.copyrightOffset.setWidth 32
  | .blkLen => s.blkLen.setWidth 32
  | .smpIn => s.smpIn
  | .blkidxIn => s.blkidxIn
  | .loopBeginSample => s.loopBeginSample
  | .loopEndSample => s.loopEndSample
  | .status => statusWord s
  | .errinfo => s.errinfo
  | .samplesDone => s.samplesDone
  | .blocksDone => s.blocksDone
  | .nout => s.nout.setWidth 32
  | .spb => BitVec.ofNat 32 (spbView s)
  | .offOut => s.offOut
  | .loopEnabled => (BitVec.ofBool s.loopEnabled).setWidth 32
  | .loopBeginByte => s.loopBeginByte
  | .loopEndByte => s.loopEndByte
  | .coef0Hi => coefHalf s (s.coef0.extractLsb' 32 32)
  | .coef0Lo => coefHalf s (s.coef0.extractLsb' 0 32)
  | .coef1Hi => coefHalf s (s.coef1.extractLsb' 32 32)
  | .coef1Lo => coefHalf s (s.coef1.extractLsb' 0 32)
  | .prev1_0 => s.pred0.prev1.signExtend 32
  | .prev2_0 => s.pred0.prev2.signExtend 32
  | .prev1_1 => s.pred1.prev1.signExtend 32
  | .prev2_1 => s.pred1.prev2.signExtend 32

/-- Is the register a half of the coefficient table? -/
def isCoefHalf : Reg → Bool
  | .coef0Hi | .coef0Lo | .coef1Hi | .coef1Lo => true
  | .blockSize | .bitdepth | .channels | .sampleRate | .highpass | .totalSamples | .copyrightOffset | .blkLen
  | .smpIn | .blkidxIn | .loopBeginSample | .loopEndSample | .status | .errinfo | .samplesDone | .blocksDone | .nout
  | .spb | .offOut | .loopEnabled | .loopBeginByte | .loopEndByte | .prev1_0 | .prev2_0 | .prev1_1 | .prev2_1 => false

/-- A read of an unspecified coefficient half uses up one draw, so that "two reads need not agree" (93 U6); RD has no
effect on any register (44_system R251). -/
def afterRead (r : Reg) (s : State) : State :=
  if isCoefHalf r && !s.coefValid then { s with draws := s.draws + 1 } else s

/-! ### Channels and layout -/

/-- The 0-based number of a channel (20_memory R70). -/
def channelIndex : Channel → Nat
  | .ch0 => 0
  | .ch1 => 1

/-- The channels a block command visits: "for i in 0 .. CHANNELS - 1", `CHANNELS` being 1 or 2 (41_decode R161, R173). -/
def activeChannels (s : State) : List Channel := if s.channels = 2#8 then [.ch0, .ch1] else [.ch0]

/-- The prediction state of a channel (10_state R36). -/
def prediction (s : State) : Channel → Prediction
  | .ch0 => s.pred0
  | .ch1 => s.pred1

/-- `PREV2[i] <- PREV1[i]; PREV1[i] <- x` (10_state R36, 41_decode R167, 42_encode R194). -/
def pushPrev (ch : Channel) (x : Half) (s : State) : State :=
  match ch with
  | .ch0 => { s with pred0 := ⟨x, s.pred0.prev1⟩ }
  | .ch1 => { s with pred1 := ⟨x, s.pred1.prev1⟩ }

/-- The first index of a channel's segment of `BLK`: `i * BLOCK_SIZE` (20_memory R70). -/
def segmentBase (s : State) (ch : Channel) : Nat := channelIndex ch * s.blockSize.toNat

/-- The index of position `j` of a channel in `PCM`: `j * CHANNELS + i` (20_memory R72). -/
def pcmIndex (s : State) (ch : Channel) (j : Nat) : Nat := j * s.channels.toNat + channelIndex ch

/-- `Clamp(v, lo, hi)` (00_scope R14). -/
def clampInt (v lo hi : Int) : Int := if v < lo then lo else if v > hi then hi else v

/-- `Clamp16` (00_scope R14, 41_decode R169). -/
def clamp16 (v : Int) : Int := clampInt v (-32768) 32767

end Sys2Proof.Machine
end

