-- ==== Sys2Proof/Machine/Binary64.lean ====
section
/-! DEFINITION. IEEE 754 binary64 arithmetic on bit patterns (00_scope R13): each operation is the exact result
rounded once to nearest, ties to even; no fused operation. Exact results are dyadic, `m * 2^e`; a quotient or a square
root that is not is given one sticky bit below 54 or more exact bits, which rounds alike. -/

namespace Sys2Proof.Machine

/-! ### The format -/

/-- The sign bit. -/
def f64Sign (x : Binary64) : Bool := x.msb

/-- The biased exponent, 0 to 2047. -/
def f64Biased (x : Binary64) : Nat := (x.extractLsb' 52 11).toNat

/-- The fraction field. -/
def f64Fraction (x : Binary64) : Nat := (x.extractLsb' 0 52).toNat

/-- Not a number. -/
def f64IsNaN (x : Binary64) : Bool := f64Biased x == 2047 && f64Fraction x != 0

/-- An infinity of either sign. -/
def f64IsInf (x : Binary64) : Bool := f64Biased x == 2047 && f64Fraction x == 0

/-- Neither a NaN nor an infinity. -/
def f64IsFinite (x : Binary64) : Bool := f64Biased x != 2047

/-- Zero of either sign. -/
def f64IsZero (x : Binary64) : Bool := f64Biased x == 0 && f64Fraction x == 0

/-- The integer significand of a finite value: the value is `± f64Mant x * 2 ^ f64Exp x`. -/
def f64Mant (x : Binary64) : Nat := if f64Biased x = 0 then f64Fraction x else 2 ^ 52 + f64Fraction x

/-- The exponent of the last bit of the significand of a finite value. -/
def f64Exp (x : Binary64) : Int := if f64Biased x = 0 then -1074 else (f64Biased x : Int) - 1075

/-- A pattern from a sign and the 63 bits below it. -/
def f64Pack (neg : Bool) (bits : Nat) : Binary64 := BitVec.ofNat 64 (neg.toNat * 2 ^ 63 + bits)

/-- The exponent field of an infinity, all ones, with fraction 0. -/
def f64InfBits : Nat := 2047 * 2 ^ 52

/-- An infinity. -/
def f64Inf (neg : Bool) : Binary64 := f64Pack neg f64InfBits

/-- A zero. -/
def f64Zero (neg : Bool) : Binary64 := f64Pack neg 0

/-- The NaN an invalid operation gives. PRESUMED: the usual quiet NaN, whose payload the spec does not mention; unsafe,
but no reachable state shows it (40_predict R136, R141; log 8). -/
def f64NaN : Binary64 := 0x7FF8000000000000#64

/-! ### Rounding -/

/-- `m / 2^k` to the nearest integer, ties to even. -/
def roundShift (m k : Nat) : Nat :=
  let q := m / 2 ^ k
  let twice := 2 * (m % 2 ^ k)
  if twice < 2 ^ k then q else if 2 ^ k < twice then q + 1 else q + q % 2

/-- `fl(± m * 2^e)`, to nearest, ties to even (00_scope R13): `q` is the exponent of the result's last bit, the
significand is brought to it, and a value beyond the range becomes an infinity. `(q + 1074) * 2^52 + significand` is the
pattern below the sign, whether the result is subnormal, normal, or carries into the next exponent. -/
def f64Round (neg : Bool) (m : Nat) (e : Int) : Binary64 :=
  if m = 0 then f64Zero neg
  else
    let q : Int := max (e + (Nat.log2 m : Int) - 52) (-1074)
    let sig : Nat := if q ≤ e then m * 2 ^ (e - q).toNat else roundShift m (q - e).toNat
    f64Pack neg (min ((q + 1074).toNat * 2 ^ 52 + sig) f64InfBits)

/-! ### The operations -/

/-- Negation, exact (40_predict R133). -/
def f64Neg (x : Binary64) : Binary64 := f64Pack (!f64Sign x) (x.extractLsb' 0 63).toNat

/-- The significand of a finite value with its sign, at the exponent `e` (at most its own). -/
def f64Aligned (x : Binary64) (e : Int) : Int :=
  let m : Int := (f64Mant x * 2 ^ (f64Exp x - e).toNat : Nat)
  if f64Sign x then -m else m

/-- `a (+) b` (00_scope R13). An exact sum of zero is +0 unless both operands are -0. -/
def f64Add (x y : Binary64) : Binary64 :=
  if f64IsNaN x || f64IsNaN y then f64NaN
  else if f64IsInf x then (if f64IsInf y && f64Sign x != f64Sign y then f64NaN else x)
  else if f64IsInf y then y
  else
    let e := min (f64Exp x) (f64Exp y)
    let t := f64Aligned x e + f64Aligned y e
    if t = 0 then f64Zero (f64Sign x && f64Sign y) else f64Round (decide (t < 0)) t.natAbs e

/-- `a (-) b` (00_scope R13). -/
def f64Sub (x y : Binary64) : Binary64 := f64Add x (f64Neg y)

/-- `a (*) b` (00_scope R13). -/
def f64Mul (x y : Binary64) : Binary64 :=
  let neg := f64Sign x != f64Sign y
  if f64IsNaN x || f64IsNaN y then f64NaN
  else if f64IsInf x || f64IsInf y then (if f64IsZero x || f64IsZero y then f64NaN else f64Inf neg)
  else f64Round neg (f64Mant x * f64Mant y) (f64Exp x + f64Exp y)

/-- `a (/) b` (00_scope R13). The quotient of the significands is taken to 57 or more bits, with a sticky bit. -/
def f64Div (x y : Binary64) : Binary64 :=
  let neg := f64Sign x != f64Sign y
  if f64IsNaN x || f64IsNaN y then f64NaN
  else if f64IsInf x then (if f64IsInf y then f64NaN else f64Inf neg)
  else if f64IsInf y then f64Zero neg
  else if f64IsZero y then (if f64IsZero x then f64NaN else f64Inf neg)
  else
    let n := f64Mant x * 2 ^ 110
    let q := n / f64Mant y
    let sticky := if n % f64Mant y = 0 then 0 else 1
    f64Round neg (2 * q + sticky) (f64Exp x - f64Exp y - 111)

/-- The integer square root by bits: the largest `r + t` with `t < 2^k` whose square is at most `n`. -/
def isqrtFrom (n : Nat) : Nat → Nat → Nat
  | 0, r => r
  | k + 1, r => if (r + 2 ^ k) * (r + 2 ^ k) ≤ n then isqrtFrom n k (r + 2 ^ k) else isqrtFrom n k r

/-- `sqrt64(a)` (00_scope R13). The significand is brought to an even exponent and 110 or more bits, so that its
integer root has 55 or more, with a sticky bit. -/
def f64Sqrt (x : Binary64) : Binary64 :=
  if f64IsNaN x then f64NaN
  else if f64IsZero x then x
  else if f64Sign x then f64NaN
  else if f64IsInf x then x
  else
    let k : Nat := if f64Exp x % 2 = 0 then 110 else 111
    let n := f64Mant x * 2 ^ k
    let r := isqrtFrom n 82 0
    let sticky := if r * r = n then 0 else 1
    f64Round false (2 * r + sticky) ((f64Exp x - k) / 2 - 1)

/-- `d < 0.0`: false for either zero and for a NaN (40_predict R136). -/
def f64BelowZero (x : Binary64) : Bool := f64Sign x && !f64IsZero x && !f64IsNaN x

/-- `-1.0 <= x <= 1.0`: the pattern below the sign is at most that of 1.0. -/
def f64AbsLeOne (x : Binary64) : Bool := decide ((x.extractLsb' 0 63).toNat ≤ 1023 * 2 ^ 52)

/-- `i2f(k)`, exact for `|k| < 2^53` (00_scope R13). -/
def i2f (k : Int) : Binary64 := f64Round (decide (k < 0)) k.natAbs 0

/-- `round_half_away` of the exact value of a finite pattern (00_scope R14): `floor(|x| + 1/2)` with the sign of `x`. -/
def f64RoundHalfAway (x : Binary64) : Int :=
  let e := f64Exp x
  let r : Nat :=
    if 0 ≤ e then f64Mant x * 2 ^ e.toNat
    else (2 * f64Mant x + 2 ^ (-e).toNat) / 2 ^ ((-e).toNat + 1)
  if f64Sign x then -(r : Int) else (r : Int)

end Sys2Proof.Machine
end

