-- ==== Sys2Proof/Machine/Predict.lean ====
section
/-! DEFINITION. The prediction filter: `COS64`, `CoefDerive`, `Predict`, `RoundPred`, `PredInt` (40_predict R130 to
R141), and COEF. -/

namespace Sys2Proof.Machine

/-- 2.0. -/
def two64 : Binary64 := 0x4000000000000000#64

/-- 1.0. -/
def one64 : Binary64 := 0x3FF0000000000000#64

/-- `SQRT2_64 = sqrt64(2.0)` (40_predict R134). DESIGN CHOICE: 00_scope R6 does not list it as OPEN and R134 gives its
value, while 92 D14 calls it a default; the value is taken. Unsafe if an implementation has another (log 9). -/
def sqrt2_64 : Binary64 := f64Sqrt two64

/-- `COS64` (40_predict R135): a function (P3) with value 1.0 at +0.0 (P1) and values in [-1.0, 1.0] (P2), otherwise
free: every function with P1 and P2 is `cos64` for some draw. The bound is imposed at every argument, not only at the
finite ones, and no rule asks for another (log 6). -/
def cos64 (x : Binary64) : Binary64 :=
  if x = 0#64 then one64
  else if f64AbsLeOne (Config.cosDraw x) then Config.cosDraw x else one64

/-- `x = ((2.0 (*) PI64) (*) i2f(hp)) (/) i2f(rate)` (40_predict R133), with `PI64` an argument (00_scope R6). -/
def coefAngle (pi64 : Binary64) (rate hp : Nat) : Binary64 :=
  f64Div (f64Mul (f64Mul two64 pi64) (i2f hp)) (i2f rate)

/-- `CoefDerive` after the cosine `cz` (40_predict R133), with the guard of R136. -/
def coefFromCos (cz : Binary64) : Binary64 × Binary64 :=
  let a := f64Sub sqrt2_64 cz
  let b := f64Sub sqrt2_64 one64
  let d := f64Mul (f64Add a b) (f64Sub a b)
  let d := if f64BelowZero d then f64Zero false else d
  let c := f64Div (f64Sub a (f64Sqrt d)) b
  (f64Mul two64 c, f64Neg (f64Mul c c))

/-- `CoefDerive(rate, hp)` (40_predict R133). -/
def coefDerive (pi64 : Binary64) (rate hp : Nat) : Binary64 × Binary64 := coefFromCos (cos64 (coefAngle pi64 rate hp))

/-- `CoefDerive` of the registers of a state, with its `PI64` (40_predict R131). -/
def tableOf (s : State) : Binary64 × Binary64 :=
  coefDerive s.openParams.pi64 s.sampleRate.toNat s.highpass.toNat

/-- `Predict(c0, c1, prev1, prev2)`: two rounded products and one rounded sum (40_predict R138). -/
def predict (c0 c1 : Binary64) (p : Prediction) : Binary64 :=
  f64Add (f64Mul c0 (i2f p.prev1.toInt)) (f64Mul c1 (i2f p.prev2.toInt))

/-- `RoundPred`: nearest integer, ties away from zero (40_predict R139); free where the argument is no number
(log 8). -/
def roundPred (p : Binary64) : Int := if f64IsFinite p then f64RoundHalfAway p else Config.roundSpecial p

/-- `PredInt` from the table and one channel's state (40_predict R140). -/
def predIntOf (c0 c1 : Binary64) (p : Prediction) : Int := roundPred (predict c0 c1 p)

/-- `PredInt(i)` (40_predict R140). -/
def predInt (s : State) (ch : Channel) : Int := predIntOf s.coef0 s.coef1 (prediction s ch)

/-- COEF (40_predict R131). -/
def execCoef (s : State) : Result :=
  unlessFaulted s <|
  check (s.sampleRate ≠ 0#32) .badParam (commandOf .coef) s <|
  complete (setTable (tableOf s).1 (tableOf s).2 s)

end Sys2Proof.Machine
end

