-- ==== Sys2Proof/Machine/Decoder.lean ====
section
/-! DEFINITION. The block decoder: `Sext4`, `Nibble`, `DecodeSample` (41_decode R160 to R175), and DECBLK. -/

namespace Sys2Proof.Machine

/-- `Sext4` (41_decode R165, 30_encoding R101). -/
def sext4 (v : BitVec 4) : Int := if v.toNat < 8 then (v.toNat : Int) else (v.toNat : Int) - 16

/-- `Nibble(d, j)`: high nibble first (41_decode R165, 20_memory R67). -/
def nibble (s : State) (d j : Nat) : BitVec 4 :=
  let byte := readBlk s (d + j / 2)
  if j % 2 = 0 then byte.extractLsb' 4 4 else byte.extractLsb' 0 4

/-- The sample of `DecodeSample`: `Clamp16(Sext4(v) * scale + PredInt(i))`, in exact integers (41_decode R167, R168). -/
def decodedValue (s : State) (ch : Channel) (v : BitVec 4) (scale : Half) : Int :=
  clamp16 (sext4 v * (scale.toNat : Int) + predInt s ch)

/-- One position of one channel: decode, shift the prediction state with the clamped sample, write `PCM`
(41_decode R161, R167, R170). -/
def decodePosition (ch : Channel) (scale : Half) (s : State) (j : Nat) : State :=
  let x : Half := BitVec.ofInt 16 (decodedValue s ch (nibble s (segmentBase s ch + 2) j) scale)
  writePcm (pcmIndex s ch j) x (pushPrev ch x s)

/-- One channel: its scale is read once, unsigned and big-endian, then positions 0 to n - 1 in order
(41_decode R161, R166). -/
def decodeChannel (n : Nat) (s : State) (ch : Channel) : State :=
  (List.range n).foldl (decodePosition ch (readBlk16 s (segmentBase s ch))) s

/-- Every active channel, channel-major (41_decode R161); the order shows in nothing (R170; log 10). -/
def decodeFrame (n : Nat) (s : State) : State := (activeChannels s).foldl (decodeChannel n) s

/-- `n = min(spb, max(0, TOTAL_SAMPLES - SAMPLES_DONE))` (41_decode R163). -/
def decodeCount (s : State) : Nat := min (spb s) (s.totalSamples.toNat - s.samplesDone.toNat)

/-- The state changes of a DECBLK that decodes n > 0 samples (41_decode R161). `BLOCKS_DONE` cannot wrap in a state of the
invariant (10_state R38; log 13). -/
def decodeBlock (n : Nat) (s : State) : State :=
  { decodeFrame n s with
    nout := BitVec.ofNat 16 n
    samplesDone := BitVec.ofNat 32 (s.samplesDone.toNat + n)
    blocksDone := BitVec.ofNat 32 (s.blocksDone.toNat + 1) }

/-- DECBLK (41_decode R161): at or past the end of the stream it sets `NOUT` to 0 and changes nothing else, without
testing `BLK_LEN` (R164); otherwise the whole block must be there (R162). -/
def execDecblk (s : State) : Result :=
  unlessFaulted s <|
  check (ParamsLegal s) .badParam (commandOf .decblk) s <|
  check (s.coefValid = true) .notConfigured (commandOf .decblk) s <|
  if decodeCount s = 0 then complete { s with nout := 0#16 }
  else
    check (blockBytes s ≤ s.blkLen.toNat) .truncated (commandOf .decblk) s <|
    complete (decodeBlock (decodeCount s) s)

end Sys2Proof.Machine
end

