-- ==== Sys2Proof/Machine/Encoder.lean ====
section
/-! DEFINITION. The block encoder: `Residuals`, `ScaleOf`, `ScaleDiv`, `RoundQuant`, `Quantise`, `Enc4`, `Pack`
(42_encode R190 to R212), and ENCBLK. -/

namespace Sys2Proof.Machine

/-- The residuals of the given positions of a channel, in order, and the state after them: the prediction is taken
before the update, and the state is updated with the source sample (42_encode R194, R195). -/
def residualRun (ch : Channel) : List Nat → State → List Int × State
  | [], s => ([], s)
  | j :: js, s =>
    let x := readPcm s (pcmIndex s ch j)
    let rest := residualRun ch js (pushPrev ch x s)
    ((x.toInt - predInt s ch) :: rest.1, rest.2)

/-- `RES[i][0 .. spb-1]` of a frame of n real samples: positions n and above have residual 0 (42_encode R193, R194). -/
def residuals (ch : Channel) (n : Nat) (s : State) : List Int :=
  (residualRun ch (List.range n) s).1 ++ List.replicate (spb s - n) 0

/-- The state after the n real samples: only they advance the prediction state (42_encode R193, R194). -/
def afterResiduals (ch : Channel) (n : Nat) (s : State) : State := (residualRun ch (List.range n) s).2

/-- `max_positive`: the largest positive residual, or 0 (42_encode R197). -/
def maxPositive (res : List Int) : Int := res.foldl max 0

/-- `min_negative`: the most negative residual, or 0 (42_encode R197). -/
def minNegative (res : List Int) : Int := res.foldl min 0

/-- `ScaleDiv(m, k)` (42_encode R200). -/
def scaleDiv (d : ScaleDiv) (m k : Nat) : Nat :=
  match d with
  | .ceil => (m + k - 1) / k
  | .floor => m / k

/-- `ScaleOf`: the larger of the two quotients, floored to 1 (42_encode R198, R199). -/
def scaleOf (d : ScaleDiv) (res : List Int) : Nat :=
  let sc := max (scaleDiv d (maxPositive res).toNat 7) (scaleDiv d (-minNegative res).toNat 8)
  if sc = 0 then 1 else sc

/-- `RoundQuant(r, scale)`, the rounding of the exact quotient (42_encode R203). -/
def roundQuant (mode : RModeQuant) (r : Int) (scale : Nat) : Int :=
  match mode with
  | .halfAway => r.sign * ((2 * r.natAbs + scale) / (2 * scale) : Nat)
  | .halfUp => (2 * r + scale) / (2 * scale)
  | .trunc => r.sign * (r.natAbs / scale : Nat)

/-- `Quantise(r, scale)`: clamped to [-8, 7] (42_encode R204). -/
def quantise (mode : RModeQuant) (r : Int) (scale : Nat) : Int := clampInt (roundQuant mode r scale) (-8) 7

/-- `Enc4(q) = q mod 16` (42_encode R205). -/
def enc4 (q : Int) : BitVec 4 := BitVec.ofInt 4 q

/-- Nibble byte k of a channel: position 2k in the high bits, 2k + 1 in the low bits (42_encode R202). -/
def packedByte (mode : RModeQuant) (res : List Int) (scale k : Nat) : Byte :=
  BitVec.ofNat 8 ((enc4 (quantise mode (res.getD (2 * k) 0) scale)).toNat * 16 +
    (enc4 (quantise mode (res.getD (2 * k + 1) 0) scale)).toNat)

/-- `Pack(i, d, scale, spb)`: the `spb div 2` nibble bytes from index d (42_encode R202). -/
def packChannel (mode : RModeQuant) (d : Nat) (res : List Int) (scale count : Nat) (s : State) : State :=
  (List.range count).foldl (fun t k => writeBlk (d + k) (packedByte mode res scale k) t) s

/-- One channel of a frame: residuals, scale, the big-endian scale field, the nibble bytes (42_encode R191, R206). The scale
fits the field for every table COEF computes (42_encode R200; log 13). -/
def encodeChannel (n : Nat) (s : State) (ch : Channel) : State :=
  let res := residuals ch n s
  let scale := scaleOf s.openParams.scaleDiv res
  packChannel s.openParams.rmode (segmentBase s ch + 2) res scale (spb s / 2)
    (writeBlk16 (segmentBase s ch) (BitVec.ofNat 16 scale) (afterResiduals ch n s))

/-- Every active channel, channel-major (42_encode R191); the order shows in nothing (R211; log 10). -/
def encodeFrame (n : Nat) (s : State) : State := (activeChannels s).foldl (encodeChannel n) s

/-- The state changes of an ENCBLK n that passes its checks (42_encode R191). -/
def encodeBlock (n : Nat) (s : State) : State :=
  { encodeFrame n s with
    blkLen := BitVec.ofNat 16 (blockBytes s)
    samplesDone := BitVec.ofNat 32 (s.samplesDone.toNat + n)
    blocksDone := BitVec.ofNat 32 (s.blocksDone.toNat + 1) }

/-- ENCBLK n (42_encode R191). -/
def execEncblk (n : Half) (s : State) : Result :=
  unlessFaulted s <|
  check (ParamsLegal s) .badParam (commandOf (.encblk n)) s <|
  check (s.coefValid = true) .notConfigured (commandOf (.encblk n)) s <|
  check (1 ≤ n.toNat ∧ n.toNat ≤ spb s) .badLength (commandOf (.encblk n)) s <|
  check (s.samplesDone.toNat + n.toNat ≤ 2 ^ 32 - 1) .range (commandOf (.encblk n)) s <|
  complete (encodeBlock n.toNat s)

end Sys2Proof.Machine
end

