-- ==== Sys2Proof/Machine/LoopConv.lean ====
section
/-! DEFINITION. The loop converter: S2B, BOFF, LOOPSET (43_loopconv R230 to R240). -/

namespace Sys2Proof.Machine

/-- `S2B(s)`: integer division first, then the two multiplications; relative to the first byte of sample data
(43_loopconv R233). -/
def sampleToByte (s : State) (sample : Nat) : Nat := sample / spb s * s.blockSize.toNat * s.channels.toNat

/-- `BlockOffset(k)` (43_loopconv R236). -/
def blockOffset (s : State) (k : Nat) : Nat :=
  s.copyrightOffset.toNat + 4 + k * s.blockSize.toNat * s.channels.toNat

/-- S2B (43_loopconv R234). -/
def execS2b (s : State) : Result :=
  unlessFaulted s <|
  check (ParamsLegal s) .badParam (commandOf .s2b) s <|
  check (sampleToByte s s.smpIn.toNat ≤ 2 ^ 32 - 1) .range (commandOf .s2b) s <|
  complete { s with offOut := BitVec.ofNat 32 (sampleToByte s s.smpIn.toNat) }

/-- BOFF (43_loopconv R236). -/
def execBoff (s : State) : Result :=
  unlessFaulted s <|
  check (ParamsLegal s) .badParam (commandOf .boff) s <|
  check (blockOffset s s.blkidxIn.toNat ≤ 2 ^ 32 - 1) .range (commandOf .boff) s <|
  complete { s with offOut := BitVec.ofNat 32 (blockOffset s s.blkidxIn.toNat) }

/-- The state changes of a LOOPSET that passes its checks; the byte offsets are written whether or not looping is
enabled (43_loopconv R238). -/
def setLoop (s : State) : State :=
  { s with
    loopEnabled := decide (s.loopBeginSample.toNat < s.loopEndSample.toNat)
    loopBeginByte := BitVec.ofNat 32 (sampleToByte s s.loopBeginSample.toNat)
    loopEndByte := BitVec.ofNat 32 (sampleToByte s s.loopEndSample.toNat) }

/-- LOOPSET (43_loopconv R238). -/
def execLoopset (s : State) : Result :=
  unlessFaulted s <|
  check (ParamsLegal s) .badParam (commandOf .loopset) s <|
  check (sampleToByte s s.loopBeginSample.toNat ≤ 2 ^ 32 - 1 ∧ sampleToByte s s.loopEndSample.toNat ≤ 2 ^ 32 - 1)
    .range (commandOf .loopset) s <|
  complete (setLoop s)

end Sys2Proof.Machine
end

