-- ==== Sys2Proof/Machine/System.lean ====
section
/-! DEFINITION. The system transactions: WR, RD, BW, BR, PW, PR, START (44_system R250 to R256). -/

namespace Sys2Proof.Machine

/-- WR reg, value (44_system R250). -/
def execWr (reg : Half) (value : Word) (s : State) : Result :=
  unlessFaulted s <|
  match writableReg reg with
  | none => raise .badRegister (commandOf (.wr reg value)) s
  | some (r, width) =>
    check (valueFits r width value = true) .badParam (commandOf (.wr reg value)) s <|
    complete (writeReg r value s)

/-- RD reg (44_system R251): not refused while `ERR` = 1. -/
def execRd (reg : Half) (s : State) : Result :=
  match regOfNumber reg with
  | none => raise .badRegister (commandOf (.rd reg)) s
  | some r => answer (readReg r s) (afterRead r s)

/-- BW index, byte (44_system R252). A term whose data is too wide is no legal encoding and raises `IllegalCommand`, as
its encoding does (30_encoding R95 (d); log 15). -/
def execBw (index : Half) (din : Word) (s : State) : Result :=
  unlessFaulted s <|
  check (din.toNat < 2 ^ 8) .illegalCommand (commandOf (.bw index din)) s <|
  check (index.toNat < blkBytes) .badIndex (commandOf (.bw index din)) s <|
  complete (writeBlk index.toNat (din.setWidth 8) s)

/-- BR index (44_system R253): not refused while `ERR` = 1. -/
def execBr (index : Half) (s : State) : Result :=
  check (index.toNat < blkBytes) .badIndex (commandOf (.br index)) s <|
  answer ((readBlk s index.toNat).setWidth 32) s

/-- PW index, sample (44_system R254). Data that is too wide: as for BW (log 15). -/
def execPw (index : Half) (din : Word) (s : State) : Result :=
  unlessFaulted s <|
  check (din.toNat < 2 ^ 16) .illegalCommand (commandOf (.pw index din)) s <|
  check (index.toNat < pcmWords) .badIndex (commandOf (.pw index din)) s <|
  complete (writePcm index.toNat (din.setWidth 16) s)

/-- PR index (44_system R255): sign-extended; not refused while `ERR` = 1. -/
def execPr (index : Half) (s : State) : Result :=
  check (index.toNat < pcmWords) .badIndex (commandOf (.pr index)) s <|
  answer ((readPcm s index.toNat).signExtend 32) s

/-- The state changes of START (44_system R256). -/
def beginStream (s : State) : State :=
  { s with pred0 := ⟨0#16, 0#16⟩, pred1 := ⟨0#16, 0#16⟩, samplesDone := 0#32, blocksDone := 0#32, nout := 0#16 }

/-- START (44_system R256): no parameter check. -/
def execStart (s : State) : Result := unlessFaulted s <| complete (beginStream s)

end Sys2Proof.Machine
end

