-- ==== Sys2Proof/Machine/Dispatch.lean ====
section
/-! DEFINITION. The meaning of every transaction, one arm per constructor of `Instr`. -/

namespace Sys2Proof.Machine

def exec (i : Instr) (s : State) : Host.Outcome State Fault Refusal :=
  match i with
  | .wr reg value => Sys2Proof.Machine.execWr reg value s
  | .rd reg => Sys2Proof.Machine.execRd reg s
  | .bw index din => Sys2Proof.Machine.execBw index din s
  | .br index => Sys2Proof.Machine.execBr index s
  | .pw index din => Sys2Proof.Machine.execPw index din s
  | .pr index => Sys2Proof.Machine.execPr index s
  | .coef => Sys2Proof.Machine.execCoef s
  | .start => Sys2Proof.Machine.execStart s
  | .decblk => Sys2Proof.Machine.execDecblk s
  | .encblk n => Sys2Proof.Machine.execEncblk n s
  | .s2b => Sys2Proof.Machine.execS2b s
  | .boff => Sys2Proof.Machine.execBoff s
  | .loopset => Sys2Proof.Machine.execLoopset s

end Sys2Proof.Machine
end

