-- ==== Sys2Proof/Machine/Step.lean ====
section
/-! DEFINITION. One step: the next action of the host, taken to its end (00_scope R8, 44_system R257). -/

namespace Sys2Proof.Machine

/-- One step. With nothing pending the core "waits for the first transaction" and nothing changes
(70_reset_and_hazards R302); hardware reset is an input between two transactions (R301); a transaction is decoded and
executed, an illegal encoding rejected, in the order of 44_system R257. The refusal of step 1 is the first check of each
meaning but those of RD, BR and PR, and of `rejectEncoding`. -/
def step (s : State) : Host.Outcome State Fault Refusal :=
  match s.host with
  | [] => .next s
  | .reset :: q => .next (hardwareReset (setHost q s))
  | .transaction cw din :: q =>
    match decode cw din with
    | .ok i => exec i (setHost q s)
    | .error _ => rejectEncoding cw (setHost q s)

/-- `s` with the transaction numbered `w` as the next one the host issues (log 1, log 14). -/
def State.withFetchWord (s : State) (nbits w : Nat) : State := presentPair (portPair nbits w) s

end Sys2Proof.Machine
end

