-- ==== Sys2Proof/Machine/Script.lean ====
section
/-! DEFINITION. The host's side of the command port: a script line as a host action, and the pseudo-operations
(30_encoding R97, R98). No transaction reads any of this (log 11). -/

namespace Sys2Proof.Machine

/-- One script line: the pair (`cw`, `din`) the host issues (30_encoding R97). -/
def issue (i : Instr) : HostAction := .transaction (commandOf i) (dataOf i)

/-- `WR reg, value` with the register written by name (30_encoding R97). -/
def issueWr (r : Reg) (value : Word) : HostAction := issue (.wr (regNumber r) value)

/-- `RD reg` with the register written by name (30_encoding R97). -/
def issueRd (r : Reg) : HostAction := issue (.rd (regNumber r))

/-- `BW 0, b0`, `BW 1, b1`, ... from index `k` (30_encoding R98). -/
def writeBytesFrom : Nat → List Byte → List HostAction
  | _, [] => []
  | k, b :: bs => issue (.bw (BitVec.ofNat 16 k) (b.setWidth 32)) :: writeBytesFrom (k + 1) bs

/-- `PW 0, s0`, `PW 1, s1`, ... from index `k`; a negative sample is written as its 16-bit pattern
(30_encoding R97, R98). -/
def writeSamplesFrom : Nat → List Int → List HostAction
  | _, [] => []
  | k, x :: xs => issue (.pw (BitVec.ofNat 16 k) ((BitVec.ofInt 16 x).setWidth 32)) :: writeSamplesFrom (k + 1) xs

/-- `LDBLK b0 b1 ...` (30_encoding R98). -/
def ldblk (bytes : List Byte) : List HostAction :=
  writeBytesFrom 0 bytes ++ [issueWr .blkLen (BitVec.ofNat 32 bytes.length)]

/-- `LDPCM s0 s1 ...` (30_encoding R98). -/
def ldpcm (samples : List Int) : List HostAction := writeSamplesFrom 0 samples

/-- `CFG bs, ch, rate, hp` (30_encoding R98). -/
def cfg (bs ch rate hp : Word) : List HostAction :=
  [issueWr .blockSize bs, issueWr .bitdepth 4#32, issueWr .channels ch, issueWr .sampleRate rate,
    issueWr .highpass hp, issue .coef, issue .start]

/-- `RDBLK m` (30_encoding R98). -/
def rdblk (m : Nat) : List HostAction := (List.range m).map fun k => issue (.br (BitVec.ofNat 16 k))

/-- `RDPCM m` (30_encoding R98). -/
def rdpcm (m : Nat) : List HostAction := (List.range m).map fun k => issue (.pr (BitVec.ofNat 16 k))

end Sys2Proof.Machine
end

