-- ==== Sys2Proof/Machine/Header.lean ====
section
/-! DEFINITION. The header record of an ADX stream (30_encoding R112 to R118): data of the host, from which the
parameter registers are written (70_reset_and_hazards R306). ADXCORE never sees it (log 11). -/

namespace Sys2Proof.Machine

/-- The five loop fields both versions have (30_encoding R114, R115). `enabled` is "stored as a u32 in the header and held
as a boolean in the data model" (R116, 90 C5). -/
structure LoopFields where
  enabled : Bool
  beginSample : Word
  beginByte : Word
  endSample : Word
  endByte : Word
  deriving DecidableEq, Repr

/-- The loop block, "a sum type keyed by version" (30_encoding R114 to R116). -/
inductive LoopBlock
  | v3 (alignment : Half) (loop : LoopFields)
  | v4 (loop : LoopFields)
  | other (version : Byte)
  deriving DecidableEq, Repr

/-- The header fields (30_encoding R113). `encodingType` and `flags` are carried unchanged (93 U20). -/
structure Header where
  copyrightOffset : Half
  encodingType : Byte
  blockSize : Byte
  sampleBitdepth : Byte
  channelCount : Byte
  sampleRate : Word
  totalSamples : Word
  highpassFrequency : Half
  flags : Byte
  loop : LoopBlock
  deriving DecidableEq, Repr

/-- The host parser's fatal format errors (60_exceptions R271). -/
inductive FormatError
  | badMagic
  | truncated
  deriving DecidableEq, Repr

/-- The big-endian field of `n` bytes at offset `a` (30_encoding R112). -/
def beField (b : List Byte) (a n : Nat) : Nat :=
  (List.range n).foldl (fun v k => v * 256 + (b.getD (a + k) 0#8).toNat) 0

/-- The `n` bytes of a big-endian field (30_encoding R112). -/
def beBytes (n v : Nat) : List Byte := (List.range n).map fun k => BitVec.ofNat 8 (v / 256 ^ (n - 1 - k))

/-- The version byte of a loop block (30_encoding R113). -/
def loopVersion : LoopBlock → Byte
  | .v3 _ _ => 3#8
  | .v4 _ => 4#8
  | .other v => v

/-- The boolean of a stored `loop_enabled`: 1 = enabled, 0 = disabled (30_encoding R114 to R116, 90 C5); any other stored
value is read as a free value (93 U21; log 17). -/
def loopEnabledOf (stored : Word) : Bool :=
  if stored = 1#32 then true else if stored = 0#32 then false else Config.loopEnabledOther stored

/-- The stored `loop_enabled` of a boolean: "the host writes it as the u32 value 0 or 1" (90 C5). -/
def storedLoopEnabled (enabled : Bool) : Word := if enabled then 1#32 else 0#32

/-- Five loop fields from offset `a` (30_encoding R114, R115). -/
def readLoop (b : List Byte) (a : Nat) : LoopFields where
  enabled := loopEnabledOf (BitVec.ofNat 32 (beField b a 4))
  beginSample := BitVec.ofNat 32 (beField b (a + 4) 4)
  beginByte := BitVec.ofNat 32 (beField b (a + 8) 4)
  endSample := BitVec.ofNat 32 (beField b (a + 12) 4)
  endByte := BitVec.ofNat 32 (beField b (a + 16) 4)

/-- The twenty bytes of the loop fields. -/
def loopFieldBytes (l : LoopFields) : List Byte :=
  beBytes 4 (storedLoopEnabled l.enabled).toNat ++ beBytes 4 l.beginSample.toNat ++ beBytes 4 l.beginByte.toNat ++
    beBytes 4 l.endSample.toNat ++ beBytes 4 l.endByte.toNat

/-- Bytes 0x14 to 0x3F, unused ones zero (30_encoding R114, R115, R116). -/
def loopBlockBytes : LoopBlock → List Byte
  | .v3 alignment l => beBytes 2 alignment.toNat ++ List.replicate 2 0#8 ++ loopFieldBytes l ++ List.replicate 20 0#8
  | .v4 l => List.replicate 16 0#8 ++ loopFieldBytes l ++ List.replicate 8 0#8
  | .other _ => List.replicate 44 0#8

/-- The loop block of a stored version (30_encoding R114 to R116). -/
def readLoopBlock (b : List Byte) : LoopBlock :=
  if b.getD 0x12 0#8 = 3#8 then .v3 (BitVec.ofNat 16 (beField b 0x14 2)) (readLoop b 0x18)
  else if b.getD 0x12 0#8 = 4#8 then .v4 (readLoop b 0x24)
  else .other (b.getD 0x12 0#8)

/-- Reading the 0x40-byte header (30_encoding R112, R113). DESIGN CHOICE: of a header that is both too short and without
the magic the spec names no one error; the length is tested first and `truncated` answered (log 16). -/
def readHeader (b : List Byte) : Except FormatError Header :=
  if b.length < 0x40 then .error .truncated
  else if b.getD 0 0#8 = 0x80#8 ∧ b.getD 1 0#8 = 0x00#8 then
    .ok
      { copyrightOffset := BitVec.ofNat 16 (beField b 0x02 2)
        encodingType := b.getD 0x04 0#8
        blockSize := b.getD 0x05 0#8
        sampleBitdepth := b.getD 0x06 0#8
        channelCount := b.getD 0x07 0#8
        sampleRate := BitVec.ofNat 32 (beField b 0x08 4)
        totalSamples := BitVec.ofNat 32 (beField b 0x0C 4)
        highpassFrequency := BitVec.ofNat 16 (beField b 0x10 2)
        flags := b.getD 0x13 0#8
        loop := readLoopBlock b }
  else .error .badMagic

/-- Writing the 0x40-byte header: "always writes magic, writes version-appropriate loop fields, leaves unused region
zero" (30_encoding R112). -/
def writeHeader (h : Header) : List Byte :=
  [0x80#8, 0x00#8] ++ beBytes 2 h.copyrightOffset.toNat ++
    [h.encodingType, h.blockSize, h.sampleBitdepth, h.channelCount] ++
    beBytes 4 h.sampleRate.toNat ++ beBytes 4 h.totalSamples.toNat ++ beBytes 2 h.highpassFrequency.toNat ++
    [loopVersion h.loop, h.flags] ++ loopBlockBytes h.loop

/-- `patch_totals`: the totals the host rewrites after an encode pass (43_loopconv R240). A header of another version
has no loop fields to patch (30_encoding R116). -/
def patchTotals (h : Header) (total beginByte endByte : Word) : Header :=
  { h with
    totalSamples := total
    loop := match h.loop with
      | .v3 alignment l => .v3 alignment { l with beginByte := beginByte, endByte := endByte }
      | .v4 l => .v4 { l with beginByte := beginByte, endByte := endByte }
      | .other v => .other v }

/-- The loop fields the host writes after an encode pass: what ADXCORE answers for `LOOP_ENABLED`, the two sample indices
and the two byte offsets (43_loopconv R240). -/
def loopFieldsOf (s : State) : LoopFields where
  enabled := s.loopEnabled
  beginSample := s.loopBeginSample
  beginByte := s.loopBeginByte
  endSample := s.loopEndSample
  endByte := s.loopEndByte

/-- The header after an encode pass: `total_samples` = `SAMPLES_DONE` and the loop fields of its version
(43_loopconv R240); another version has none (30_encoding R116). -/
def finishHeader (h : Header) (s : State) : Header :=
  { h with
    totalSamples := s.samplesDone
    loop := match h.loop with
      | .v3 alignment _ => .v3 alignment (loopFieldsOf s)
      | .v4 _ => .v4 (loopFieldsOf s)
      | .other v => .other v }

/-- The copyright string `(c)CRI` (30_encoding R117). -/
def copyrightString : List Byte := [0x28#8, 0x63#8, 0x29#8, 0x43#8, 0x52#8, 0x49#8]

/-- The stream position of the copyright string: `copyright_offset - 2` (30_encoding R117). -/
def copyrightPosition (h : Header) : Int := (h.copyrightOffset.toNat : Int) - 2

/-- The stream position of the first byte of sample data: `copyright_offset + 4` (20_memory R71, 30_encoding R113). -/
def sampleDataPosition (h : Header) : Nat := h.copyrightOffset.toNat + 4

/-- Is looping enabled? For another version the loop fields "default to disabled" (30_encoding R116, 60_exceptions
R271). -/
def loopEnabled : LoopBlock → Bool
  | .v3 _ l => l.enabled
  | .v4 l => l.enabled
  | .other _ => false

/-- The loop sample indices the host writes: 0 for another version (30_encoding R116). -/
def loopSamples : LoopBlock → Word × Word
  | .v3 _ l => (l.beginSample, l.endSample)
  | .v4 l => (l.beginSample, l.endSample)
  | .other _ => (0#32, 0#32)

/-- The opening of the decode sequence: the parameter writes from the header, COEF, START
(70_reset_and_hazards R306). -/
def decodeSetup (h : Header) : List HostAction :=
  [issueWr .blockSize (h.blockSize.setWidth 32), issueWr .bitdepth (h.sampleBitdepth.setWidth 32),
    issueWr .channels (h.channelCount.setWidth 32), issueWr .sampleRate h.sampleRate,
    issueWr .highpass (h.highpassFrequency.setWidth 32), issueWr .totalSamples h.totalSamples,
    issueWr .copyrightOffset (h.copyrightOffset.setWidth 32), issue .coef, issue .start]

/-- The opening of the encode sequence (70_reset_and_hazards R306). -/
def encodeSetup (h : Header) : List HostAction :=
  [issueWr .blockSize (h.blockSize.setWidth 32), issueWr .bitdepth 4#32, issueWr .channels (h.channelCount.setWidth 32),
    issueWr .sampleRate h.sampleRate, issueWr .highpass (h.highpassFrequency.setWidth 32),
    issueWr .loopBeginSample (loopSamples h.loop).1, issueWr .loopEndSample (loopSamples h.loop).2, issue .coef,
    issue .start]

end Sys2Proof.Machine
end

