-- ==== Sys2Proof/Safety.lean ====
section
/-! DEFINITION. What counts as a good state and a right result, in the terms the statements use: the invariants, the
error record of a fault, the legal encodings, the rounding of real numbers, the history of samples a prediction is taken
from, and what a block command gives each channel. -/

namespace Sys2Proof.Machine

/-! ### Faults and encodings -/

/-- The state a faulting transaction leaves when `ERR` was 0: the error record and `dout` = 0, nothing else
(60_exceptions R274). -/
def faulted (code : BitVec 4) (cw : Word) (s : State) : State :=
  { s with err := true, errcode := code, errinfo := cw, dout := 0#32 }

/-- The `op` values of the thirteen opcodes (30_encoding R92). -/
def assignedOps : List Nat := [0x01, 0x02, 0x03, 0x04, 0x05, 0x06, 0x10, 0x11, 0x20, 0x21, 0x30, 0x31, 0x32]

/-- The `op` values of the operand-less commands (30_encoding R93). -/
def bareOps : List Nat := [0x10, 0x11, 0x20, 0x30, 0x31, 0x32]

/-- The grounds (a) to (d) of 30_encoding R95, on `op` = cw[7:0], `rsv` = cw[31:24] and `idx` = cw[23:8]. -/
def IllegalEncoding (cw din : Word) : Prop :=
  cw.toNat % 2 ^ 8 ∉ assignedOps ∨
  cw.toNat / 2 ^ 24 ≠ 0 ∨
  (cw.toNat % 2 ^ 8 ∈ bareOps ∧ cw.toNat / 2 ^ 8 % 2 ^ 16 ≠ 0) ∨
  (cw.toNat % 2 ^ 8 = 0x03 ∧ 2 ^ 8 ≤ din.toNat) ∨
  (cw.toNat % 2 ^ 8 = 0x05 ∧ 2 ^ 16 ≤ din.toNat)

/-- The encoding of an operand-less command (30_encoding R93, R95 (b), (c)): of the command words with its `op`, the one
with every other bit 0 runs it, whatever `din` is, and each other raises `IllegalCommand` (code 1). -/
def RunsAs (op : Nat) (i : Instr) : Prop :=
  ∀ (s : State) (cw din : Word) (q : List HostAction), s.host = .transaction cw din :: q → cw.toNat % 2 ^ 8 = op →
    (cw.toNat = op → step s = exec i (setHost q s)) ∧
    (cw.toNat ≠ op → s.err = false → step s = .next (faulted 1#4 cw (setHost q s)))

/-! ### Numbers -/

/-- The exact value of a finite pattern (00_scope R13): `± significand * 2 ^ exponent`. -/
def f64Value (x : Binary64) : Rat :=
  (if f64Sign x then -1 else 1) * (f64Mant x : Rat) * (2 : Rat) ^ (f64Exp x)

/-- The coefficient table is within the bounds of 40_predict R137 (P5): 0.0 < COEF0 <= 2.0 and -1.0 <= COEF1 < 0.0.
Positive patterns are ordered as their values, and so are the magnitudes of negative ones. -/
def TableInRange (c0 c1 : Binary64) : Prop :=
  (0 < c0.toNat ∧ c0.toNat ≤ (0x4000000000000000#64).toNat) ∧
    ((0x8000000000000000#64).toNat < c1.toNat ∧ c1.toNat ≤ (0xBFF0000000000000#64).toNat)

/-- `r` is `fl(e)`, the real number `e` rounded once (00_scope R13): below the overflow threshold of the format it is finite,
no finite value is nearer, and if another is as near its own last bit is 0; from the threshold on it is the infinity of the
sign of `e`. -/
def CorrectlyRounded (r : Binary64) (e : Rat) : Prop :=
  (|e| < 2 ^ 1024 - 2 ^ 970 →
    f64IsFinite r = true ∧
      ∀ z : Binary64, f64IsFinite z = true →
        |f64Value r - e| ≤ |f64Value z - e| ∧
          (|f64Value r - e| = |f64Value z - e| → f64Value z = f64Value r ∨ r.toNat % 2 = 0)) ∧
  (2 ^ 1024 - 2 ^ 970 ≤ |e| → r = if e < 0 then 0xFFF0000000000000#64 else 0x7FF0000000000000#64)

/-! ### What a block command does, position by position, in the spec's own expressions; `exec` uses
none of these -/

/-- The prediction state of a channel before position `j`, when it starts as `p` and position `k` is sample `x k`:
"oldest replaced by newest (ring of depth 2)" (10_state R36). -/
def history (p : Prediction) (x : Nat → Half) : Nat → Prediction
  | 0 => p
  | j + 1 => ⟨x j, (history p x j).prev1⟩

/-- `PredInt` of a channel with the state `p`: two rounded products, one rounded sum, one rounding to an integer
(40_predict R138, R140). -/
def predictedInt (s : State) (p : Prediction) : Int :=
  roundPred (f64Add (f64Mul s.coef0 (i2f p.prev1.toInt)) (f64Mul s.coef1 (i2f p.prev2.toInt)))

/-- `t` is what DECBLK of `n` samples gives channel `i`, whose state goes from `p` to `q` (41_decode R161, R165 to R170;
20_memory R66, R67, R70, R72): the big-endian unsigned scale at `BLK[i * BLOCK_SIZE]`, the high nibble first, sign-extended
from 4 bits, the sum clamped to 16 bits, the sample at `PCM[j * CHANNELS + i]`, the state shifted by each sample. -/
def DecodesChannel (s t : State) (i n : Nat) (p q : Prediction) : Prop :=
  q = history p (fun k => readPcm t (k * s.channels.toNat + i)) n ∧
  ∀ j, j < n → ∃ (scale byte v : Nat) (sum : Int),
    scale = (readBlk s (i * s.blockSize.toNat)).toNat * 256 + (readBlk s (i * s.blockSize.toNat + 1)).toNat ∧
    byte = (readBlk s (i * s.blockSize.toNat + 2 + j / 2)).toNat ∧
    v = (if j % 2 = 0 then byte / 16 else byte % 16) ∧
    sum = (if v < 8 then (v : Int) else (v : Int) - 16) * (scale : Int) +
      predictedInt s (history p (fun k => readPcm t (k * s.channels.toNat + i)) j) ∧
    (readPcm t (j * s.channels.toNat + i)).toInt = if sum < -32768 then -32768 else if 32767 < sum then 32767 else sum

/-- `Enc4(Quantise(r, scale))`: rounded, clamped to [-8, 7], modulo 16 (42_encode R204, R205). -/
def nibbleCode (mode : RModeQuant) (r : Int) (scale : Nat) : Nat :=
  (max (-8) (min 7 (roundQuant mode r scale)) % 16).toNat

/-- `t` is what ENCBLK of `n` samples gives channel `i`, whose state goes from `p` to `q` (42_encode R193 to R206; 20_memory
R66, R67, R70, R72): residuals `r` of the source samples at `PCM[j * CHANNELS + i]` against the open-loop prediction, 0 from
position `n` on; `mp` the largest residual or 0, `mn` the magnitude of the least or 0; the scale; its high byte at
`BLK[i * BLOCK_SIZE]` and its low byte next; then the nibble bytes, the first code in the high bits. -/
def EncodesChannel (s t : State) (i n : Nat) (p q : Prediction) : Prop :=
  q = history p (fun k => readPcm s (k * s.channels.toNat + i)) n ∧
  ∃ (r : Nat → Int) (mp mn scale : Nat),
    (∀ j, r j =
      if j < n then
        (readPcm s (j * s.channels.toNat + i)).toInt -
          predictedInt s (history p (fun k => readPcm s (k * s.channels.toNat + i)) j)
      else 0) ∧
    (∀ j, j < (s.blockSize.toNat - 2) * 2 → r j ≤ (mp : Int) ∧ -(mn : Int) ≤ r j) ∧
    (mp = 0 ∨ ∃ j, j < (s.blockSize.toNat - 2) * 2 ∧ r j = (mp : Int)) ∧
    (mn = 0 ∨ ∃ j, j < (s.blockSize.toNat - 2) * 2 ∧ r j = -(mn : Int)) ∧
    scale = max 1
      (match s.openParams.scaleDiv with
        | .ceil => max ((mp + 7 - 1) / 7) ((mn + 8 - 1) / 8)
        | .floor => max (mp / 7) (mn / 8)) ∧
    (readBlk t (i * s.blockSize.toNat)).toNat = scale / 256 % 256 ∧
    (readBlk t (i * s.blockSize.toNat + 1)).toNat = scale % 256 ∧
    ∀ k, k < s.blockSize.toNat - 2 →
      (readBlk t (i * s.blockSize.toNat + 2 + k)).toNat =
        nibbleCode s.openParams.rmode (r (2 * k)) scale * 16 + nibbleCode s.openParams.rmode (r (2 * k + 1)) scale

/-- The unscaled residual of position `j` of a frame of `n` real samples (42_encode R193, R194). -/
def residualAt (s : State) (ch : Channel) (n j : Nat) : Int :=
  if j < n then
    (readPcm s (pcmIndex s ch j)).toInt -
      predIntOf s.coef0 s.coef1 (history (prediction s ch) (fun k => readPcm s (pcmIndex s ch k)) j)
  else 0

/-- The scale of a channel of a frame: `ScaleOf` of its `SPB` residuals (42_encode R196, R198). -/
def channelScale (s : State) (ch : Channel) (n : Nat) : Nat :=
  scaleOf s.openParams.scaleDiv ((List.range (spb s)).map (residualAt s ch n))

/-- Two states hold the same bytes in one channel's segment of `BLK` (20_memory R70). -/
def SameSegment (ch : Channel) (s s' : State) : Prop :=
  ∀ a, segmentBase s ch ≤ a → a < segmentBase s ch + s.blockSize.toNat → readBlk s a = readBlk s' a

/-! ### Invariants -/

/-- `COEF_VALID` says that the table "hold[s] the result of a COEF command run on the current `SAMPLE_RATE` and
`HIGHPASS`" (10_state R35). -/
def TableDerived (s : State) : Prop :=
  s.coefValid = true →
    s.sampleRate ≠ 0#32 ∧ (s.coef0, s.coef1) = tableOf s

/-- What every step keeps. -/
structure Invariant (s : State) : Prop where
  /-- `BLK` is in canonical form and inside 0 to 509 (20_memory R60). -/
  blk_wf : Memory.wf blkBytes s.blk = true
  /-- `PCM` is in canonical form and inside 0 to 1011 (20_memory R60). -/
  pcm_wf : Memory.wf pcmWords s.pcm = true
  /-- `BLK_LEN` is at most 510 (10_state R29). -/
  blkLen_le : s.blkLen.toNat ≤ 510
  /-- `NOUT` is at most `SPB_MAX` (10_state R39, 00_scope R6). -/
  nout_le : s.nout.toNat ≤ 506
  /-- Each counted block adds at least 1 to `SAMPLES_DONE` (10_state R38). -/
  blocks_le_samples : s.blocksDone.toNat ≤ s.samplesDone.toNat
  /-- `ERRCODE` and `ERRINFO` are 0 while `ERR` = 0 (10_state R45, R46). -/
  no_record : s.err = false → s.errcode = 0#4 ∧ s.errinfo = 0#32
  /-- A recorded code is one of the eight (60_exceptions R270). -/
  code_assigned : s.err = true → 1 ≤ s.errcode.toNat ∧ s.errcode.toNat ≤ 8

/-- A safe step: the machine goes on to a state of the invariant. -/
def SafeStep (s : State) : Prop := ∃ t, step s = .next t ∧ Invariant t

end Sys2Proof.Machine
end

