-- ==== Sys2Proof/Certificates/Slice0/Obligations.lean ====
section
/-! DEFINITION. The statements for the provers. Each docstring names the rules it formalises. -/

open Sys2Proof Sys2Proof.Machine

/-! ### Reset, the port and the order of a transaction -/

/-- 10_state R49: the values after reset. What the spec calls unspecified is free: a byte of `BLK`, a word of `PCM` and a
read of the coefficient table are draws. That they are these draws, of the counters' value 0, is the model's choice
(logs 4, 5), not the spec's. -/
def Obligations.ResetHoldsSpecifiedValues : Prop :=
  (State.reset.blockSize = 0#8 ∧ State.reset.bitdepth = 0#8 ∧ State.reset.channels = 0#8 ∧
    State.reset.sampleRate = 0#32 ∧ State.reset.highpass = 0#16 ∧ State.reset.totalSamples = 0#32 ∧
    State.reset.copyrightOffset = 0#16 ∧ State.reset.blkLen = 0#16 ∧ State.reset.smpIn = 0#32 ∧
    State.reset.blkidxIn = 0#32 ∧ State.reset.loopBeginSample = 0#32 ∧ State.reset.loopEndSample = 0#32) ∧
  (statusWord State.reset = 0#32 ∧ State.reset.coefValid = false ∧ State.reset.err = false ∧
    State.reset.errcode = 0#4 ∧ State.reset.errinfo = 0#32) ∧
  (State.reset.samplesDone = 0#32 ∧ State.reset.blocksDone = 0#32 ∧ State.reset.nout = 0#16) ∧
  (State.reset.offOut = 0#32 ∧ State.reset.loopEnabled = false ∧ State.reset.loopBeginByte = 0#32 ∧
    State.reset.loopEndByte = 0#32) ∧
  (State.reset.pred0 = ⟨0#16, 0#16⟩ ∧ State.reset.pred1 = ⟨0#16, 0#16⟩) ∧
  (∀ r, isCoefHalf r = true → readReg r State.reset = Config.coefDraw 0) ∧
  (∀ a, readBlk State.reset a = Config.blkDraw 0 a) ∧ ∀ a, readPcm State.reset a = Config.pcmDraw 0 a

/-- 70 R300, R301: the reset input, from any state, gives the reset state. The model's choices, not the spec's: the stored
`COEF0`, `COEF1` and `dout` are 0 (logs 3, 2); the host's later actions, the open parameters and the draws made go on, and
the buffers are drawn afresh (log 12). -/
def Obligations.HardwareResetFromAnyState : Prop :=
  ∀ (s : State) (q : List HostAction), s.host = .reset :: q →
    ∃ t, step s = .next t ∧
      t = { State.reset with openParams := s.openParams, host := q, epoch := s.epoch + 1, draws := s.draws } ∧
      (∀ a, readBlk t a = Config.blkDraw (s.epoch + 1) a) ∧ ∀ a, readPcm t a = Config.pcmDraw (s.epoch + 1) a

/-- 70 R300, last sentence: every command except START issued before configuration faults (here with `BadParam`, code 4). -/
def Obligations.UnconfiguredCommandsFault : Prop :=
  ∀ i, i ∈ [Instr.coef, .decblk, .s2b, .boff, .loopset] ∨ (∃ n, i = .encblk n) →
    exec i State.reset = .next (faulted 4#4 (commandOf i) State.reset)

/-- 44_system R257, 00_scope R8: a step takes the host's next transaction off the port and executes what it decodes to;
with nothing pending the core waits (70 R302). -/
def Obligations.StepRunsDecodedTransaction : Prop :=
  (∀ (s : State) (cw din : Word) (q : List HostAction) (i : Instr),
    s.host = .transaction cw din :: q → decode cw din = .ok i → step s = exec i (setHost q s)) ∧
  (∀ (s : State) (q : List HostAction) (i : Instr), i.wellFormed = true →
    s.host = .transaction (commandOf i) (dataOf i) :: q → step s = exec i (setHost q s)) ∧
  ∀ s : State, s.host = [] → step s = .next s

/-- 30_encoding R95, 60_exceptions R274, R276: an illegal encoding raises `IllegalCommand` (1) with `ERRINFO <- cw`; while
`ERR` = 1 it changes nothing but `dout`, which is 0 (refused, or raised with the first error kept). -/
def Obligations.IllegalEncodingRaises : Prop :=
  ∀ (s : State) (cw din : Word) (q : List HostAction), s.host = .transaction cw din :: q → IllegalEncoding cw din →
    (s.err = false → step s = .next (faulted 1#4 cw (setHost q s))) ∧
    (s.err = true → step s = .next { s with host := q, dout := 0#32 })

/-- 30_encoding R96: decoding is total; a pair without a ground of R95 decodes to one well-formed transaction whose
command word it is, and whose data it is where the transaction has data. -/
def Obligations.LegalEncodingsDecodeExactly : Prop :=
  ∀ cw din : Word,
    (IllegalEncoding cw din ↔ ∃ e, decode cw din = .error e) ∧
    ∀ i, decode cw din = .ok i → i.wellFormed = true ∧ commandOf i = cw ∧ (dataOf i = din ∨ dataOf i = 0#32) ∧
      ((∃ r v, i = .wr r v) ∨ (∃ x d, i = .bw x d) ∨ (∃ x d, i = .pw x d) → dataOf i = din)

/-- 30_encoding R91, R93, R97: decoding undoes encoding, for every well-formed transaction and every operand. -/
def Obligations.DecodeUndoesEncode : Prop :=
  ∀ i : Instr, i.wellFormed = true → decode (encode i).1 (encode i).2 = .ok i

/-- 30_encoding R97, 44_system R250 to R254, 95 section 7: words written out in the spec, as the table numbers them. -/
def Obligations.SpecifiedWordsDecode : Prop :=
  decode 0x00000301#32 0x0000AC44#32 = .ok (.wr 0x0003#16 44100#32) ∧
  decode 0x00001602#32 0#32 = .ok (.rd 0x0016#16) ∧
  decode 0x00000203#32 0x00000012#32 = .ok (.bw 2#16 0x12#32) ∧
  decode 0x00000105#32 0x0000FFFE#32 = .ok (.pw 1#16 0xFFFE#32) ∧
  decode 0x00000A21#32 0#32 = .ok (.encblk 10#16) ∧
  decodeTableWord 32 0x00000010 = some .coef ∧ decodeTableWord 32 0x00000032 = some .loopset ∧
  decodeTableWord 32 0x01000002 = none ∧ decodeTableWord 32 0x00000111 = none

/-! ### Faults -/

/-- 60_exceptions R276, 44_system R257 step 1: while `ERR` = 1 a transaction, legal or not, whose `op` is not RD, BR or
PR changes nothing but `dout`, which is 0. -/
def Obligations.RefusedWhileFaulted : Prop :=
  ∀ (s : State) (cw din : Word) (q : List HostAction), s.host = .transaction cw din :: q → s.err = true →
    cw.toNat % 2 ^ 8 ≠ 0x02 → cw.toNat % 2 ^ 8 ≠ 0x04 → cw.toNat % 2 ^ 8 ≠ 0x06 →
    step s = .next { s with host := q, dout := 0#32 }

/-- 60_exceptions R274: `raise E(cw)` with `ERR` = 0 writes the error record and `dout` = 0 and nothing else; with `ERR` =
1 only `dout` = 0. And faults are precise: a transaction that sets `ERR` has changed nothing but that, with the code of a
cause and its own command word; one executed with `ERR` = 1 changes nothing but data-out (and the model's counter of
unspecified reads, log 4). -/
def Obligations.FaultsArePrecise : Prop :=
  (∀ (c : Cause) (cw : Word) (s : State),
    (s.err = false → raise c cw s = .next (faulted (causeCode c) cw s)) ∧
    (s.err = true → raise c cw s = .next { s with dout := 0#32 })) ∧
  (∀ (i : Instr) (s t : State), s.err = false → exec i s = .next t → t.err = true →
    ∃ c : Cause, t = faulted (causeCode c) (commandOf i) s) ∧
  ∀ (i : Instr) (s t : State), s.err = true → exec i s = .next t → t = { s with dout := t.dout, draws := t.draws }

/-- 60_exceptions R277, 70 R301: the error record is kept by every step but a hardware reset, which clears `ERR`. -/
def Obligations.ErrorStaysUntilReset : Prop :=
  ∀ s t : State, s.err = true → step s = .next t →
    (t.err = true ∧ t.errcode = s.errcode ∧ t.errinfo = s.errinfo) ∨
      (t.err = false ∧ ∃ q, s.host = .reset :: q)

/-- 44_system R258, 00_scope R8: every step goes on; no state and no transaction stops the machine. -/
def Obligations.StepAlwaysGoesOn : Prop := ∀ s : State, ∃ t, step s = .next t

/-! ### Invariants and whole-machine rules -/

/-- Every step keeps the invariant: buffers in canonical form inside their spaces (20_memory R60, R74), `BLK_LEN` at most
510 (R29), `NOUT` at most 506, `BLOCKS_DONE` at most `SAMPLES_DONE` (R38), a legal error record (R45, R46, R270). -/
def Obligations.StepKeepsInvariant : Prop := ∀ s t : State, Invariant s → step s = .next t → Invariant t

/-- The invariant holds at reset, and so does 10_state R35's. -/
def Obligations.ResetMeetsInvariants : Prop := Invariant State.reset ∧ TableDerived State.reset

/-- 10_state R35, 92 D23: "the table in use was derived from the parameters in the registers" is kept by every step. -/
def Obligations.StepKeepsTableDerived : Prop :=
  ∀ s t : State, TableDerived s → step s = .next t → TableDerived t

/-- 10_state R35, R45: `COEF_VALID` is set by COEF and cleared by WR to `SAMPLE_RATE` or `HIGHPASS`, and no other
transaction changes it. -/
def Obligations.CoefValidChangesOnlyByCoefAndWr : Prop :=
  ∀ (i : Instr) (s t : State), exec i s = .next t → t.coefValid ≠ s.coefValid →
    (i = .coef ∧ t.coefValid = true) ∨ (∃ v, i = .wr 0x03#16 v ∨ i = .wr 0x04#16 v) ∧ t.coefValid = false

/-- 10_state R21, column "written by": which transactions can change each register and buffer. -/
def Obligations.StateWrittenOnlyAsListed : Prop :=
  ∀ (i : Instr) (s t : State), exec i s = .next t →
    ((∀ r v, i ≠ .wr r v) →
      t.blockSize = s.blockSize ∧ t.bitdepth = s.bitdepth ∧ t.channels = s.channels ∧ t.sampleRate = s.sampleRate ∧
      t.highpass = s.highpass ∧ t.totalSamples = s.totalSamples ∧ t.copyrightOffset = s.copyrightOffset ∧
      t.smpIn = s.smpIn ∧ t.blkidxIn = s.blkidxIn ∧ t.loopBeginSample = s.loopBeginSample ∧
      t.loopEndSample = s.loopEndSample ∧ ((∀ n, i ≠ .encblk n) → t.blkLen = s.blkLen)) ∧
    (i ≠ .start → i ≠ .decblk → (∀ n, i ≠ .encblk n) →
      t.samplesDone = s.samplesDone ∧ t.blocksDone = s.blocksDone ∧ t.pred0 = s.pred0 ∧ t.pred1 = s.pred1) ∧
    (i ≠ .start → i ≠ .decblk → t.nout = s.nout) ∧
    (i ≠ .s2b → i ≠ .boff → t.offOut = s.offOut) ∧
    (i ≠ .loopset →
      t.loopEnabled = s.loopEnabled ∧ t.loopBeginByte = s.loopBeginByte ∧ t.loopEndByte = s.loopEndByte) ∧
    (i ≠ .coef → t.coef0 = s.coef0 ∧ t.coef1 = s.coef1) ∧
    ((∀ x d, i ≠ .bw x d) → (∀ n, i ≠ .encblk n) → ∀ a, readBlk t a = readBlk s a) ∧
    ((∀ x d, i ≠ .pw x d) → i ≠ .decblk → ∀ a, readPcm t a = readPcm s a)

/-- 10_state R37, 92 D31: but for START, no transaction takes `SAMPLES_DONE` down; it never wraps. -/
def Obligations.SamplesDoneNeverWraps : Prop :=
  ∀ (i : Instr) (s t : State), exec i s = .next t → i ≠ .start → s.samplesDone.toNat ≤ t.samplesDone.toNat

/-! ### Binary64 -/

/-- 00_scope R13: a sum, a difference and a product of finite values is the exact one rounded once to nearest, ties to even,
finite whenever the exact one is below the overflow threshold; an integer below 2^53 in magnitude is converted exactly. -/
def Obligations.SumAndProductCorrectlyRounded : Prop :=
  (∀ x y : Binary64, f64IsFinite x = true → f64IsFinite y = true →
    CorrectlyRounded (f64Add x y) (f64Value x + f64Value y) ∧
    CorrectlyRounded (f64Sub x y) (f64Value x - f64Value y) ∧
    CorrectlyRounded (f64Mul x y) (f64Value x * f64Value y)) ∧
  ∀ k : Int, |k| < 2 ^ 53 → f64IsFinite (i2f k) = true ∧ f64Value (i2f k) = (k : Rat)

/-- 00_scope R13, 40_predict R136: a quotient of finite values, the divisor not zero, is the exact one rounded once to
nearest, ties to even, finite whenever the exact one is below the overflow threshold; the square root of a finite value of
positive sign is finite and no finite value is nearer the real one; `sqrt64(-0.0) = -0.0`. -/
def Obligations.QuotientAndRootCorrectlyRounded : Prop :=
  (∀ x y : Binary64, f64IsFinite x = true → f64IsFinite y = true → f64IsZero y = false →
    CorrectlyRounded (f64Div x y) (f64Value x / f64Value y)) ∧
  (∀ x z : Binary64, f64IsFinite x = true → f64Sign x = false → f64IsFinite z = true →
    f64IsFinite (f64Sqrt x) = true ∧
      |((f64Value (f64Sqrt x) : Rat) : Real) - Real.sqrt ((f64Value x : Rat) : Real)| ≤
        |((f64Value z : Rat) : Real) - Real.sqrt ((f64Value x : Rat) : Real)|) ∧
  f64Sqrt 0x8000000000000000#64 = 0x8000000000000000#64

/-- 40_predict R139, 00_scope R14: `RoundPred` of a number is the nearest integer, a tie going away from zero. -/
def Obligations.RoundPredIsNearestTiesAway : Prop :=
  ∀ p : Binary64, f64IsFinite p = true →
    |f64Value p - (roundPred p : Rat)| ≤ 1 / 2 ∧
    (|f64Value p - (roundPred p : Rat)| = 1 / 2 → |f64Value p| < |(roundPred p : Rat)|)

/-! ### The prediction filter -/

/-- 40_predict R135, P1 and P2 of the implementation's cosine, which the model imposes on a free function (log 6). -/
def Obligations.CosineHasItsNamedProperties : Prop :=
  cos64 0#64 = 0x3FF0000000000000#64 ∧
    ∀ x, f64IsFinite (cos64 x) = true ∧ -1 ≤ f64Value (cos64 x) ∧ f64Value (cos64 x) ≤ 1

/-- 40_predict R131, R133, R134: what COEF does, the derivation written out with the spec's constants
(log 9), the state's `PI64` (log 7) and the model's free cosine (log 6); `BadParam` (code 4) when `SAMPLE_RATE` = 0; refused while `ERR` = 1. -/
def Obligations.CoefComputesTheTable : Prop :=
  (∀ (s : State) (x cz a d c : Binary64), s.err = false → s.sampleRate ≠ 0#32 →
    x = f64Div (f64Mul (f64Mul 0x4000000000000000#64 s.openParams.pi64) (i2f s.highpass.toNat))
      (i2f s.sampleRate.toNat) →
    cz = cos64 x →
    a = f64Sub 0x3FF6A09E667F3BCD#64 cz →
    d = f64Mul (f64Add a 0x3FDA827999FCEF34#64) (f64Sub a 0x3FDA827999FCEF34#64) →
    c = f64Div (f64Sub a (f64Sqrt (if f64BelowZero d = true then 0#64 else d))) 0x3FDA827999FCEF34#64 →
    exec .coef s = .next
      { s with
        coef0 := f64Mul 0x4000000000000000#64 c
        coef1 := f64Neg (f64Mul c c)
        coefValid := true
        dout := 0#32 }) ∧
  (∀ s : State, s.err = false → s.sampleRate = 0#32 → exec .coef s = .next (faulted 4#4 0x00000010#32 s)) ∧
  ∀ s : State, s.err = true → exec .coef s = .next { s with dout := 0#32 }

/-- 40_predict R143: with `HIGHPASS` = 0 the table is exactly (2.0, -1.0) for every non-zero `SAMPLE_RATE`, and then
`Predict = 2 * prev1 - prev2` exactly and `PredInt` is that integer. `PI64` is an OPEN parameter: any of positive sign
whose double is finite, as the argument of the cosine "is finite and non-negative" (R135). -/
def Obligations.ZeroCutoffIsExact : Prop :=
  (∀ s : State, s.err = false → s.sampleRate ≠ 0#32 → s.highpass = 0#16 → f64Sign s.openParams.pi64 = false →
    f64IsFinite (f64Mul 0x4000000000000000#64 s.openParams.pi64) = true →
    exec .coef s = .next
      { s with
        coef0 := 0x4000000000000000#64, coef1 := 0xBFF0000000000000#64, coefValid := true, dout := 0#32 }) ∧
  ∀ p : Prediction,
    predict 0x4000000000000000#64 0xBFF0000000000000#64 p = i2f (2 * p.prev1.toInt - p.prev2.toInt) ∧
    predIntOf 0x4000000000000000#64 0xBFF0000000000000#64 p = 2 * p.prev1.toInt - p.prev2.toInt

/-- 40_predict R136: under P2 the guard `d < 0.0` never fires. -/
def Obligations.GuardNeverFires : Prop :=
  ∀ cz : Binary64, f64AbsLeOne cz = true →
    f64BelowZero (f64Mul (f64Add (f64Sub sqrt2_64 cz) (f64Sub sqrt2_64 one64))
      (f64Sub (f64Sub sqrt2_64 cz) (f64Sub sqrt2_64 one64))) = false

/-- 40_predict R137: the bounds P5 hold of every table COEF can compute, whatever `PI64` is. -/
def Obligations.DerivedTableIsInRange : Prop :=
  ∀ (pi64 : Binary64) (rate : Word) (hp : Half), rate ≠ 0#32 →
    TableInRange (coefDerive pi64 rate.toNat hp.toNat).1 (coefDerive pi64 rate.toNat hp.toNat).2

/-- 40_predict R141: with a table in range, `PredInt` lies in [-98304, 98304], and `Predict` is a number. -/
def Obligations.PredictionIsBounded : Prop :=
  ∀ (c0 c1 : Binary64) (p : Prediction), TableInRange c0 c1 →
    f64IsFinite (predict c0 c1 p) = true ∧ -98304 ≤ predIntOf c0 c1 p ∧ predIntOf c0 c1 p ≤ 98304

/-! ### Register access -/

/-- 44_system R250, 10_state R21, R35: a WR of a value that fits writes exactly the named parameter register;
`SAMPLE_RATE` and `HIGHPASS` also clear `COEF_VALID`. -/
def Obligations.WrWritesTheNamedRegister : Prop :=
  ∀ (s : State) (v : Word), s.err = false →
    (v.toNat < 2 ^ 8 → exec (.wr 0x00#16 v) s = .next { s with blockSize := v.setWidth 8, dout := 0#32 }) ∧
    (v.toNat < 2 ^ 8 → exec (.wr 0x01#16 v) s = .next { s with bitdepth := v.setWidth 8, dout := 0#32 }) ∧
    (v.toNat < 2 ^ 8 → exec (.wr 0x02#16 v) s = .next { s with channels := v.setWidth 8, dout := 0#32 }) ∧
    exec (.wr 0x03#16 v) s = .next { s with sampleRate := v, coefValid := false, dout := 0#32 } ∧
    (v.toNat < 2 ^ 16 → exec (.wr 0x04#16 v) s =
      .next { s with highpass := v.setWidth 16, coefValid := false, dout := 0#32 }) ∧
    exec (.wr 0x05#16 v) s = .next { s with totalSamples := v, dout := 0#32 } ∧
    (v.toNat < 2 ^ 16 → exec (.wr 0x06#16 v) s = .next { s with copyrightOffset := v.setWidth 16, dout := 0#32 }) ∧
    (v.toNat ≤ 510 → exec (.wr 0x07#16 v) s = .next { s with blkLen := v.setWidth 16, dout := 0#32 }) ∧
    exec (.wr 0x08#16 v) s = .next { s with smpIn := v, dout := 0#32 } ∧
    exec (.wr 0x09#16 v) s = .next { s with blkidxIn := v, dout := 0#32 } ∧
    exec (.wr 0x0A#16 v) s = .next { s with loopBeginSample := v, dout := 0#32 } ∧
    exec (.wr 0x0B#16 v) s = .next { s with loopEndSample := v, dout := 0#32 }

/-- 44_system R250, 60_exceptions R270: a WR to any number but 0x00 to 0x0B raises `BadRegister` (2); a value too wide for
its register, or a `BLK_LEN` above 510, raises `BadParam` (4) and writes nothing. -/
def Obligations.WrFaults : Prop :=
  ∀ (s : State) (n : Half) (v : Word), s.err = false →
    (0x0B < n.toNat → exec (.wr n v) s = .next (faulted 2#4 (commandOf (.wr n v)) s)) ∧
    (n.toNat ≤ 2 → 2 ^ 8 ≤ v.toNat → exec (.wr n v) s = .next (faulted 4#4 (commandOf (.wr n v)) s)) ∧
    (n.toNat = 4 ∨ n.toNat = 6 → 2 ^ 16 ≤ v.toNat →
      exec (.wr n v) s = .next (faulted 4#4 (commandOf (.wr n v)) s)) ∧
    (n.toNat = 7 → 510 < v.toNat → exec (.wr n v) s = .next (faulted 4#4 (commandOf (.wr n v)) s))

/-- 44_system R251, 10_state R21, 30_encoding R94: what RD of each number returns, in every state, and that it changes
nothing else. -/
def Obligations.RdReturnsTheNamedRegister : Prop :=
  ∀ s : State,
    exec (.rd 0x00#16) s = .next { s with dout := s.blockSize.setWidth 32 } ∧
    exec (.rd 0x01#16) s = .next { s with dout := s.bitdepth.setWidth 32 } ∧
    exec (.rd 0x02#16) s = .next { s with dout := s.channels.setWidth 32 } ∧
    exec (.rd 0x03#16) s = .next { s with dout := s.sampleRate } ∧
    exec (.rd 0x04#16) s = .next { s with dout := s.highpass.setWidth 32 } ∧
    exec (.rd 0x05#16) s = .next { s with dout := s.totalSamples } ∧
    exec (.rd 0x06#16) s = .next { s with dout := s.copyrightOffset.setWidth 32 } ∧
    exec (.rd 0x07#16) s = .next { s with dout := s.blkLen.setWidth 32 } ∧
    exec (.rd 0x08#16) s = .next { s with dout := s.smpIn } ∧
    exec (.rd 0x09#16) s = .next { s with dout := s.blkidxIn } ∧
    exec (.rd 0x0A#16) s = .next { s with dout := s.loopBeginSample } ∧
    exec (.rd 0x0B#16) s = .next { s with dout := s.loopEndSample } ∧
    exec (.rd 0x10#16) s = .next { s with
      dout := BitVec.ofNat 32 (s.errcode.toNat * 16 + s.err.toNat * 2 + s.coefValid.toNat) } ∧
    exec (.rd 0x11#16) s = .next { s with dout := s.errinfo } ∧
    exec (.rd 0x12#16) s = .next { s with dout := s.samplesDone } ∧
    exec (.rd 0x13#16) s = .next { s with dout := s.blocksDone } ∧
    exec (.rd 0x14#16) s = .next { s with dout := s.nout.setWidth 32 } ∧
    exec (.rd 0x15#16) s = .next { s with
      dout := if 3 ≤ s.blockSize.toNat ∧ s.bitdepth = 4#8 then BitVec.ofNat 32 ((s.blockSize.toNat - 2) * 2)
        else 0#32 } ∧
    exec (.rd 0x16#16) s = .next { s with dout := s.offOut } ∧
    exec (.rd 0x17#16) s = .next { s with dout := if s.loopEnabled = true then 1#32 else 0#32 } ∧
    exec (.rd 0x18#16) s = .next { s with dout := s.loopBeginByte } ∧
    exec (.rd 0x19#16) s = .next { s with dout := s.loopEndByte } ∧
    (s.coefValid = true →
      exec (.rd 0x20#16) s = .next { s with dout := BitVec.ofNat 32 (s.coef0.toNat / 2 ^ 32) } ∧
      exec (.rd 0x21#16) s = .next { s with dout := BitVec.ofNat 32 (s.coef0.toNat % 2 ^ 32) } ∧
      exec (.rd 0x22#16) s = .next { s with dout := BitVec.ofNat 32 (s.coef1.toNat / 2 ^ 32) } ∧
      exec (.rd 0x23#16) s = .next { s with dout := BitVec.ofNat 32 (s.coef1.toNat % 2 ^ 32) }) ∧
    exec (.rd 0x28#16) s = .next { s with dout := BitVec.ofInt 32 s.pred0.prev1.toInt } ∧
    exec (.rd 0x29#16) s = .next { s with dout := BitVec.ofInt 32 s.pred0.prev2.toInt } ∧
    exec (.rd 0x2A#16) s = .next { s with dout := BitVec.ofInt 32 s.pred1.prev1.toInt } ∧
    exec (.rd 0x2B#16) s = .next { s with dout := BitVec.ofInt 32 s.pred1.prev2.toInt }

/-- 10_state R34, 93 U6: while `COEF_VALID` = 0 a RD of a `COEFn_*` register returns a free value, a new one each time,
and changes no register. The draw and its counter are the model's (log 4). -/
def Obligations.RdOfInvalidTableIsFree : Prop :=
  ∀ (s : State) (n : Half), s.coefValid = false → 0x20 ≤ n.toNat → n.toNat ≤ 0x23 →
    exec (.rd n) s = .next { s with dout := Config.coefDraw s.draws, draws := s.draws + 1 }

/-- 44_system R251, 60_exceptions R274: RD of an unassigned number raises `BadRegister` (2); with `ERR` = 1 the first
error is kept and `dout` = 0. -/
def Obligations.RdOfUnassignedNumberFaults : Prop :=
  ∀ (s : State) (n : Half),
    (0x0B < n.toNat ∧ n.toNat < 0x10) ∨ (0x19 < n.toNat ∧ n.toNat < 0x20) ∨ (0x23 < n.toNat ∧ n.toNat < 0x28) ∨
      0x2B < n.toNat →
    (s.err = false → exec (.rd n) s = .next (faulted 2#4 (commandOf (.rd n)) s)) ∧
    (s.err = true → exec (.rd n) s = .next { s with dout := 0#32 })

/-! ### Buffer access -/

/-- 44_system R252, 20_memory R60: BW writes the one byte of `BLK` it names and changes nothing else. -/
def Obligations.BwWritesOneByte : Prop :=
  ∀ (s : State) (idx : Half) (d : Word), s.err = false → idx.toNat ≤ 509 → d.toNat < 2 ^ 8 →
    ∃ t, exec (.bw idx d) s = .next t ∧ t = { s with blk := t.blk, dout := 0#32 } ∧
      (readBlk t idx.toNat).toNat = d.toNat ∧ ∀ a, a ≠ idx.toNat → readBlk t a = readBlk s a

/-- 44_system R253: BR returns the byte zero-extended and changes nothing else, whatever `ERR` is. -/
def Obligations.BrReturnsTheByte : Prop :=
  ∀ (s : State) (idx : Half), idx.toNat ≤ 509 →
    exec (.br idx) s = .next { s with dout := BitVec.ofNat 32 (readBlk s idx.toNat).toNat }

/-- 44_system R254, 20_memory R60: PW writes the one word of `PCM` it names and changes nothing else. -/
def Obligations.PwWritesOneWord : Prop :=
  ∀ (s : State) (idx : Half) (d : Word), s.err = false → idx.toNat ≤ 1011 → d.toNat < 2 ^ 16 →
    ∃ t, exec (.pw idx d) s = .next t ∧ t = { s with pcm := t.pcm, dout := 0#32 } ∧
      (readPcm t idx.toNat).toNat = d.toNat ∧ ∀ a, a ≠ idx.toNat → readPcm t a = readPcm s a

/-- 44_system R255: PR returns the sample sign-extended (`v mod 2^32`) and changes nothing else, whatever `ERR` is. -/
def Obligations.PrReturnsTheSample : Prop :=
  ∀ (s : State) (idx : Half), idx.toNat ≤ 1011 →
    exec (.pr idx) s = .next { s with dout := BitVec.ofInt 32 (readPcm s idx.toNat).toInt }

/-- 20_memory R74, 60_exceptions R270, R274, 44_system R257: an index outside the space raises `BadIndex` (3) and never
reaches the space. BR and PR are not refused while `ERR` = 1: there the first error is kept and `dout` = 0. -/
def Obligations.IndexOutsideASpaceFaults : Prop :=
  ∀ (s : State) (idx : Half) (d : Word),
    (s.err = false → 509 < idx.toNat →
      (d.toNat < 2 ^ 8 → exec (.bw idx d) s = .next (faulted 3#4 (commandOf (.bw idx d)) s)) ∧
      exec (.br idx) s = .next (faulted 3#4 (commandOf (.br idx)) s)) ∧
    (s.err = false → 1011 < idx.toNat →
      (d.toNat < 2 ^ 16 → exec (.pw idx d) s = .next (faulted 3#4 (commandOf (.pw idx d)) s)) ∧
      exec (.pr idx) s = .next (faulted 3#4 (commandOf (.pr idx)) s)) ∧
    (s.err = true → 509 < idx.toNat → exec (.br idx) s = .next { s with dout := 0#32 }) ∧
    (s.err = true → 1011 < idx.toNat → exec (.pr idx) s = .next { s with dout := 0#32 })

/-- 44_system R256: START zeroes the four prediction registers and the three counters, whatever `CHANNELS` is, and leaves
everything else; while `ERR` = 1 it is refused; its command word is 0x00000011 and no other with that `op`. -/
def Obligations.StartZeroesTheStream : Prop :=
  RunsAs 0x11 .start ∧
  (∀ s : State, s.err = false → exec .start s = .next
    { s with
      pred0 := ⟨0#16, 0#16⟩, pred1 := ⟨0#16, 0#16⟩, samplesDone := 0#32, blocksDone := 0#32, nout := 0#16
      dout := 0#32 }) ∧
  ∀ s : State, s.err = true → exec .start s = .next { s with dout := 0#32 }

/-! ### The block decoder -/

/-- 41_decode R161, R162, 60_exceptions R273: the faults of DECBLK in the order tested, BadParam (4), NotConfigured (5),
Truncated (6); while `ERR` = 1 it is refused. -/
def Obligations.DecblkFaultsInOrder : Prop :=
  ∀ s : State,
    (s.err = true → exec .decblk s = .next { s with dout := 0#32 }) ∧
    (s.err = false → ¬ParamsLegal s → exec .decblk s = .next (faulted 4#4 0x00000020#32 s)) ∧
    (s.err = false → ParamsLegal s → s.coefValid = false → exec .decblk s = .next (faulted 5#4 0x00000020#32 s)) ∧
    (s.err = false → ParamsLegal s → s.coefValid = true → s.samplesDone.toNat < s.totalSamples.toNat →
      s.blkLen.toNat < s.blockSize.toNat * s.channels.toNat → exec .decblk s = .next (faulted 6#4 0x00000020#32 s))

/-- 41_decode R164: at or past the end of the stream DECBLK sets `NOUT` to 0 and changes nothing else, whatever `BLK_LEN`
and `BLK` are; the parameter check (BadParam, 4) and the `COEF_VALID` check (NotConfigured, 5) are still made first. -/
def Obligations.DecblkPastTheEnd : Prop :=
  ∀ s : State, s.err = false → s.totalSamples.toNat ≤ s.samplesDone.toNat →
    (ParamsLegal s → s.coefValid = true → exec .decblk s = .next { s with nout := 0#16, dout := 0#32 }) ∧
    (¬ParamsLegal s → exec .decblk s = .next (faulted 4#4 0x00000020#32 s)) ∧
    (ParamsLegal s → s.coefValid = false → exec .decblk s = .next (faulted 5#4 0x00000020#32 s))

/-- 41_decode R161, R163, R165 to R170, R173, 20_memory R66, R70, R72: with n = min(SPB, samples owed) > 0 DECBLK completes;
each active channel is decoded as `DecodesChannel` writes out; `NOUT`, `SAMPLES_DONE`, `BLOCKS_DONE` advance; no other word
of `PCM`, no byte of `BLK`, no other register changes, with `CHANNELS` = 1 none of channel 1. `BLOCKS_DONE` of 2^32 - 1,
which no run reaches, would keep the low bits (log 13, the model's). -/
def Obligations.DecblkDecodesTheBlock : Prop :=
  ∀ (s : State) (n : Nat), s.err = false → ParamsLegal s → s.coefValid = true →
    n = min ((s.blockSize.toNat - 2) * 2) (s.totalSamples.toNat - s.samplesDone.toNat) → 0 < n →
    s.blockSize.toNat * s.channels.toNat ≤ s.blkLen.toNat →
    ∃ t, exec .decblk s = .next t ∧
      t = { s with
        pcm := t.pcm, pred0 := t.pred0, pred1 := t.pred1, nout := BitVec.ofNat 16 n
        samplesDone := BitVec.ofNat 32 (s.samplesDone.toNat + n), blocksDone := s.blocksDone + 1#32, dout := 0#32 } ∧
      t.samplesDone.toNat = s.samplesDone.toNat + n ∧ t.nout.toNat = n ∧
      DecodesChannel s t 0 n s.pred0 t.pred0 ∧
      (s.channels = 2#8 → DecodesChannel s t 1 n s.pred1 t.pred1) ∧
      (s.channels = 1#8 → t.pred1 = s.pred1) ∧
      ∀ a, n * s.channels.toNat ≤ a → readPcm t a = readPcm s a

/-- 41_decode R170, R173: the decode of a channel depends on that channel's segment and state only. -/
def Obligations.DecodedChannelsAreIndependent : Prop :=
  ∀ (s s' t t' : State) (ch : Channel), ParamsLegal s → s.err = false → s'.err = false →
    s.coefValid = true → s'.coefValid = true → s.blockSize = s'.blockSize → s.bitdepth = s'.bitdepth →
    s.channels = s'.channels → s.coef0 = s'.coef0 → s.coef1 = s'.coef1 → s.totalSamples = s'.totalSamples →
    s.samplesDone = s'.samplesDone → s.blkLen = s'.blkLen → channelIndex ch < s.channels.toNat →
    prediction s ch = prediction s' ch → SameSegment ch s s' →
    exec .decblk s = .next t → exec .decblk s' = .next t' → t.err = false →
    t'.err = false ∧ prediction t ch = prediction t' ch ∧
      ∀ j, j < t.nout.toNat → readPcm t (pcmIndex s ch j) = readPcm t' (pcmIndex s ch j)

/-! ### The block encoder -/

/-- 42_encode R191, R192, 60_exceptions R273: the faults of ENCBLK in the order tested, BadParam (4), NotConfigured (5),
BadLength (7), Range (8); while `ERR` = 1 it is refused. -/
def Obligations.EncblkFaultsInOrder : Prop :=
  ∀ (s : State) (n : Half),
    (s.err = true → exec (.encblk n) s = .next { s with dout := 0#32 }) ∧
    (s.err = false → ¬ParamsLegal s → exec (.encblk n) s = .next (faulted 4#4 (commandOf (.encblk n)) s)) ∧
    (s.err = false → ParamsLegal s → s.coefValid = false →
      exec (.encblk n) s = .next (faulted 5#4 (commandOf (.encblk n)) s)) ∧
    (s.err = false → ParamsLegal s → s.coefValid = true → n = 0#16 ∨ (s.blockSize.toNat - 2) * 2 < n.toNat →
      exec (.encblk n) s = .next (faulted 7#4 (commandOf (.encblk n)) s)) ∧
    (s.err = false → ParamsLegal s → s.coefValid = true → n ≠ 0#16 → n.toNat ≤ (s.blockSize.toNat - 2) * 2 →
      2 ^ 32 ≤ s.samplesDone.toNat + n.toNat → exec (.encblk n) s = .next (faulted 8#4 (commandOf (.encblk n)) s))

/-- 42_encode R191, R193 to R206, R211, 20_memory R66, R70, R72: with 1 <= n <= SPB ENCBLK completes; each active channel is
encoded as `EncodesChannel` writes out; `BLK_LEN`, `SAMPLES_DONE`, `BLOCKS_DONE` advance; no byte of `BLK` above the block,
no word of `PCM`, no other register changes, with `CHANNELS` = 1 none of channel 1. A scale above the field or a
`BLOCKS_DONE` of 2^32 - 1, which no run reaches, would keep the low bits (log 13, the model's). -/
def Obligations.EncblkEncodesTheFrame : Prop :=
  ∀ (s : State) (n : Half), s.err = false → ParamsLegal s → s.coefValid = true → 1 ≤ n.toNat →
    n.toNat ≤ (s.blockSize.toNat - 2) * 2 → s.samplesDone.toNat + n.toNat ≤ 2 ^ 32 - 1 →
    ∃ t, exec (.encblk n) s = .next t ∧
      t = { s with
        blk := t.blk, pred0 := t.pred0, pred1 := t.pred1
        blkLen := BitVec.ofNat 16 (s.blockSize.toNat * s.channels.toNat)
        samplesDone := BitVec.ofNat 32 (s.samplesDone.toNat + n.toNat), blocksDone := s.blocksDone + 1#32
        dout := 0#32 } ∧
      t.samplesDone.toNat = s.samplesDone.toNat + n.toNat ∧
      t.blkLen.toNat = s.blockSize.toNat * s.channels.toNat ∧
      EncodesChannel s t 0 n.toNat s.pred0 t.pred0 ∧
      (s.channels = 2#8 → EncodesChannel s t 1 n.toNat s.pred1 t.pred1) ∧
      (s.channels = 1#8 → t.pred1 = s.pred1) ∧
      ∀ a, s.blockSize.toNat * s.channels.toNat ≤ a → readBlk t a = readBlk s a

/-- 42_encode R197, R198, R199, R200 with the ceiling: the scale is the least integer at least 1 that covers every
residual, `7 * scale >= r` and `8 * scale >= -r`. -/
def Obligations.CeilingScaleIsTheLeastCover : Prop :=
  ∀ res : List Int,
    (1 ≤ scaleOf .ceil res ∧ ∀ r ∈ res, r ≤ 7 * (scaleOf .ceil res : Int) ∧ -r ≤ 8 * (scaleOf .ceil res : Int)) ∧
    ∀ sc : Nat, 1 ≤ sc → (∀ r ∈ res, r ≤ 7 * (sc : Int) ∧ -r ≤ 8 * (sc : Int)) → scaleOf .ceil res ≤ sc

/-- 42_encode R198 to R201, 30_encoding R100: the scale is never 0, whichever `SCALE_DIV`, and at most 18725 for residuals
in [-131072, 131071]. -/
def Obligations.ScaleIsBounded : Prop :=
  ∀ (d : ScaleDiv) (res : List Int),
    1 ≤ scaleOf d res ∧ ((∀ r ∈ res, -131072 ≤ r ∧ r ≤ 131071) → scaleOf d res ≤ 18725)

/-- 42_encode R203: `half_away` is the nearest integer with ties away from zero, `half_up` the nearest with ties toward
plus infinity, `trunc` drops the fraction, and the three agree whenever r is a multiple of the scale. -/
def Obligations.QuantiserRoundsAsNamed : Prop :=
  ∀ (r : Int) (scale : Nat), 0 < scale →
    (2 * |r - roundQuant .halfAway r scale * scale| ≤ scale ∧
      (2 * |r - roundQuant .halfAway r scale * scale| = scale → |r| < |roundQuant .halfAway r scale * scale|)) ∧
    (2 * (roundQuant .halfUp r scale * scale) ≤ 2 * r + scale ∧
      2 * r < 2 * (roundQuant .halfUp r scale * scale) + scale) ∧
    (|roundQuant .trunc r scale * scale| ≤ |r| ∧ |r - roundQuant .trunc r scale * scale| < scale ∧
      0 ≤ r * roundQuant .trunc r scale) ∧
    ∀ (mode : RModeQuant) (q : Int), r = q * scale → roundQuant mode r scale = q

/-- 42_encode R207, 90 C3: with the default parameters, `|residual - nibble * scale| <= scale / 2` for every residual of a
block. -/
def Obligations.QuantisationErrorIsHalfScale : Prop :=
  ∀ (res : List Int) (r : Int), r ∈ res →
    2 * |r - quantise .halfAway r (scaleOf .ceil res) * (scaleOf .ceil res : Int)| ≤ scaleOf .ceil res

/-- 42_encode R205, 30_encoding R101: `Sext4` and `Enc4` are inverse, and the sixteen values are those of the table. -/
def Obligations.NibbleCodeTable : Prop :=
  (∀ v : BitVec 4, enc4 (sext4 v) = v) ∧ (∀ q : Int, -8 ≤ q → q ≤ 7 → sext4 (enc4 q) = q) ∧
  [sext4 0x0#4, sext4 0x1#4, sext4 0x2#4, sext4 0x3#4, sext4 0x4#4, sext4 0x5#4, sext4 0x6#4, sext4 0x7#4,
    sext4 0x8#4, sext4 0x9#4, sext4 0xA#4, sext4 0xB#4, sext4 0xC#4, sext4 0xD#4, sext4 0xE#4, sext4 0xF#4] =
  [0, 1, 2, 3, 4, 5, 6, 7, -8, -7, -6, -5, -4, -3, -2, -1]

/-- 42_encode R211: the encode of a channel depends on that channel's words of `PCM` and state only. -/
def Obligations.EncodedChannelsAreIndependent : Prop :=
  ∀ (s s' t t' : State) (ch : Channel) (n : Half), ParamsLegal s → s.err = false → s'.err = false →
    s.coefValid = true → s'.coefValid = true → s.blockSize = s'.blockSize → s.bitdepth = s'.bitdepth →
    s.channels = s'.channels → s.coef0 = s'.coef0 → s.coef1 = s'.coef1 → s.samplesDone = s'.samplesDone →
    s.openParams = s'.openParams → channelIndex ch < s.channels.toNat → prediction s ch = prediction s' ch →
    (∀ j, j < n.toNat → readPcm s (pcmIndex s ch j) = readPcm s' (pcmIndex s ch j)) →
    exec (.encblk n) s = .next t → exec (.encblk n) s' = .next t' → t.err = false →
    t'.err = false ∧ prediction t ch = prediction t' ch ∧ SameSegment ch t t'

/-- 42_encode R207, last sentence, 44_system R259: with `SCALE_DIV` = ceil, when every residual of every active channel is
a multiple of its scale (which fits the scale field), decoding the block just encoded, from the prediction state and the
count the encode started from, gives back every source sample. -/
def Obligations.ExactRoundTrip : Prop :=
  ∀ (s : State) (n : Half), s.err = false → ParamsLegal s → s.coefValid = true → s.openParams.scaleDiv = .ceil →
    1 ≤ n.toNat → n.toNat ≤ (s.blockSize.toNat - 2) * 2 → s.samplesDone.toNat + n.toNat ≤ 2 ^ 32 - 1 →
    (∀ ch, channelIndex ch < s.channels.toNat → channelScale s ch n.toNat < 2 ^ 16 ∧
      ∀ j, j < n.toNat → (channelScale s ch n.toNat : Int) ∣ residualAt s ch n.toNat j) →
    ∃ t, exec (.encblk n) s = .next t ∧
      ∃ v, exec .decblk
          { t with
            pred0 := s.pred0, pred1 := s.pred1, samplesDone := s.samplesDone
            totalSamples := BitVec.ofNat 32 (s.samplesDone.toNat + n.toNat) } = .next v ∧
        v.err = false ∧ v.nout = n ∧
        ∀ ch, channelIndex ch < s.channels.toNat → ∀ j, j < n.toNat →
          readPcm v (j * s.channels.toNat + channelIndex ch) = readPcm s (j * s.channels.toNat + channelIndex ch)

/-! ### The loop converter -/

/-- 43_loopconv R233, R234: S2B writes `(SMP_IN div SPB) * BLOCK_SIZE * CHANNELS` when it fits u32, and raises `Range` (8)
when it does not; `BadParam` (4) on illegal parameters; refused while `ERR` = 1; illegal with `idx` or `rsv` not 0. -/
def Obligations.S2bConvertsTheSampleIndex : Prop :=
  RunsAs 0x30 .s2b ∧
  ∀ (s : State) (v : Nat),
    v = s.smpIn.toNat / ((s.blockSize.toNat - 2) * 2) * s.blockSize.toNat * s.channels.toNat →
    (s.err = false → ParamsLegal s → v ≤ 2 ^ 32 - 1 →
      exec .s2b s = .next { s with offOut := BitVec.ofNat 32 v, dout := 0#32 }) ∧
    (s.err = false → ParamsLegal s → 2 ^ 32 ≤ v → exec .s2b s = .next (faulted 8#4 0x00000030#32 s)) ∧
    (s.err = false → ¬ParamsLegal s → exec .s2b s = .next (faulted 4#4 0x00000030#32 s)) ∧
    (s.err = true → exec .s2b s = .next { s with dout := 0#32 })

/-- 43_loopconv R236: BOFF writes `COPYRIGHT_OFFSET + 4 + BLKIDX_IN * BLOCK_SIZE * CHANNELS` when it fits u32, and raises
`Range` (8) when it does not; `BadParam` (4) on illegal parameters; refused while `ERR` = 1; illegal with `idx` or `rsv` not 0. -/
def Obligations.BoffGivesTheBlockOffset : Prop :=
  RunsAs 0x31 .boff ∧
  ∀ (s : State) (v : Nat),
    v = s.copyrightOffset.toNat + 4 + s.blkidxIn.toNat * s.blockSize.toNat * s.channels.toNat →
    (s.err = false → ParamsLegal s → v ≤ 2 ^ 32 - 1 →
      exec .boff s = .next { s with offOut := BitVec.ofNat 32 v, dout := 0#32 }) ∧
    (s.err = false → ParamsLegal s → 2 ^ 32 ≤ v → exec .boff s = .next (faulted 8#4 0x00000031#32 s)) ∧
    (s.err = false → ¬ParamsLegal s → exec .boff s = .next (faulted 4#4 0x00000031#32 s)) ∧
    (s.err = true → exec .boff s = .next { s with dout := 0#32 })

/-- 43_loopconv R238: LOOPSET writes the loop enable and both byte offsets when both fit u32, and raises `Range` (8) when
one does not; `BadParam` (4) on illegal parameters; refused while `ERR` = 1; illegal with `idx` or `rsv` not 0. -/
def Obligations.LoopsetDerivesTheLoop : Prop :=
  RunsAs 0x32 .loopset ∧
  ∀ (s : State) (vb ve : Nat),
    vb = s.loopBeginSample.toNat / ((s.blockSize.toNat - 2) * 2) * s.blockSize.toNat * s.channels.toNat →
    ve = s.loopEndSample.toNat / ((s.blockSize.toNat - 2) * 2) * s.blockSize.toNat * s.channels.toNat →
    (s.err = false → ParamsLegal s → vb ≤ 2 ^ 32 - 1 → ve ≤ 2 ^ 32 - 1 →
      exec .loopset s = .next
        { s with
          loopEnabled := decide (s.loopBeginSample.toNat < s.loopEndSample.toNat)
          loopBeginByte := BitVec.ofNat 32 vb, loopEndByte := BitVec.ofNat 32 ve, dout := 0#32 }) ∧
    (s.err = false → ParamsLegal s → 2 ^ 32 ≤ vb ∨ 2 ^ 32 ≤ ve →
      exec .loopset s = .next (faulted 8#4 0x00000032#32 s)) ∧
    (s.err = false → ¬ParamsLegal s → exec .loopset s = .next (faulted 4#4 0x00000032#32 s)) ∧
    (s.err = true → exec .loopset s = .next { s with dout := 0#32 })

/-- 43_loopconv R237: `BlockOffset(s div SPB()) = COPYRIGHT_OFFSET + 4 + S2B(s)`: BOFF of the block of a sample index and
S2B of the index differ by the base, whenever both fit. -/
def Obligations.BlockOffsetIsBasePlusSampleOffset : Prop :=
  ∀ s t u : State, s.err = false → ParamsLegal s → s.blkidxIn.toNat = s.smpIn.toNat / ((s.blockSize.toNat - 2) * 2) →
    exec .s2b s = .next t → exec .boff s = .next u → u.err = false →
    t.err = false ∧ u.offOut.toNat = s.copyrightOffset.toNat + 4 + t.offOut.toNat

/-- 43_loopconv R230: once the parameters are legal, `SPB()` is `(BLOCK_SIZE - 2) * 2`, in 2 to 506 and even, the division
is exact, and the view `SPB` reads it; the view reads 0 when `BLOCK_SIZE` or `BITDEPTH` is illegal. Such a block is 3 to
510 bytes. -/
def Obligations.SamplesPerBlockIsInRange : Prop :=
  (∀ s : State, ParamsLegal s →
    spb s = (s.blockSize.toNat - 2) * 2 ∧ spb s * s.bitdepth.toNat = (s.blockSize.toNat - 2) * 8 ∧ 2 ≤ spb s ∧
    spb s ≤ 506 ∧ spb s % 2 = 0 ∧ exec (.rd 0x15#16) s = .next { s with dout := BitVec.ofNat 32 (spb s) } ∧
    3 ≤ blockBytes s ∧ blockBytes s ≤ 510) ∧
  ∀ s : State, s.blockSize.toNat < 3 ∨ s.bitdepth ≠ 4#8 → exec (.rd 0x15#16) s = .next { s with dout := 0#32 }

/-- 43_loopconv R232: the converter's results depend only on the parameter and operand registers it names: two states that
agree on those get the same results, whatever the prediction state, the table, the counters and the buffers are. -/
def Obligations.ConverterIsPure : Prop :=
  ∀ s s' t t' : State, s.err = s'.err → s.blockSize = s'.blockSize → s.bitdepth = s'.bitdepth →
    s.channels = s'.channels →
    (s.smpIn = s'.smpIn → exec .s2b s = .next t → exec .s2b s' = .next t' → s.err = false → t.err = false →
      t'.err = false ∧ t.offOut = t'.offOut) ∧
    (s.blkidxIn = s'.blkidxIn → s.copyrightOffset = s'.copyrightOffset →
      exec .boff s = .next t → exec .boff s' = .next t' → s.err = false → t.err = false →
      t'.err = false ∧ t.offOut = t'.offOut) ∧
    (s.loopBeginSample = s'.loopBeginSample → s.loopEndSample = s'.loopEndSample →
      exec .loopset s = .next t → exec .loopset s' = .next t' → s.err = false → t.err = false →
      t'.err = false ∧ t.loopEnabled = t'.loopEnabled ∧ t.loopBeginByte = t'.loopBeginByte ∧
        t.loopEndByte = t'.loopEndByte)

/-! ### The header record of the host -/

/-- 95 section 1.8, 30_encoding R112 to R116: reading a written header of version 3 or 4 gives it back, and so does one of
another version, which has no loop fields; the boolean `loop_enabled` is stored as the u32 1 or 0 (90 C5), at 0x18 in
version 3 and at 0x24 in version 4. -/
def Obligations.HeaderReadsBack : Prop :=
  (∀ h : Header, (∀ v, h.loop = .other v → v ≠ 3#8 ∧ v ≠ 4#8) →
    (writeHeader h).length = 0x40 ∧ readHeader (writeHeader h) = .ok h) ∧
  ∀ (h : Header) (a : Half) (l : LoopFields),
    (h.loop = .v3 a l →
      ((writeHeader h).drop 0x18).take 4 = if l.enabled = true then [0#8, 0#8, 0#8, 1#8] else [0#8, 0#8, 0#8, 0#8]) ∧
    (h.loop = .v4 l →
      ((writeHeader h).drop 0x24).take 4 = if l.enabled = true then [0#8, 0#8, 0#8, 1#8] else [0#8, 0#8, 0#8, 0#8])

/-- 30_encoding R118: the corrected worked example parses to the values the document lists, whatever `encoding_type` is. -/
def Obligations.HeaderWorkedExample : Prop :=
  ∀ (et : Byte) (rest : List Byte), rest.length = 44 →
    ∃ h, readHeader ([0x80#8, 0x00#8, 0x01#8, 0x94#8, et, 0x12#8, 0x04#8, 0x02#8, 0x00#8, 0x00#8, 0xAC#8, 0x44#8, 0x00#8,
        0x00#8, 0x00#8, 0x64#8, 0x01#8, 0xF4#8, 0x03#8, 0x00#8] ++ rest) = .ok h ∧
      h.copyrightOffset = 404#16 ∧ h.encodingType = et ∧ h.blockSize = 18#8 ∧ h.sampleBitdepth = 4#8 ∧
      h.channelCount = 2#8 ∧ h.sampleRate = 44100#32 ∧ h.totalSamples = 100#32 ∧ h.highpassFrequency = 500#16 ∧
      loopVersion h.loop = 3#8 ∧ h.flags = 0#8
end

