-- ==== Sys2Proof/Laws/Binary64.lean ====
section
/-! SUPPORT. The laws of the binary64 format and of its two rounding steps: the fields of a packed pattern, the value a
significand and exponent are packed to, rounding a significand to nearest even, and the integer square root. -/

namespace Sys2Proof.Machine

theorem toNat_f64Pack (neg : Bool) {bits : Nat} (h : bits < 2 ^ 63) :
    (f64Pack neg bits).toNat = neg.toNat * 2 ^ 63 + bits := by
  cases neg <;> simp only [f64Pack, Bool.toNat_true, Bool.toNat_false, BitVec.toNat_ofNat] <;> omega

theorem f64Sign_pack (neg : Bool) {bits : Nat} (h : bits < 2 ^ 63) : f64Sign (f64Pack neg bits) = neg := by
  have := toNat_f64Pack neg h
  cases neg
  · simp [f64Sign, BitVec.msb_eq_decide, this]; omega
  · simp [f64Sign, BitVec.msb_eq_decide, this]

theorem f64Biased_eq (x : Binary64) : f64Biased x = x.toNat / 2 ^ 52 % 2 ^ 11 := by
  simp only [f64Biased, BitVec.extractLsb'_toNat, Nat.shiftRight_eq_div_pow]

theorem f64Fraction_eq (x : Binary64) : f64Fraction x = x.toNat % 2 ^ 52 := by
  simp only [f64Fraction, BitVec.extractLsb'_toNat, Nat.shiftRight_eq_div_pow, Nat.pow_zero, Nat.div_one]

theorem f64Biased_pack (neg : Bool) {bits : Nat} (h : bits < 2 ^ 63) : f64Biased (f64Pack neg bits) = bits / 2 ^ 52 := by
  rw [f64Biased_eq, toNat_f64Pack neg h]
  cases neg <;> simp only [Bool.toNat_true, Bool.toNat_false] <;> omega

theorem f64Fraction_pack (neg : Bool) {bits : Nat} (h : bits < 2 ^ 63) :
    f64Fraction (f64Pack neg bits) = bits % 2 ^ 52 := by
  rw [f64Fraction_eq, toNat_f64Pack neg h]
  cases neg <;> simp only [Bool.toNat_true, Bool.toNat_false] <;> omega

/-- A canonical significand and exponent: below 2^53, with its leading bit at 2^52 unless the exponent is the least. -/
def Canonical (k sig : Nat) : Prop := sig < 2 ^ 53 ∧ (k = 0 ∨ 2 ^ 52 ≤ sig)

/-- Packing a canonical significand at the exponent `k - 1074` gives a finite pattern of that value. -/
theorem f64Value_pack (neg : Bool) {k sig : Nat} (hc : Canonical k sig) (hk : k * 2 ^ 52 + sig < f64InfBits) :
    f64IsFinite (f64Pack neg (k * 2 ^ 52 + sig)) = true ∧
      f64Value (f64Pack neg (k * 2 ^ 52 + sig)) =
        (if neg then -1 else 1) * (sig : Rat) * (2 : Rat) ^ ((k : Int) - 1074) := by
  obtain ⟨h1, h2⟩ := hc
  unfold f64InfBits at hk
  have hlt : k * 2 ^ 52 + sig < 2 ^ 63 := by omega
  have hb := f64Biased_pack neg hlt
  have hf := f64Fraction_pack neg hlt
  have hs := f64Sign_pack neg hlt
  have hmant : f64Mant (f64Pack neg (k * 2 ^ 52 + sig)) = sig := by
    unfold f64Mant
    rw [hb, hf]
    split <;> omega
  have hexp : f64Exp (f64Pack neg (k * 2 ^ 52 + sig)) = (k : Int) - 1074 := by
    unfold f64Exp
    rw [hb]
    split <;> omega
  refine ⟨?_, by rw [f64Value, hs, hmant, hexp]⟩
  have : (k * 2 ^ 52 + sig) / 2 ^ 52 ≠ 2047 := by omega
  unfold f64IsFinite
  rw [hb]
  exact bne_iff_ne.2 this

/-- Rounding a significand: within half a unit, and even when the half is exact (00_scope R13). -/
theorem roundShift_spec (m k : Nat) :
    2 * m ≤ 2 * (roundShift m k * 2 ^ k) + 2 ^ k ∧ 2 * (roundShift m k * 2 ^ k) ≤ 2 * m + 2 ^ k ∧
      ((2 * m = 2 * (roundShift m k * 2 ^ k) + 2 ^ k ∨ 2 * (roundShift m k * 2 ^ k) = 2 * m + 2 ^ k) →
        roundShift m k % 2 = 0) := by
  have hd := Nat.div_add_mod m (2 ^ k)
  have hm := Nat.mod_lt m (Nat.two_pow_pos k)
  have hp := Nat.two_pow_pos k
  have e1 : 2 ^ k * (m / 2 ^ k) = m / 2 ^ k * 2 ^ k := Nat.mul_comm _ _
  have e2 : (m / 2 ^ k + 1) * 2 ^ k = m / 2 ^ k * 2 ^ k + 2 ^ k := by ring
  simp only [roundShift]
  generalize m % 2 ^ k = r at *
  split
  · refine ⟨by omega, by omega, ?_⟩
    rintro (h | h) <;> omega
  · split
    · rw [e2]
      refine ⟨by omega, by omega, ?_⟩
      rintro (h | h) <;> omega
    · rcases Nat.mod_two_eq_zero_or_one (m / 2 ^ k) with h2 | h2
      · rw [h2, Nat.add_zero]
        exact ⟨by omega, by omega, fun _ => h2⟩
      · rw [h2, e2]
        exact ⟨by omega, by omega, fun _ => by omega⟩

/-- An exact multiple is not changed by rounding. -/
theorem roundShift_exact (m k : Nat) : roundShift (m * 2 ^ k) k = m := by
  have hp := Nat.two_pow_pos k
  simp [roundShift, Nat.mul_div_cancel _ hp, Nat.mul_mod_left]

/-- The integer square root by bits. -/
theorem isqrtFrom_spec (n : Nat) : ∀ (k r : Nat), r * r ≤ n → n < (r + 2 ^ k) * (r + 2 ^ k) →
    isqrtFrom n k r * isqrtFrom n k r ≤ n ∧ n < (isqrtFrom n k r + 1) * (isqrtFrom n k r + 1)
  | 0, r, h1, h2 => ⟨h1, h2⟩
  | k + 1, r, h1, h2 => by
    simp only [isqrtFrom]
    split
    · rename_i h
      refine isqrtFrom_spec n k _ h ?_
      rw [show r + 2 ^ k + 2 ^ k = r + 2 ^ (k + 1) by rw [pow_succ]; ring]
      exact h2
    · rename_i h
      exact isqrtFrom_spec n k r h1 (by omega)

end Sys2Proof.Machine
end

