-- ==== Sys2Proof/Laws/State.lean ====
section
/-! SUPPORT. One lemma per field per named update of State: what each update leaves alone and what it writes, so that no
later proof unfolds a record update. -/

namespace Sys2Proof.Machine

/-! ### setDout -/

@[simp] theorem setDout_blockSize (v : Word) (s : State) : (setDout v s).blockSize = s.blockSize := rfl
@[simp] theorem setDout_bitdepth (v : Word) (s : State) : (setDout v s).bitdepth = s.bitdepth := rfl
@[simp] theorem setDout_channels (v : Word) (s : State) : (setDout v s).channels = s.channels := rfl
@[simp] theorem setDout_sampleRate (v : Word) (s : State) : (setDout v s).sampleRate = s.sampleRate := rfl
@[simp] theorem setDout_highpass (v : Word) (s : State) : (setDout v s).highpass = s.highpass := rfl
@[simp] theorem setDout_totalSamples (v : Word) (s : State) : (setDout v s).totalSamples = s.totalSamples := rfl
@[simp] theorem setDout_copyrightOffset (v : Word) (s : State) : (setDout v s).copyrightOffset = s.copyrightOffset := rfl
@[simp] theorem setDout_blkLen (v : Word) (s : State) : (setDout v s).blkLen = s.blkLen := rfl
@[simp] theorem setDout_smpIn (v : Word) (s : State) : (setDout v s).smpIn = s.smpIn := rfl
@[simp] theorem setDout_blkidxIn (v : Word) (s : State) : (setDout v s).blkidxIn = s.blkidxIn := rfl
@[simp] theorem setDout_loopBeginSample (v : Word) (s : State) : (setDout v s).loopBeginSample = s.loopBeginSample := rfl
@[simp] theorem setDout_loopEndSample (v : Word) (s : State) : (setDout v s).loopEndSample = s.loopEndSample := rfl
@[simp] theorem setDout_coef0 (v : Word) (s : State) : (setDout v s).coef0 = s.coef0 := rfl
@[simp] theorem setDout_coef1 (v : Word) (s : State) : (setDout v s).coef1 = s.coef1 := rfl
@[simp] theorem setDout_coefValid (v : Word) (s : State) : (setDout v s).coefValid = s.coefValid := rfl
@[simp] theorem setDout_err (v : Word) (s : State) : (setDout v s).err = s.err := rfl
@[simp] theorem setDout_errcode (v : Word) (s : State) : (setDout v s).errcode = s.errcode := rfl
@[simp] theorem setDout_errinfo (v : Word) (s : State) : (setDout v s).errinfo = s.errinfo := rfl
@[simp] theorem setDout_pred0 (v : Word) (s : State) : (setDout v s).pred0 = s.pred0 := rfl
@[simp] theorem setDout_pred1 (v : Word) (s : State) : (setDout v s).pred1 = s.pred1 := rfl
@[simp] theorem setDout_samplesDone (v : Word) (s : State) : (setDout v s).samplesDone = s.samplesDone := rfl
@[simp] theorem setDout_blocksDone (v : Word) (s : State) : (setDout v s).blocksDone = s.blocksDone := rfl
@[simp] theorem setDout_nout (v : Word) (s : State) : (setDout v s).nout = s.nout := rfl
@[simp] theorem setDout_offOut (v : Word) (s : State) : (setDout v s).offOut = s.offOut := rfl
@[simp] theorem setDout_loopEnabled (v : Word) (s : State) : (setDout v s).loopEnabled = s.loopEnabled := rfl
@[simp] theorem setDout_loopBeginByte (v : Word) (s : State) : (setDout v s).loopBeginByte = s.loopBeginByte := rfl
@[simp] theorem setDout_loopEndByte (v : Word) (s : State) : (setDout v s).loopEndByte = s.loopEndByte := rfl
@[simp] theorem setDout_blk (v : Word) (s : State) : (setDout v s).blk = s.blk := rfl
@[simp] theorem setDout_pcm (v : Word) (s : State) : (setDout v s).pcm = s.pcm := rfl
@[simp] theorem setDout_openParams (v : Word) (s : State) : (setDout v s).openParams = s.openParams := rfl
@[simp] theorem setDout_host (v : Word) (s : State) : (setDout v s).host = s.host := rfl
@[simp] theorem setDout_dout (v : Word) (s : State) : (setDout v s).dout = v := rfl
@[simp] theorem setDout_epoch (v : Word) (s : State) : (setDout v s).epoch = s.epoch := rfl
@[simp] theorem setDout_draws (v : Word) (s : State) : (setDout v s).draws = s.draws := rfl

/-! ### setHost -/

@[simp] theorem setHost_blockSize (q : List HostAction) (s : State) : (setHost q s).blockSize = s.blockSize := rfl
@[simp] theorem setHost_bitdepth (q : List HostAction) (s : State) : (setHost q s).bitdepth = s.bitdepth := rfl
@[simp] theorem setHost_channels (q : List HostAction) (s : State) : (setHost q s).channels = s.channels := rfl
@[simp] theorem setHost_sampleRate (q : List HostAction) (s : State) : (setHost q s).sampleRate = s.sampleRate := rfl
@[simp] theorem setHost_highpass (q : List HostAction) (s : State) : (setHost q s).highpass = s.highpass := rfl
@[simp] theorem setHost_totalSamples (q : List HostAction) (s : State) : (setHost q s).totalSamples = s.totalSamples := rfl
@[simp] theorem setHost_copyrightOffset (q : List HostAction) (s : State) : (setHost q s).copyrightOffset = s.copyrightOffset := rfl
@[simp] theorem setHost_blkLen (q : List HostAction) (s : State) : (setHost q s).blkLen = s.blkLen := rfl
@[simp] theorem setHost_smpIn (q : List HostAction) (s : State) : (setHost q s).smpIn = s.smpIn := rfl
@[simp] theorem setHost_blkidxIn (q : List HostAction) (s : State) : (setHost q s).blkidxIn = s.blkidxIn := rfl
@[simp] theorem setHost_loopBeginSample (q : List HostAction) (s : State) : (setHost q s).loopBeginSample = s.loopBeginSample := rfl
@[simp] theorem setHost_loopEndSample (q : List HostAction) (s : State) : (setHost q s).loopEndSample = s.loopEndSample := rfl
@[simp] theorem setHost_coef0 (q : List HostAction) (s : State) : (setHost q s).coef0 = s.coef0 := rfl
@[simp] theorem setHost_coef1 (q : List HostAction) (s : State) : (setHost q s).coef1 = s.coef1 := rfl
@[simp] theorem setHost_coefValid (q : List HostAction) (s : State) : (setHost q s).coefValid = s.coefValid := rfl
@[simp] theorem setHost_err (q : List HostAction) (s : State) : (setHost q s).err = s.err := rfl
@[simp] theorem setHost_errcode (q : List HostAction) (s : State) : (setHost q s).errcode = s.errcode := rfl
@[simp] theorem setHost_errinfo (q : List HostAction) (s : State) : (setHost q s).errinfo = s.errinfo := rfl
@[simp] theorem setHost_pred0 (q : List HostAction) (s : State) : (setHost q s).pred0 = s.pred0 := rfl
@[simp] theorem setHost_pred1 (q : List HostAction) (s : State) : (setHost q s).pred1 = s.pred1 := rfl
@[simp] theorem setHost_samplesDone (q : List HostAction) (s : State) : (setHost q s).samplesDone = s.samplesDone := rfl
@[simp] theorem setHost_blocksDone (q : List HostAction) (s : State) : (setHost q s).blocksDone = s.blocksDone := rfl
@[simp] theorem setHost_nout (q : List HostAction) (s : State) : (setHost q s).nout = s.nout := rfl
@[simp] theorem setHost_offOut (q : List HostAction) (s : State) : (setHost q s).offOut = s.offOut := rfl
@[simp] theorem setHost_loopEnabled (q : List HostAction) (s : State) : (setHost q s).loopEnabled = s.loopEnabled := rfl
@[simp] theorem setHost_loopBeginByte (q : List HostAction) (s : State) : (setHost q s).loopBeginByte = s.loopBeginByte := rfl
@[simp] theorem setHost_loopEndByte (q : List HostAction) (s : State) : (setHost q s).loopEndByte = s.loopEndByte := rfl
@[simp] theorem setHost_blk (q : List HostAction) (s : State) : (setHost q s).blk = s.blk := rfl
@[simp] theorem setHost_pcm (q : List HostAction) (s : State) : (setHost q s).pcm = s.pcm := rfl
@[simp] theorem setHost_openParams (q : List HostAction) (s : State) : (setHost q s).openParams = s.openParams := rfl
@[simp] theorem setHost_host (q : List HostAction) (s : State) : (setHost q s).host = q := rfl
@[simp] theorem setHost_dout (q : List HostAction) (s : State) : (setHost q s).dout = s.dout := rfl
@[simp] theorem setHost_epoch (q : List HostAction) (s : State) : (setHost q s).epoch = s.epoch := rfl
@[simp] theorem setHost_draws (q : List HostAction) (s : State) : (setHost q s).draws = s.draws := rfl

/-! ### clearCoefValid -/

@[simp] theorem clearCoefValid_blockSize (s : State) : (clearCoefValid s).blockSize = s.blockSize := rfl
@[simp] theorem clearCoefValid_bitdepth (s : State) : (clearCoefValid s).bitdepth = s.bitdepth := rfl
@[simp] theorem clearCoefValid_channels (s : State) : (clearCoefValid s).channels = s.channels := rfl
@[simp] theorem clearCoefValid_sampleRate (s : State) : (clearCoefValid s).sampleRate = s.sampleRate := rfl
@[simp] theorem clearCoefValid_highpass (s : State) : (clearCoefValid s).highpass = s.highpass := rfl
@[simp] theorem clearCoefValid_totalSamples (s : State) : (clearCoefValid s).totalSamples = s.totalSamples := rfl
@[simp] theorem clearCoefValid_copyrightOffset (s : State) : (clearCoefValid s).copyrightOffset = s.copyrightOffset := rfl
@[simp] theorem clearCoefValid_blkLen (s : State) : (clearCoefValid s).blkLen = s.blkLen := rfl
@[simp] theorem clearCoefValid_smpIn (s : State) : (clearCoefValid s).smpIn = s.smpIn := rfl
@[simp] theorem clearCoefValid_blkidxIn (s : State) : (clearCoefValid s).blkidxIn = s.blkidxIn := rfl
@[simp] theorem clearCoefValid_loopBeginSample (s : State) : (clearCoefValid s).loopBeginSample = s.loopBeginSample := rfl
@[simp] theorem clearCoefValid_loopEndSample (s : State) : (clearCoefValid s).loopEndSample = s.loopEndSample := rfl
@[simp] theorem clearCoefValid_coef0 (s : State) : (clearCoefValid s).coef0 = s.coef0 := rfl
@[simp] theorem clearCoefValid_coef1 (s : State) : (clearCoefValid s).coef1 = s.coef1 := rfl
@[simp] theorem clearCoefValid_coefValid (s : State) : (clearCoefValid s).coefValid = false := rfl
@[simp] theorem clearCoefValid_err (s : State) : (clearCoefValid s).err = s.err := rfl
@[simp] theorem clearCoefValid_errcode (s : State) : (clearCoefValid s).errcode = s.errcode := rfl
@[simp] theorem clearCoefValid_errinfo (s : State) : (clearCoefValid s).errinfo = s.errinfo := rfl
@[simp] theorem clearCoefValid_pred0 (s : State) : (clearCoefValid s).pred0 = s.pred0 := rfl
@[simp] theorem clearCoefValid_pred1 (s : State) : (clearCoefValid s).pred1 = s.pred1 := rfl
@[simp] theorem clearCoefValid_samplesDone (s : State) : (clearCoefValid s).samplesDone = s.samplesDone := rfl
@[simp] theorem clearCoefValid_blocksDone (s : State) : (clearCoefValid s).blocksDone = s.blocksDone := rfl
@[simp] theorem clearCoefValid_nout (s : State) : (clearCoefValid s).nout = s.nout := rfl
@[simp] theorem clearCoefValid_offOut (s : State) : (clearCoefValid s).offOut = s.offOut := rfl
@[simp] theorem clearCoefValid_loopEnabled (s : State) : (clearCoefValid s).loopEnabled = s.loopEnabled := rfl
@[simp] theorem clearCoefValid_loopBeginByte (s : State) : (clearCoefValid s).loopBeginByte = s.loopBeginByte := rfl
@[simp] theorem clearCoefValid_loopEndByte (s : State) : (clearCoefValid s).loopEndByte = s.loopEndByte := rfl
@[simp] theorem clearCoefValid_blk (s : State) : (clearCoefValid s).blk = s.blk := rfl
@[simp] theorem clearCoefValid_pcm (s : State) : (clearCoefValid s).pcm = s.pcm := rfl
@[simp] theorem clearCoefValid_openParams (s : State) : (clearCoefValid s).openParams = s.openParams := rfl
@[simp] theorem clearCoefValid_host (s : State) : (clearCoefValid s).host = s.host := rfl
@[simp] theorem clearCoefValid_dout (s : State) : (clearCoefValid s).dout = s.dout := rfl
@[simp] theorem clearCoefValid_epoch (s : State) : (clearCoefValid s).epoch = s.epoch := rfl
@[simp] theorem clearCoefValid_draws (s : State) : (clearCoefValid s).draws = s.draws := rfl

/-! ### setTable -/

@[simp] theorem setTable_blockSize (c0 c1 : Binary64) (s : State) : (setTable c0 c1 s).blockSize = s.blockSize := rfl
@[simp] theorem setTable_bitdepth (c0 c1 : Binary64) (s : State) : (setTable c0 c1 s).bitdepth = s.bitdepth := rfl
@[simp] theorem setTable_channels (c0 c1 : Binary64) (s : State) : (setTable c0 c1 s).channels = s.channels := rfl
@[simp] theorem setTable_sampleRate (c0 c1 : Binary64) (s : State) : (setTable c0 c1 s).sampleRate = s.sampleRate := rfl
@[simp] theorem setTable_highpass (c0 c1 : Binary64) (s : State) : (setTable c0 c1 s).highpass = s.highpass := rfl
@[simp] theorem setTable_totalSamples (c0 c1 : Binary64) (s : State) : (setTable c0 c1 s).totalSamples = s.totalSamples := rfl
@[simp] theorem setTable_copyrightOffset (c0 c1 : Binary64) (s : State) : (setTable c0 c1 s).copyrightOffset = s.copyrightOffset := rfl
@[simp] theorem setTable_blkLen (c0 c1 : Binary64) (s : State) : (setTable c0 c1 s).blkLen = s.blkLen := rfl
@[simp] theorem setTable_smpIn (c0 c1 : Binary64) (s : State) : (setTable c0 c1 s).smpIn = s.smpIn := rfl
@[simp] theorem setTable_blkidxIn (c0 c1 : Binary64) (s : State) : (setTable c0 c1 s).blkidxIn = s.blkidxIn := rfl
@[simp] theorem setTable_loopBeginSample (c0 c1 : Binary64) (s : State) : (setTable c0 c1 s).loopBeginSample = s.loopBeginSample := rfl
@[simp] theorem setTable_loopEndSample (c0 c1 : Binary64) (s : State) : (setTable c0 c1 s).loopEndSample = s.loopEndSample := rfl
@[simp] theorem setTable_coef0 (c0 c1 : Binary64) (s : State) : (setTable c0 c1 s).coef0 = c0 := rfl
@[simp] theorem setTable_coef1 (c0 c1 : Binary64) (s : State) : (setTable c0 c1 s).coef1 = c1 := rfl
@[simp] theorem setTable_coefValid (c0 c1 : Binary64) (s : State) : (setTable c0 c1 s).coefValid = true := rfl
@[simp] theorem setTable_err (c0 c1 : Binary64) (s : State) : (setTable c0 c1 s).err = s.err := rfl
@[simp] theorem setTable_errcode (c0 c1 : Binary64) (s : State) : (setTable c0 c1 s).errcode = s.errcode := rfl
@[simp] theorem setTable_errinfo (c0 c1 : Binary64) (s : State) : (setTable c0 c1 s).errinfo = s.errinfo := rfl
@[simp] theorem setTable_pred0 (c0 c1 : Binary64) (s : State) : (setTable c0 c1 s).pred0 = s.pred0 := rfl
@[simp] theorem setTable_pred1 (c0 c1 : Binary64) (s : State) : (setTable c0 c1 s).pred1 = s.pred1 := rfl
@[simp] theorem setTable_samplesDone (c0 c1 : Binary64) (s : State) : (setTable c0 c1 s).samplesDone = s.samplesDone := rfl
@[simp] theorem setTable_blocksDone (c0 c1 : Binary64) (s : State) : (setTable c0 c1 s).blocksDone = s.blocksDone := rfl
@[simp] theorem setTable_nout (c0 c1 : Binary64) (s : State) : (setTable c0 c1 s).nout = s.nout := rfl
@[simp] theorem setTable_offOut (c0 c1 : Binary64) (s : State) : (setTable c0 c1 s).offOut = s.offOut := rfl
@[simp] theorem setTable_loopEnabled (c0 c1 : Binary64) (s : State) : (setTable c0 c1 s).loopEnabled = s.loopEnabled := rfl
@[simp] theorem setTable_loopBeginByte (c0 c1 : Binary64) (s : State) : (setTable c0 c1 s).loopBeginByte = s.loopBeginByte := rfl
@[simp] theorem setTable_loopEndByte (c0 c1 : Binary64) (s : State) : (setTable c0 c1 s).loopEndByte = s.loopEndByte := rfl
@[simp] theorem setTable_blk (c0 c1 : Binary64) (s : State) : (setTable c0 c1 s).blk = s.blk := rfl
@[simp] theorem setTable_pcm (c0 c1 : Binary64) (s : State) : (setTable c0 c1 s).pcm = s.pcm := rfl
@[simp] theorem setTable_openParams (c0 c1 : Binary64) (s : State) : (setTable c0 c1 s).openParams = s.openParams := rfl
@[simp] theorem setTable_host (c0 c1 : Binary64) (s : State) : (setTable c0 c1 s).host = s.host := rfl
@[simp] theorem setTable_dout (c0 c1 : Binary64) (s : State) : (setTable c0 c1 s).dout = s.dout := rfl
@[simp] theorem setTable_epoch (c0 c1 : Binary64) (s : State) : (setTable c0 c1 s).epoch = s.epoch := rfl
@[simp] theorem setTable_draws (c0 c1 : Binary64) (s : State) : (setTable c0 c1 s).draws = s.draws := rfl

/-! ### writeBlk -/

@[simp] theorem writeBlk_blockSize (a : Nat) (v : Byte) (s : State) : (writeBlk a v s).blockSize = s.blockSize := rfl
@[simp] theorem writeBlk_bitdepth (a : Nat) (v : Byte) (s : State) : (writeBlk a v s).bitdepth = s.bitdepth := rfl
@[simp] theorem writeBlk_channels (a : Nat) (v : Byte) (s : State) : (writeBlk a v s).channels = s.channels := rfl
@[simp] theorem writeBlk_sampleRate (a : Nat) (v : Byte) (s : State) : (writeBlk a v s).sampleRate = s.sampleRate := rfl
@[simp] theorem writeBlk_highpass (a : Nat) (v : Byte) (s : State) : (writeBlk a v s).highpass = s.highpass := rfl
@[simp] theorem writeBlk_totalSamples (a : Nat) (v : Byte) (s : State) : (writeBlk a v s).totalSamples = s.totalSamples := rfl
@[simp] theorem writeBlk_copyrightOffset (a : Nat) (v : Byte) (s : State) : (writeBlk a v s).copyrightOffset = s.copyrightOffset := rfl
@[simp] theorem writeBlk_blkLen (a : Nat) (v : Byte) (s : State) : (writeBlk a v s).blkLen = s.blkLen := rfl
@[simp] theorem writeBlk_smpIn (a : Nat) (v : Byte) (s : State) : (writeBlk a v s).smpIn = s.smpIn := rfl
@[simp] theorem writeBlk_blkidxIn (a : Nat) (v : Byte) (s : State) : (writeBlk a v s).blkidxIn = s.blkidxIn := rfl
@[simp] theorem writeBlk_loopBeginSample (a : Nat) (v : Byte) (s : State) : (writeBlk a v s).loopBeginSample = s.loopBeginSample := rfl
@[simp] theorem writeBlk_loopEndSample (a : Nat) (v : Byte) (s : State) : (writeBlk a v s).loopEndSample = s.loopEndSample := rfl
@[simp] theorem writeBlk_coef0 (a : Nat) (v : Byte) (s : State) : (writeBlk a v s).coef0 = s.coef0 := rfl
@[simp] theorem writeBlk_coef1 (a : Nat) (v : Byte) (s : State) : (writeBlk a v s).coef1 = s.coef1 := rfl
@[simp] theorem writeBlk_coefValid (a : Nat) (v : Byte) (s : State) : (writeBlk a v s).coefValid = s.coefValid := rfl
@[simp] theorem writeBlk_err (a : Nat) (v : Byte) (s : State) : (writeBlk a v s).err = s.err := rfl
@[simp] theorem writeBlk_errcode (a : Nat) (v : Byte) (s : State) : (writeBlk a v s).errcode = s.errcode := rfl
@[simp] theorem writeBlk_errinfo (a : Nat) (v : Byte) (s : State) : (writeBlk a v s).errinfo = s.errinfo := rfl
@[simp] theorem writeBlk_pred0 (a : Nat) (v : Byte) (s : State) : (writeBlk a v s).pred0 = s.pred0 := rfl
@[simp] theorem writeBlk_pred1 (a : Nat) (v : Byte) (s : State) : (writeBlk a v s).pred1 = s.pred1 := rfl
@[simp] theorem writeBlk_samplesDone (a : Nat) (v : Byte) (s : State) : (writeBlk a v s).samplesDone = s.samplesDone := rfl
@[simp] theorem writeBlk_blocksDone (a : Nat) (v : Byte) (s : State) : (writeBlk a v s).blocksDone = s.blocksDone := rfl
@[simp] theorem writeBlk_nout (a : Nat) (v : Byte) (s : State) : (writeBlk a v s).nout = s.nout := rfl
@[simp] theorem writeBlk_offOut (a : Nat) (v : Byte) (s : State) : (writeBlk a v s).offOut = s.offOut := rfl
@[simp] theorem writeBlk_loopEnabled (a : Nat) (v : Byte) (s : State) : (writeBlk a v s).loopEnabled = s.loopEnabled := rfl
@[simp] theorem writeBlk_loopBeginByte (a : Nat) (v : Byte) (s : State) : (writeBlk a v s).loopBeginByte = s.loopBeginByte := rfl
@[simp] theorem writeBlk_loopEndByte (a : Nat) (v : Byte) (s : State) : (writeBlk a v s).loopEndByte = s.loopEndByte := rfl
@[simp] theorem writeBlk_blk (a : Nat) (v : Byte) (s : State) : (writeBlk a v s).blk = memStore s.blk a v := rfl
@[simp] theorem writeBlk_pcm (a : Nat) (v : Byte) (s : State) : (writeBlk a v s).pcm = s.pcm := rfl
@[simp] theorem writeBlk_openParams (a : Nat) (v : Byte) (s : State) : (writeBlk a v s).openParams = s.openParams := rfl
@[simp] theorem writeBlk_host (a : Nat) (v : Byte) (s : State) : (writeBlk a v s).host = s.host := rfl
@[simp] theorem writeBlk_dout (a : Nat) (v : Byte) (s : State) : (writeBlk a v s).dout = s.dout := rfl
@[simp] theorem writeBlk_epoch (a : Nat) (v : Byte) (s : State) : (writeBlk a v s).epoch = s.epoch := rfl
@[simp] theorem writeBlk_draws (a : Nat) (v : Byte) (s : State) : (writeBlk a v s).draws = s.draws := rfl

/-! ### writePcm -/

@[simp] theorem writePcm_blockSize (a : Nat) (v : Half) (s : State) : (writePcm a v s).blockSize = s.blockSize := rfl
@[simp] theorem writePcm_bitdepth (a : Nat) (v : Half) (s : State) : (writePcm a v s).bitdepth = s.bitdepth := rfl
@[simp] theorem writePcm_channels (a : Nat) (v : Half) (s : State) : (writePcm a v s).channels = s.channels := rfl
@[simp] theorem writePcm_sampleRate (a : Nat) (v : Half) (s : State) : (writePcm a v s).sampleRate = s.sampleRate := rfl
@[simp] theorem writePcm_highpass (a : Nat) (v : Half) (s : State) : (writePcm a v s).highpass = s.highpass := rfl
@[simp] theorem writePcm_totalSamples (a : Nat) (v : Half) (s : State) : (writePcm a v s).totalSamples = s.totalSamples := rfl
@[simp] theorem writePcm_copyrightOffset (a : Nat) (v : Half) (s : State) : (writePcm a v s).copyrightOffset = s.copyrightOffset := rfl
@[simp] theorem writePcm_blkLen (a : Nat) (v : Half) (s : State) : (writePcm a v s).blkLen = s.blkLen := rfl
@[simp] theorem writePcm_smpIn (a : Nat) (v : Half) (s : State) : (writePcm a v s).smpIn = s.smpIn := rfl
@[simp] theorem writePcm_blkidxIn (a : Nat) (v : Half) (s : State) : (writePcm a v s).blkidxIn = s.blkidxIn := rfl
@[simp] theorem writePcm_loopBeginSample (a : Nat) (v : Half) (s : State) : (writePcm a v s).loopBeginSample = s.loopBeginSample := rfl
@[simp] theorem writePcm_loopEndSample (a : Nat) (v : Half) (s : State) : (writePcm a v s).loopEndSample = s.loopEndSample := rfl
@[simp] theorem writePcm_coef0 (a : Nat) (v : Half) (s : State) : (writePcm a v s).coef0 = s.coef0 := rfl
@[simp] theorem writePcm_coef1 (a : Nat) (v : Half) (s : State) : (writePcm a v s).coef1 = s.coef1 := rfl
@[simp] theorem writePcm_coefValid (a : Nat) (v : Half) (s : State) : (writePcm a v s).coefValid = s.coefValid := rfl
@[simp] theorem writePcm_err (a : Nat) (v : Half) (s : State) : (writePcm a v s).err = s.err := rfl
@[simp] theorem writePcm_errcode (a : Nat) (v : Half) (s : State) : (writePcm a v s).errcode = s.errcode := rfl
@[simp] theorem writePcm_errinfo (a : Nat) (v : Half) (s : State) : (writePcm a v s).errinfo = s.errinfo := rfl
@[simp] theorem writePcm_pred0 (a : Nat) (v : Half) (s : State) : (writePcm a v s).pred0 = s.pred0 := rfl
@[simp] theorem writePcm_pred1 (a : Nat) (v : Half) (s : State) : (writePcm a v s).pred1 = s.pred1 := rfl
@[simp] theorem writePcm_samplesDone (a : Nat) (v : Half) (s : State) : (writePcm a v s).samplesDone = s.samplesDone := rfl
@[simp] theorem writePcm_blocksDone (a : Nat) (v : Half) (s : State) : (writePcm a v s).blocksDone = s.blocksDone := rfl
@[simp] theorem writePcm_nout (a : Nat) (v : Half) (s : State) : (writePcm a v s).nout = s.nout := rfl
@[simp] theorem writePcm_offOut (a : Nat) (v : Half) (s : State) : (writePcm a v s).offOut = s.offOut := rfl
@[simp] theorem writePcm_loopEnabled (a : Nat) (v : Half) (s : State) : (writePcm a v s).loopEnabled = s.loopEnabled := rfl
@[simp] theorem writePcm_loopBeginByte (a : Nat) (v : Half) (s : State) : (writePcm a v s).loopBeginByte = s.loopBeginByte := rfl
@[simp] theorem writePcm_loopEndByte (a : Nat) (v : Half) (s : State) : (writePcm a v s).loopEndByte = s.loopEndByte := rfl
@[simp] theorem writePcm_blk (a : Nat) (v : Half) (s : State) : (writePcm a v s).blk = s.blk := rfl
@[simp] theorem writePcm_pcm (a : Nat) (v : Half) (s : State) : (writePcm a v s).pcm = memStore s.pcm a v := rfl
@[simp] theorem writePcm_openParams (a : Nat) (v : Half) (s : State) : (writePcm a v s).openParams = s.openParams := rfl
@[simp] theorem writePcm_host (a : Nat) (v : Half) (s : State) : (writePcm a v s).host = s.host := rfl
@[simp] theorem writePcm_dout (a : Nat) (v : Half) (s : State) : (writePcm a v s).dout = s.dout := rfl
@[simp] theorem writePcm_epoch (a : Nat) (v : Half) (s : State) : (writePcm a v s).epoch = s.epoch := rfl
@[simp] theorem writePcm_draws (a : Nat) (v : Half) (s : State) : (writePcm a v s).draws = s.draws := rfl

/-! ### pushPrev -/

@[simp] theorem pushPrev_blockSize (ch : Channel) (x : Half) (s : State) : (pushPrev ch x s).blockSize = s.blockSize := by cases ch <;> rfl
@[simp] theorem pushPrev_bitdepth (ch : Channel) (x : Half) (s : State) : (pushPrev ch x s).bitdepth = s.bitdepth := by cases ch <;> rfl
@[simp] theorem pushPrev_channels (ch : Channel) (x : Half) (s : State) : (pushPrev ch x s).channels = s.channels := by cases ch <;> rfl
@[simp] theorem pushPrev_sampleRate (ch : Channel) (x : Half) (s : State) : (pushPrev ch x s).sampleRate = s.sampleRate := by cases ch <;> rfl
@[simp] theorem pushPrev_highpass (ch : Channel) (x : Half) (s : State) : (pushPrev ch x s).highpass = s.highpass := by cases ch <;> rfl
@[simp] theorem pushPrev_totalSamples (ch : Channel) (x : Half) (s : State) : (pushPrev ch x s).totalSamples = s.totalSamples := by cases ch <;> rfl
@[simp] theorem pushPrev_copyrightOffset (ch : Channel) (x : Half) (s : State) : (pushPrev ch x s).copyrightOffset = s.copyrightOffset := by cases ch <;> rfl
@[simp] theorem pushPrev_blkLen (ch : Channel) (x : Half) (s : State) : (pushPrev ch x s).blkLen = s.blkLen := by cases ch <;> rfl
@[simp] theorem pushPrev_smpIn (ch : Channel) (x : Half) (s : State) : (pushPrev ch x s).smpIn = s.smpIn := by cases ch <;> rfl
@[simp] theorem pushPrev_blkidxIn (ch : Channel) (x : Half) (s : State) : (pushPrev ch x s).blkidxIn = s.blkidxIn := by cases ch <;> rfl
@[simp] theorem pushPrev_loopBeginSample (ch : Channel) (x : Half) (s : State) : (pushPrev ch x s).loopBeginSample = s.loopBeginSample := by cases ch <;> rfl
@[simp] theorem pushPrev_loopEndSample (ch : Channel) (x : Half) (s : State) : (pushPrev ch x s).loopEndSample = s.loopEndSample := by cases ch <;> rfl
@[simp] theorem pushPrev_coef0 (ch : Channel) (x : Half) (s : State) : (pushPrev ch x s).coef0 = s.coef0 := by cases ch <;> rfl
@[simp] theorem pushPrev_coef1 (ch : Channel) (x : Half) (s : State) : (pushPrev ch x s).coef1 = s.coef1 := by cases ch <;> rfl
@[simp] theorem pushPrev_coefValid (ch : Channel) (x : Half) (s : State) : (pushPrev ch x s).coefValid = s.coefValid := by cases ch <;> rfl
@[simp] theorem pushPrev_err (ch : Channel) (x : Half) (s : State) : (pushPrev ch x s).err = s.err := by cases ch <;> rfl
@[simp] theorem pushPrev_errcode (ch : Channel) (x : Half) (s : State) : (pushPrev ch x s).errcode = s.errcode := by cases ch <;> rfl
@[simp] theorem pushPrev_errinfo (ch : Channel) (x : Half) (s : State) : (pushPrev ch x s).errinfo = s.errinfo := by cases ch <;> rfl
@[simp] theorem pushPrev_samplesDone (ch : Channel) (x : Half) (s : State) : (pushPrev ch x s).samplesDone = s.samplesDone := by cases ch <;> rfl
@[simp] theorem pushPrev_blocksDone (ch : Channel) (x : Half) (s : State) : (pushPrev ch x s).blocksDone = s.blocksDone := by cases ch <;> rfl
@[simp] theorem pushPrev_nout (ch : Channel) (x : Half) (s : State) : (pushPrev ch x s).nout = s.nout := by cases ch <;> rfl
@[simp] theorem pushPrev_offOut (ch : Channel) (x : Half) (s : State) : (pushPrev ch x s).offOut = s.offOut := by cases ch <;> rfl
@[simp] theorem pushPrev_loopEnabled (ch : Channel) (x : Half) (s : State) : (pushPrev ch x s).loopEnabled = s.loopEnabled := by cases ch <;> rfl
@[simp] theorem pushPrev_loopBeginByte (ch : Channel) (x : Half) (s : State) : (pushPrev ch x s).loopBeginByte = s.loopBeginByte := by cases ch <;> rfl
@[simp] theorem pushPrev_loopEndByte (ch : Channel) (x : Half) (s : State) : (pushPrev ch x s).loopEndByte = s.loopEndByte := by cases ch <;> rfl
@[simp] theorem pushPrev_blk (ch : Channel) (x : Half) (s : State) : (pushPrev ch x s).blk = s.blk := by cases ch <;> rfl
@[simp] theorem pushPrev_pcm (ch : Channel) (x : Half) (s : State) : (pushPrev ch x s).pcm = s.pcm := by cases ch <;> rfl
@[simp] theorem pushPrev_openParams (ch : Channel) (x : Half) (s : State) : (pushPrev ch x s).openParams = s.openParams := by cases ch <;> rfl
@[simp] theorem pushPrev_host (ch : Channel) (x : Half) (s : State) : (pushPrev ch x s).host = s.host := by cases ch <;> rfl
@[simp] theorem pushPrev_dout (ch : Channel) (x : Half) (s : State) : (pushPrev ch x s).dout = s.dout := by cases ch <;> rfl
@[simp] theorem pushPrev_epoch (ch : Channel) (x : Half) (s : State) : (pushPrev ch x s).epoch = s.epoch := by cases ch <;> rfl
@[simp] theorem pushPrev_draws (ch : Channel) (x : Half) (s : State) : (pushPrev ch x s).draws = s.draws := by cases ch <;> rfl

/-! ### recordError -/

@[simp] theorem recordError_blockSize (c : Cause) (cw : Word) (s : State) : (recordError c cw s).blockSize = s.blockSize := by unfold recordError; split <;> simp_all
@[simp] theorem recordError_bitdepth (c : Cause) (cw : Word) (s : State) : (recordError c cw s).bitdepth = s.bitdepth := by unfold recordError; split <;> simp_all
@[simp] theorem recordError_channels (c : Cause) (cw : Word) (s : State) : (recordError c cw s).channels = s.channels := by unfold recordError; split <;> simp_all
@[simp] theorem recordError_sampleRate (c : Cause) (cw : Word) (s : State) : (recordError c cw s).sampleRate = s.sampleRate := by unfold recordError; split <;> simp_all
@[simp] theorem recordError_highpass (c : Cause) (cw : Word) (s : State) : (recordError c cw s).highpass = s.highpass := by unfold recordError; split <;> simp_all
@[simp] theorem recordError_totalSamples (c : Cause) (cw : Word) (s : State) : (recordError c cw s).totalSamples = s.totalSamples := by unfold recordError; split <;> simp_all
@[simp] theorem recordError_copyrightOffset (c : Cause) (cw : Word) (s : State) : (recordError c cw s).copyrightOffset = s.copyrightOffset := by unfold recordError; split <;> simp_all
@[simp] theorem recordError_blkLen (c : Cause) (cw : Word) (s : State) : (recordError c cw s).blkLen = s.blkLen := by unfold recordError; split <;> simp_all
@[simp] theorem recordError_smpIn (c : Cause) (cw : Word) (s : State) : (recordError c cw s).smpIn = s.smpIn := by unfold recordError; split <;> simp_all
@[simp] theorem recordError_blkidxIn (c : Cause) (cw : Word) (s : State) : (recordError c cw s).blkidxIn = s.blkidxIn := by unfold recordError; split <;> simp_all
@[simp] theorem recordError_loopBeginSample (c : Cause) (cw : Word) (s : State) : (recordError c cw s).loopBeginSample = s.loopBeginSample := by unfold recordError; split <;> simp_all
@[simp] theorem recordError_loopEndSample (c : Cause) (cw : Word) (s : State) : (recordError c cw s).loopEndSample = s.loopEndSample := by unfold recordError; split <;> simp_all
@[simp] theorem recordError_coef0 (c : Cause) (cw : Word) (s : State) : (recordError c cw s).coef0 = s.coef0 := by unfold recordError; split <;> simp_all
@[simp] theorem recordError_coef1 (c : Cause) (cw : Word) (s : State) : (recordError c cw s).coef1 = s.coef1 := by unfold recordError; split <;> simp_all
@[simp] theorem recordError_coefValid (c : Cause) (cw : Word) (s : State) : (recordError c cw s).coefValid = s.coefValid := by unfold recordError; split <;> simp_all
@[simp] theorem recordError_err (c : Cause) (cw : Word) (s : State) : (recordError c cw s).err = true := by unfold recordError; split <;> simp_all
@[simp] theorem recordError_errcode (c : Cause) (cw : Word) (s : State) : (recordError c cw s).errcode = if s.err then s.errcode else causeCode c := by unfold recordError; split <;> simp_all
@[simp] theorem recordError_errinfo (c : Cause) (cw : Word) (s : State) : (recordError c cw s).errinfo = if s.err then s.errinfo else cw := by unfold recordError; split <;> simp_all
@[simp] theorem recordError_pred0 (c : Cause) (cw : Word) (s : State) : (recordError c cw s).pred0 = s.pred0 := by unfold recordError; split <;> simp_all
@[simp] theorem recordError_pred1 (c : Cause) (cw : Word) (s : State) : (recordError c cw s).pred1 = s.pred1 := by unfold recordError; split <;> simp_all
@[simp] theorem recordError_samplesDone (c : Cause) (cw : Word) (s : State) : (recordError c cw s).samplesDone = s.samplesDone := by unfold recordError; split <;> simp_all
@[simp] theorem recordError_blocksDone (c : Cause) (cw : Word) (s : State) : (recordError c cw s).blocksDone = s.blocksDone := by unfold recordError; split <;> simp_all
@[simp] theorem recordError_nout (c : Cause) (cw : Word) (s : State) : (recordError c cw s).nout = s.nout := by unfold recordError; split <;> simp_all
@[simp] theorem recordError_offOut (c : Cause) (cw : Word) (s : State) : (recordError c cw s).offOut = s.offOut := by unfold recordError; split <;> simp_all
@[simp] theorem recordError_loopEnabled (c : Cause) (cw : Word) (s : State) : (recordError c cw s).loopEnabled = s.loopEnabled := by unfold recordError; split <;> simp_all
@[simp] theorem recordError_loopBeginByte (c : Cause) (cw : Word) (s : State) : (recordError c cw s).loopBeginByte = s.loopBeginByte := by unfold recordError; split <;> simp_all
@[simp] theorem recordError_loopEndByte (c : Cause) (cw : Word) (s : State) : (recordError c cw s).loopEndByte = s.loopEndByte := by unfold recordError; split <;> simp_all
@[simp] theorem recordError_blk (c : Cause) (cw : Word) (s : State) : (recordError c cw s).blk = s.blk := by unfold recordError; split <;> simp_all
@[simp] theorem recordError_pcm (c : Cause) (cw : Word) (s : State) : (recordError c cw s).pcm = s.pcm := by unfold recordError; split <;> simp_all
@[simp] theorem recordError_openParams (c : Cause) (cw : Word) (s : State) : (recordError c cw s).openParams = s.openParams := by unfold recordError; split <;> simp_all
@[simp] theorem recordError_host (c : Cause) (cw : Word) (s : State) : (recordError c cw s).host = s.host := by unfold recordError; split <;> simp_all
@[simp] theorem recordError_dout (c : Cause) (cw : Word) (s : State) : (recordError c cw s).dout = s.dout := by unfold recordError; split <;> simp_all
@[simp] theorem recordError_epoch (c : Cause) (cw : Word) (s : State) : (recordError c cw s).epoch = s.epoch := by unfold recordError; split <;> simp_all
@[simp] theorem recordError_draws (c : Cause) (cw : Word) (s : State) : (recordError c cw s).draws = s.draws := by unfold recordError; split <;> simp_all

/-! ### afterRead -/

@[simp] theorem afterRead_blockSize (r : Reg) (s : State) : (afterRead r s).blockSize = s.blockSize := by unfold afterRead; split <;> rfl
@[simp] theorem afterRead_bitdepth (r : Reg) (s : State) : (afterRead r s).bitdepth = s.bitdepth := by unfold afterRead; split <;> rfl
@[simp] theorem afterRead_channels (r : Reg) (s : State) : (afterRead r s).channels = s.channels := by unfold afterRead; split <;> rfl
@[simp] theorem afterRead_sampleRate (r : Reg) (s : State) : (afterRead r s).sampleRate = s.sampleRate := by unfold afterRead; split <;> rfl
@[simp] theorem afterRead_highpass (r : Reg) (s : State) : (afterRead r s).highpass = s.highpass := by unfold afterRead; split <;> rfl
@[simp] theorem afterRead_totalSamples (r : Reg) (s : State) : (afterRead r s).totalSamples = s.totalSamples := by unfold afterRead; split <;> rfl
@[simp] theorem afterRead_copyrightOffset (r : Reg) (s : State) : (afterRead r s).copyrightOffset = s.copyrightOffset := by unfold afterRead; split <;> rfl
@[simp] theorem afterRead_blkLen (r : Reg) (s : State) : (afterRead r s).blkLen = s.blkLen := by unfold afterRead; split <;> rfl
@[simp] theorem afterRead_smpIn (r : Reg) (s : State) : (afterRead r s).smpIn = s.smpIn := by unfold afterRead; split <;> rfl
@[simp] theorem afterRead_blkidxIn (r : Reg) (s : State) : (afterRead r s).blkidxIn = s.blkidxIn := by unfold afterRead; split <;> rfl
@[simp] theorem afterRead_loopBeginSample (r : Reg) (s : State) : (afterRead r s).loopBeginSample = s.loopBeginSample := by unfold afterRead; split <;> rfl
@[simp] theorem afterRead_loopEndSample (r : Reg) (s : State) : (afterRead r s).loopEndSample = s.loopEndSample := by unfold afterRead; split <;> rfl
@[simp] theorem afterRead_coef0 (r : Reg) (s : State) : (afterRead r s).coef0 = s.coef0 := by unfold afterRead; split <;> rfl
@[simp] theorem afterRead_coef1 (r : Reg) (s : State) : (afterRead r s).coef1 = s.coef1 := by unfold afterRead; split <;> rfl
@[simp] theorem afterRead_coefValid (r : Reg) (s : State) : (afterRead r s).coefValid = s.coefValid := by unfold afterRead; split <;> rfl
@[simp] theorem afterRead_err (r : Reg) (s : State) : (afterRead r s).err = s.err := by unfold afterRead; split <;> rfl
@[simp] theorem afterRead_errcode (r : Reg) (s : State) : (afterRead r s).errcode = s.errcode := by unfold afterRead; split <;> rfl
@[simp] theorem afterRead_errinfo (r : Reg) (s : State) : (afterRead r s).errinfo = s.errinfo := by unfold afterRead; split <;> rfl
@[simp] theorem afterRead_pred0 (r : Reg) (s : State) : (afterRead r s).pred0 = s.pred0 := by unfold afterRead; split <;> rfl
@[simp] theorem afterRead_pred1 (r : Reg) (s : State) : (afterRead r s).pred1 = s.pred1 := by unfold afterRead; split <;> rfl
@[simp] theorem afterRead_samplesDone (r : Reg) (s : State) : (afterRead r s).samplesDone = s.samplesDone := by unfold afterRead; split <;> rfl
@[simp] theorem afterRead_blocksDone (r : Reg) (s : State) : (afterRead r s).blocksDone = s.blocksDone := by unfold afterRead; split <;> rfl
@[simp] theorem afterRead_nout (r : Reg) (s : State) : (afterRead r s).nout = s.nout := by unfold afterRead; split <;> rfl
@[simp] theorem afterRead_offOut (r : Reg) (s : State) : (afterRead r s).offOut = s.offOut := by unfold afterRead; split <;> rfl
@[simp] theorem afterRead_loopEnabled (r : Reg) (s : State) : (afterRead r s).loopEnabled = s.loopEnabled := by unfold afterRead; split <;> rfl
@[simp] theorem afterRead_loopBeginByte (r : Reg) (s : State) : (afterRead r s).loopBeginByte = s.loopBeginByte := by unfold afterRead; split <;> rfl
@[simp] theorem afterRead_loopEndByte (r : Reg) (s : State) : (afterRead r s).loopEndByte = s.loopEndByte := by unfold afterRead; split <;> rfl
@[simp] theorem afterRead_blk (r : Reg) (s : State) : (afterRead r s).blk = s.blk := by unfold afterRead; split <;> rfl
@[simp] theorem afterRead_pcm (r : Reg) (s : State) : (afterRead r s).pcm = s.pcm := by unfold afterRead; split <;> rfl
@[simp] theorem afterRead_openParams (r : Reg) (s : State) : (afterRead r s).openParams = s.openParams := by unfold afterRead; split <;> rfl
@[simp] theorem afterRead_host (r : Reg) (s : State) : (afterRead r s).host = s.host := by unfold afterRead; split <;> rfl
@[simp] theorem afterRead_dout (r : Reg) (s : State) : (afterRead r s).dout = s.dout := by unfold afterRead; split <;> rfl
@[simp] theorem afterRead_epoch (r : Reg) (s : State) : (afterRead r s).epoch = s.epoch := by unfold afterRead; split <;> rfl

end Sys2Proof.Machine
end

