-- ==== Sys2Proof/Laws/Memory.lean ====
section
/-! SUPPORT. The laws of the buffers: a read after a write, and that a write keeps the canonical form. -/

namespace Sys2Proof.Machine

theorem memLookup_memStore {w : Nat} (m : List (Nat × BitVec w)) (a b : Nat) (v : BitVec w) :
    memLookup (memStore m a v) b = if b = a then some v else memLookup m b := by
  induction m with
  | nil => simp [memStore, memLookup, eq_comm]
  | cons c m ih =>
    obtain ⟨c, u⟩ := c
    simp only [memStore]
    by_cases h1 : a < c
    · by_cases h : b = a
      · simp [h1, memLookup, h]
      · simp [h1, memLookup, h, Ne.symm h]
    · by_cases h2 : a = c
      · subst h2
        by_cases h : b = a
        · simp [memLookup, h]
        · simp [memLookup, h, Ne.symm h]
      · simp only [h1, h2, if_false, memLookup, ih]
        by_cases h3 : c = b
        · subst h3; simp [Ne.symm h2]
        · simp [h3]

@[simp] theorem memLookup_memStore_same {w : Nat} (m : List (Nat × BitVec w)) (a : Nat) (v : BitVec w) :
    memLookup (memStore m a v) a = some v := by simp [memLookup_memStore]

theorem memLookup_memStore_other {w : Nat} (m : List (Nat × BitVec w)) {a b : Nat} (v : BitVec w) (h : b ≠ a) :
    memLookup (memStore m a v) b = memLookup m b := by simp [memLookup_memStore, h]

theorem memRising_memStore {w : Nat} (cap lo : Nat) (m : List (Nat × BitVec w)) (a : Nat) (v : BitVec w)
    (hm : memRising cap lo m = true) (hlo : lo ≤ a) (hcap : a < cap) : memRising cap lo (memStore m a v) = true := by
  induction m generalizing lo with
  | nil => simp [memStore, memRising, hlo, hcap]
  | cons c m ih =>
    obtain ⟨c, u⟩ := c
    simp only [memRising, Bool.and_eq_true, decide_eq_true_eq] at hm
    simp only [memStore]
    split
    · rename_i h
      simp only [memRising, Bool.and_eq_true, decide_eq_true_eq]
      exact ⟨⟨hlo, hcap⟩, ⟨h, hm.1.2⟩, hm.2⟩
    · split
      · rename_i h
        subst h
        simp only [memRising, Bool.and_eq_true, decide_eq_true_eq]
        exact ⟨⟨hlo, hcap⟩, hm.2⟩
      · simp only [memRising, Bool.and_eq_true, decide_eq_true_eq]
        exact ⟨hm.1, ih (c + 1) hm.2 (by omega)⟩

/-- Every buffer write inside the space keeps the canonical form. -/
theorem wf_memStore {w : Nat} {cap : Nat} {m : List (Nat × BitVec w)} (a : Nat) (v : BitVec w)
    (hm : Memory.wf cap m = true) (h : a < cap) : Memory.wf cap (memStore m a v) = true :=
  memRising_memStore cap 0 m a v hm (Nat.zero_le a) h

theorem wf_nil {w : Nat} (cap : Nat) : Memory.wf cap ([] : List (Nat × BitVec w)) = true := rfl

/-- Writing the value an element already lists changes nothing (20_memory R76). -/
theorem memStore_same {w : Nat} (cap lo : Nat) (m : List (Nat × BitVec w)) (a : Nat) (v : BitVec w)
    (hm : memRising cap lo m = true) (h : memLookup m a = some v) : memStore m a v = m := by
  induction m generalizing lo with
  | nil => simp [memLookup] at h
  | cons c m ih =>
    obtain ⟨c, u⟩ := c
    have hgt : ∀ (m : List (Nat × BitVec w)) (k : Nat), memRising cap k m = true → memLookup m a = some v → k ≤ a := by
      intro m
      induction m with
      | nil => intro k _ h; simp [memLookup] at h
      | cons d m ih =>
        obtain ⟨d, x⟩ := d
        intro k hk h
        simp only [memRising, Bool.and_eq_true, decide_eq_true_eq] at hk
        simp only [memLookup] at h
        split at h
        · omega
        · have := ih _ hk.2 h
          omega
    simp only [memRising, Bool.and_eq_true, decide_eq_true_eq] at hm
    simp only [memLookup] at h
    simp only [memStore]
    split at h
    · rename_i hc
      subst hc
      simp_all
    · rename_i hc
      have h1 := hgt m _ hm.2 h
      rw [if_neg (by omega), if_neg (by omega), ih _ hm.2 h]

/-! ### Reads after writes -/

@[simp] theorem readBlk_writeBlk_same (a : Nat) (v : Byte) (s : State) : readBlk (writeBlk a v s) a = v := by
  simp [readBlk]

theorem readBlk_writeBlk_other {a b : Nat} (v : Byte) (s : State) (h : b ≠ a) :
    readBlk (writeBlk a v s) b = readBlk s b := by
  simp [readBlk, memLookup_memStore_other _ _ h]

@[simp] theorem readPcm_writePcm_same (a : Nat) (v : Half) (s : State) : readPcm (writePcm a v s) a = v := by
  simp [readPcm]

theorem readPcm_writePcm_other {a b : Nat} (v : Half) (s : State) (h : b ≠ a) :
    readPcm (writePcm a v s) b = readPcm s b := by
  simp [readPcm, memLookup_memStore_other _ _ h]

@[simp] theorem readPcm_writeBlk (a b : Nat) (v : Byte) (s : State) : readPcm (writeBlk a v s) b = readPcm s b := rfl

@[simp] theorem readBlk_writePcm (a b : Nat) (v : Half) (s : State) : readBlk (writePcm a v s) b = readBlk s b := rfl

@[simp] theorem readBlk_setDout (v : Word) (s : State) (a : Nat) : readBlk (setDout v s) a = readBlk s a := rfl

@[simp] theorem readPcm_setDout (v : Word) (s : State) (a : Nat) : readPcm (setDout v s) a = readPcm s a := rfl

@[simp] theorem readBlk_pushPrev (ch : Channel) (x : Half) (s : State) (a : Nat) :
    readBlk (pushPrev ch x s) a = readBlk s a := by simp [readBlk]

@[simp] theorem readPcm_pushPrev (ch : Channel) (x : Half) (s : State) (a : Nat) :
    readPcm (pushPrev ch x s) a = readPcm s a := by simp [readPcm]

/-- The two bytes of a scale field written big-endian read back as written (20_memory R66, R68). -/
theorem readBlk16_writeBlk16 (a : Nat) (v : Half) (s : State) : readBlk16 (writeBlk16 a v s) a = v := by
  unfold readBlk16 writeBlk16
  rw [readBlk_writeBlk_other _ _ (by omega), readBlk_writeBlk_same, readBlk_writeBlk_same]
  apply BitVec.eq_of_toNat_eq
  have := v.isLt
  simp only [BitVec.toNat_ofNat, BitVec.extractLsb'_toNat, Nat.shiftRight_eq_div_pow]
  omega

theorem readBlk_writeBlk16_other {a b : Nat} (v : Half) (s : State) (h0 : b ≠ a) (h1 : b ≠ a + 1) :
    readBlk (writeBlk16 a v s) b = readBlk s b := by
  unfold writeBlk16
  rw [readBlk_writeBlk_other _ _ h1, readBlk_writeBlk_other _ _ h0]

end Sys2Proof.Machine
end

