-- ==== Sys2Proof/Laws/Ops.lean ====
section
/-! SUPPORT. The laws of the control operations: what a check, a refusal, a fault and a completion answer. -/

namespace Sys2Proof.Machine

theorem unlessFaulted_clear {s : State} (k : Result) (h : s.err = false) : unlessFaulted s k = k := by
  simp [unlessFaulted, h]

theorem unlessFaulted_faulted {s : State} (k : Result) (h : s.err = true) :
    unlessFaulted s k = .next (setDout 0#32 s) := by simp [unlessFaulted, h, refuse, complete]

theorem check_pass {p : Prop} [Decidable p] (c : Cause) (cw : Word) (s : State) (k : Result) (h : p) :
    check p c cw s k = k := by simp [check, h]

theorem check_fail {p : Prop} [Decidable p] (c : Cause) (cw : Word) (s : State) (k : Result) (h : ¬p) :
    check p c cw s k = raise c cw s := by simp [check, h]

/-- A fault with `ERR` = 0 writes the error record and `dout` = 0 (60_exceptions R274). -/
theorem raise_clear (c : Cause) (cw : Word) {s : State} (h : s.err = false) :
    raise c cw s = .next { s with err := true, errcode := causeCode c, errinfo := cw, dout := 0#32 } := by
  simp [raise, complete, recordError, setDout, h]

/-- A fault with `ERR` = 1 already keeps the first record (60_exceptions R274). -/
theorem raise_faulted (c : Cause) (cw : Word) {s : State} (h : s.err = true) :
    raise c cw s = .next (setDout 0#32 s) := by
  simp [raise, complete, recordError, h]

theorem complete_eq (s : State) : complete s = .next (setDout 0#32 s) := rfl

theorem answer_eq (v : Word) (s : State) : answer v s = .next (setDout v s) := rfl

/-- Everything a check can answer: what follows it, or its fault. -/
theorem check_cases {p : Prop} [Decidable p] {c : Cause} {cw : Word} {s : State} {k r : Result}
    (h : check p c cw s k = r) : (p ∧ k = r) ∨ (¬p ∧ raise c cw s = r) := by
  unfold check at h
  split at h
  · exact .inl ⟨‹_›, h⟩
  · exact .inr ⟨‹_›, h⟩

/-- Everything the refusal gate can answer: what follows it with `ERR` = 0, or nothing changed but `dout` = 0. -/
theorem unlessFaulted_cases {s : State} {k r : Result} (h : unlessFaulted s k = r) :
    (s.err = false ∧ k = r) ∨ (s.err = true ∧ Host.Outcome.next (setDout 0#32 s) = r) := by
  cases he : s.err
  · exact .inl ⟨rfl, by rwa [unlessFaulted_clear k he] at h⟩
  · exact .inr ⟨rfl, by rwa [unlessFaulted_faulted k he] at h⟩

theorem causeCode_pos (c : Cause) : 1 ≤ (causeCode c).toNat ∧ (causeCode c).toNat ≤ 8 := by cases c <;> decide

end Sys2Proof.Machine
end

