-- ==== Sys2Proof/Laws/Operands.lean ====
section
/-! SUPPORT. The laws of the operands: the register map, samples per block, the bounds of the buffer indices, and the
fields of a command word. -/

namespace Sys2Proof

theorem Opcode.byte_lt (op : Opcode) : op.byte.toNat < 256 := op.byte.isLt

theorem toNat_commandWord (op : Opcode) (idx : Half) :
    (commandWord op idx).toNat = idx.toNat * 2 ^ 8 + op.byte.toNat := by
  have := idx.isLt
  have := op.byte_lt
  simp only [commandWord, BitVec.toNat_ofNat]
  omega

theorem opField_commandWord (op : Opcode) (idx : Half) : opField (commandWord op idx) = op.byte := by
  have := op.byte_lt
  apply BitVec.eq_of_toNat_eq
  simp only [opField, BitVec.extractLsb'_toNat, toNat_commandWord, Nat.shiftRight_eq_div_pow]
  omega

theorem idxField_commandWord (op : Opcode) (idx : Half) : idxField (commandWord op idx) = idx := by
  have := idx.isLt
  have := op.byte_lt
  apply BitVec.eq_of_toNat_eq
  simp only [idxField, BitVec.extractLsb'_toNat, toNat_commandWord, Nat.shiftRight_eq_div_pow]
  omega

theorem rsvField_commandWord (op : Opcode) (idx : Half) : rsvField (commandWord op idx) = 0#8 := by
  have := idx.isLt
  have := op.byte_lt
  apply BitVec.eq_of_toNat_eq
  simp only [rsvField, BitVec.extractLsb'_toNat, toNat_commandWord, Nat.shiftRight_eq_div_pow, BitVec.toNat_ofNat]
  omega

theorem Opcode.ofByte_byte (op : Opcode) : Opcode.ofByte op.byte = some op := by cases op <;> rfl

namespace Machine

theorem regOfNumber_regNumber (r : Reg) : regOfNumber (regNumber r) = some r := by cases r <;> rfl

theorem blkLen_of_writable {r : Reg} {w : Nat} (h : writableWidth r = some w) : w = 8 ∨ w = 16 ∨ w = 32 := by
  cases r <;> simp_all [writableWidth]

/-- With legal parameters, `SPB` is `(BLOCK_SIZE - 2) * 2` (43_loopconv R230). -/
theorem spb_eq {s : State} (h : ParamsLegal s) : spb s = (s.blockSize.toNat - 2) * 2 := by
  unfold spb
  rw [h.2.1, show (4#8).toNat = 4 from rfl]
  omega

theorem spb_bounds {s : State} (h : ParamsLegal s) : 2 ≤ spb s ∧ spb s ≤ 506 ∧ spb s % 2 = 0 := by
  have h1 := spb_eq h
  have h2 := h.1
  have h3 := s.blockSize.isLt
  omega

theorem channels_toNat {s : State} (h : ParamsLegal s) : s.channels.toNat = 1 ∨ s.channels.toNat = 2 := by
  rcases h.2.2 with h | h <;> simp [h]

theorem blockBytes_bounds {s : State} (h : ParamsLegal s) : 3 ≤ blockBytes s ∧ blockBytes s ≤ 510 := by
  have h3 := s.blockSize.isLt
  have h4 := h.1
  unfold blockBytes
  rcases channels_toNat h with h' | h' <;> rw [h'] <;> omega

theorem mem_activeChannels {s : State} (h : ParamsLegal s) (ch : Channel) :
    ch ∈ activeChannels s ↔ channelIndex ch < s.channels.toNat := by
  rcases h.2.2 with h | h <;> cases ch <;> simp [activeChannels, channelIndex, h]

theorem activeChannels_one {s : State} (h : s.channels = 1#8) : activeChannels s = [.ch0] := by
  simp [activeChannels, h]

theorem activeChannels_two {s : State} (h : s.channels = 2#8) : activeChannels s = [.ch0, .ch1] := by
  simp [activeChannels, h]

/-- A block command forms no `PCM` index outside the space (20_memory R74). -/
theorem pcmIndex_lt {s : State} (h : ParamsLegal s) {ch : Channel} (hc : ch ∈ activeChannels s) {j n : Nat}
    (hj : j < n) : pcmIndex s ch j < n * s.channels.toNat := by
  have h1 := (mem_activeChannels h ch).1 hc
  unfold pcmIndex
  have : (j + 1) * s.channels.toNat ≤ n * s.channels.toNat := Nat.mul_le_mul_right _ hj
  have h2 : (j + 1) * s.channels.toNat = j * s.channels.toNat + s.channels.toNat := by ring
  omega

theorem frame_le_pcmWords {s : State} (h : ParamsLegal s) {n : Nat} (hn : n ≤ spb s) :
    n * s.channels.toNat ≤ pcmWords := by
  have h1 := spb_bounds h
  unfold pcmWords
  rcases channels_toNat h with h' | h' <;> rw [h'] <;> omega

/-- A channel's segment of `BLK` lies inside the block (20_memory R70). -/
theorem segment_le {s : State} (h : ParamsLegal s) {ch : Channel} (hc : ch ∈ activeChannels s) :
    segmentBase s ch + s.blockSize.toNat ≤ blockBytes s := by
  have h1 := (mem_activeChannels h ch).1 hc
  unfold segmentBase blockBytes
  have : (channelIndex ch + 1) * s.blockSize.toNat ≤ s.channels.toNat * s.blockSize.toNat :=
    Nat.mul_le_mul_right _ h1
  have h2 : (channelIndex ch + 1) * s.blockSize.toNat = channelIndex ch * s.blockSize.toNat + s.blockSize.toNat := by
    ring
  have h3 : s.blockSize.toNat * s.channels.toNat = s.channels.toNat * s.blockSize.toNat := Nat.mul_comm _ _
  omega

/-- The indices of two positions of the frame are different unless channel and position agree (20_memory R72). -/
theorem pcmIndex_inj {s : State} (h : ParamsLegal s) {ch ch' : Channel} (hc : ch ∈ activeChannels s)
    (hc' : ch' ∈ activeChannels s) {j j' : Nat} (e : pcmIndex s ch j = pcmIndex s ch' j') : ch = ch' ∧ j = j' := by
  have h1 := (mem_activeChannels h ch).1 hc
  have h2 := (mem_activeChannels h ch').1 hc'
  unfold pcmIndex at e
  rcases channels_toNat h with h' | h' <;> rw [h'] at e h1 h2 <;> cases ch <;> cases ch' <;>
    simp only [channelIndex] at e h1 h2 ⊢ <;> first | exact ⟨trivial, by omega⟩ | omega

@[simp] theorem prediction_pushPrev_same (ch : Channel) (x : Half) (s : State) :
    prediction (pushPrev ch x s) ch = ⟨x, (prediction s ch).prev1⟩ := by cases ch <;> rfl

theorem prediction_pushPrev_other {ch ch' : Channel} (x : Half) (s : State) (h : ch' ≠ ch) :
    prediction (pushPrev ch x s) ch' = prediction s ch' := by cases ch <;> cases ch' <;> first | rfl | exact absurd rfl h

@[simp] theorem prediction_writePcm (a : Nat) (v : Half) (s : State) (ch : Channel) :
    prediction (writePcm a v s) ch = prediction s ch := by cases ch <;> rfl

@[simp] theorem prediction_writeBlk (a : Nat) (v : Byte) (s : State) (ch : Channel) :
    prediction (writeBlk a v s) ch = prediction s ch := by cases ch <;> rfl

theorem clamp16_bounds (v : Int) : -32768 ≤ clamp16 v ∧ clamp16 v ≤ 32767 := by
  unfold clamp16 clampInt
  split
  · omega
  · split <;> omega

/-- A clamped value is stored without loss (10_state R36). -/
theorem toInt_ofInt_clamp16 (v : Int) : (BitVec.ofInt 16 (clamp16 v)).toInt = clamp16 v := by
  have h := clamp16_bounds v
  rw [BitVec.toInt_ofInt, Int.bmod_def]
  simp only [Nat.reducePow]
  split <;> omega

end Machine
end Sys2Proof
end

