-- ==== Sys2Proof/Laws/Decoder.lean ====
section
/-! SUPPORT. Everything the block decoder can do: one lemma for a channel, one for a frame. -/

namespace Sys2Proof.Machine

/-- The sample the decoder gives position `j` of a channel whose samples are `x`, from the state before the block
(41_decode R167). -/
def decodedAt (s : State) (ch : Channel) (scale : Half) (x : Nat → Half) (j : Nat) : Half :=
  BitVec.ofInt 16 (clamp16 (sext4 (nibble s (segmentBase s ch + 2) j) * (scale.toNat : Int) +
    predIntOf s.coef0 s.coef1 (history (prediction s ch) x j)))

/-- The history before position `j` depends on the samples before it only. -/
theorem history_congr (p : Prediction) {x y : Nat → Half} {j : Nat} (h : ∀ k, k < j → x k = y k) :
    history p x j = history p y j := by
  induction j with
  | zero => rfl
  | succ j ih =>
    simp only [history]
    rw [h j (Nat.lt_succ_self j), ih fun k hk => h k (Nat.lt_succ_of_lt hk)]

/-- What the decoder of a channel leaves alone. -/
theorem decodePosition_frame (ch : Channel) (scale : Half) (s : State) (j : Nat) :
    decodePosition ch scale s j =
      { s with
        pcm := (decodePosition ch scale s j).pcm
        pred0 := (decodePosition ch scale s j).pred0
        pred1 := (decodePosition ch scale s j).pred1 } := by
  cases ch <;> rfl

/-- Positions 0 to n - 1 of one channel. -/
def decodeRun (ch : Channel) (scale : Half) (n : Nat) (s : State) : State :=
  (List.range n).foldl (decodePosition ch scale) s

theorem decodeRun_succ (ch : Channel) (scale : Half) (n : Nat) (s : State) :
    decodeRun ch scale (n + 1) s = decodePosition ch scale (decodeRun ch scale n s) n := by
  simp [decodeRun, List.range_succ, List.foldl_append]

theorem decodeRun_frame (ch : Channel) (scale : Half) (n : Nat) (s : State) :
    decodeRun ch scale n s =
      { s with
        pcm := (decodeRun ch scale n s).pcm
        pred0 := (decodeRun ch scale n s).pred0
        pred1 := (decodeRun ch scale n s).pred1 } := by
  induction n with
  | zero => rfl
  | succ n ih =>
    rw [decodeRun_succ]
    generalize decodeRun ch scale n s = t at ih ⊢
    rw [decodePosition_frame, ih]

/-- Everything the decoder of one channel does: the other channel's state is kept, its own is the history of the
samples it writes, each sample is the recurrence of 41_decode R167, and no other word of `PCM` changes. -/
theorem decodeRun_spec (ch : Channel) (scale : Half) (n : Nat) (s : State) (hc : 0 < s.channels.toNat) :
    (∀ ch', ch' ≠ ch → prediction (decodeRun ch scale n s) ch' = prediction s ch') ∧
    prediction (decodeRun ch scale n s) ch =
      history (prediction s ch) (fun k => readPcm (decodeRun ch scale n s) (pcmIndex s ch k)) n ∧
    (∀ j, j < n → readPcm (decodeRun ch scale n s) (pcmIndex s ch j) =
      decodedAt s ch scale (fun k => readPcm (decodeRun ch scale n s) (pcmIndex s ch k)) j) ∧
    (∀ a, (∀ j, j < n → a ≠ pcmIndex s ch j) → readPcm (decodeRun ch scale n s) a = readPcm s a) ∧
    (∀ cap, Memory.wf cap s.pcm = true → (∀ j, j < n → pcmIndex s ch j < cap) →
      Memory.wf cap (decodeRun ch scale n s).pcm = true) := by
  induction n with
  | zero =>
    refine ⟨fun _ _ => rfl, rfl, fun j hj => absurd hj (Nat.not_lt_zero j), fun _ _ => rfl, fun _ h _ => h⟩
  | succ n ih =>
    obtain ⟨ih1, ih2, ih3, ih4, ih5⟩ := ih
    have hf := decodeRun_frame ch scale n s
    rw [decodeRun_succ]
    generalize decodeRun ch scale n s = t at *
    have hi : ∀ k, pcmIndex t ch k = pcmIndex s ch k := fun k => by rw [hf]; rfl
    have hn : nibble t (segmentBase t ch + 2) n = nibble s (segmentBase s ch + 2) n := by rw [hf]; rfl
    have h0 : t.coef0 = s.coef0 := by rw [hf]
    have h1 : t.coef1 = s.coef1 := by rw [hf]
    have hne : ∀ k, k < n → pcmIndex s ch k ≠ pcmIndex s ch n := by
      intro k hk
      have : (k + 1) * s.channels.toNat ≤ n * s.channels.toNat := Nat.mul_le_mul_right _ hk
      have h2 : (k + 1) * s.channels.toNat = k * s.channels.toNat + s.channels.toNat := by ring
      unfold pcmIndex
      omega
    have hx : ∀ k, k < n →
        readPcm (decodePosition ch scale t n) (pcmIndex s ch k) = readPcm t (pcmIndex s ch k) := by
      intro k hk
      simp only [decodePosition]
      rw [readPcm_writePcm_other _ _ (by rw [hi]; exact hne k hk), readPcm_pushPrev]
    have hv : readPcm (decodePosition ch scale t n) (pcmIndex s ch n) =
        decodedAt s ch scale (fun k => readPcm (decodePosition ch scale t n) (pcmIndex s ch k)) n := by
      have : decodedValue t ch (nibble t (segmentBase t ch + 2) n) scale =
          clamp16 (sext4 (nibble s (segmentBase s ch + 2) n) * (scale.toNat : Int) +
            predIntOf s.coef0 s.coef1 (history (prediction s ch)
              (fun k => readPcm (decodePosition ch scale t n) (pcmIndex s ch k)) n)) := by
        rw [history_congr _ hx, ← ih2]
        simp only [decodedValue, predInt, hn, h0, h1]
      rw [decodedAt, ← this]
      simp only [decodePosition]
      rw [← hi n, readPcm_writePcm_same]
    refine ⟨?_, ?_, ?_, ?_, ?_⟩
    · intro ch' h
      simp only [decodePosition, prediction_writePcm]
      rw [prediction_pushPrev_other _ _ h, ih1 ch' h]
    · rw [history, history_congr _ hx, ← ih2]
      simp only [decodePosition, prediction_writePcm, prediction_pushPrev_same]
      rw [← hi n, readPcm_writePcm_same]
    · intro j hj
      rcases Nat.lt_succ_iff_lt_or_eq.1 hj with h | h
      · have : decodedAt s ch scale (fun k => readPcm (decodePosition ch scale t n) (pcmIndex s ch k)) j =
            decodedAt s ch scale (fun k => readPcm t (pcmIndex s ch k)) j := by
          unfold decodedAt
          rw [history_congr _ fun k hk => hx k (Nat.lt_trans hk h)]
        rw [this, hx j h, ih3 j h]
      · rw [h]; exact hv
    · intro a ha
      simp only [decodePosition]
      rw [readPcm_writePcm_other _ _ (by rw [hi]; exact ha n (Nat.lt_succ_self n)), readPcm_pushPrev]
      exact ih4 a fun j hj => ha j (Nat.lt_succ_of_lt hj)
    · intro cap hw hcap
      simp only [decodePosition, writePcm_pcm, pushPrev_pcm]
      refine wf_memStore _ _ (ih5 cap hw fun j hj => hcap j (Nat.lt_succ_of_lt hj)) ?_
      rw [hi]; exact hcap n (Nat.lt_succ_self n)

theorem decodeChannel_eq (n : Nat) (s : State) (ch : Channel) :
    decodeChannel n s ch = decodeRun ch (readBlk16 s (segmentBase s ch)) n s := rfl

theorem decodeFrame_one {s : State} (n : Nat) (h : s.channels = 1#8) : decodeFrame n s = decodeChannel n s .ch0 := by
  simp [decodeFrame, activeChannels_one h]

theorem decodeFrame_two {s : State} (n : Nat) (h : s.channels = 2#8) :
    decodeFrame n s = decodeChannel n (decodeChannel n s .ch0) .ch1 := by
  simp [decodeFrame, activeChannels_two h]

/-- What a block decode leaves alone. -/
theorem decodeFrame_frame {s : State} (n : Nat) (h : ParamsLegal s) :
    decodeFrame n s =
      { s with
        pcm := (decodeFrame n s).pcm, pred0 := (decodeFrame n s).pred0, pred1 := (decodeFrame n s).pred1 } := by
  rcases h.2.2 with h | h
  · rw [decodeFrame_one n h, decodeChannel_eq]
    exact decodeRun_frame _ _ _ _
  · rw [decodeFrame_two n h]
    have h1 := decodeRun_frame .ch0 (readBlk16 s (segmentBase s .ch0)) n s
    rw [← decodeChannel_eq] at h1
    generalize decodeChannel n s .ch0 = t at h1 ⊢
    rw [decodeChannel_eq, decodeRun_frame, h1]

/-- Everything a block decode does to the active channels and to `PCM` (41_decode R161 to R173). -/
theorem decodeFrame_spec {s : State} (n : Nat) (h : ParamsLegal s) :
    (∀ ch, ch ∈ activeChannels s →
      prediction (decodeFrame n s) ch =
        history (prediction s ch) (fun k => readPcm (decodeFrame n s) (pcmIndex s ch k)) n ∧
      ∀ j, j < n → readPcm (decodeFrame n s) (pcmIndex s ch j) =
        decodedAt s ch (readBlk16 s (segmentBase s ch)) (fun k => readPcm (decodeFrame n s) (pcmIndex s ch k)) j) ∧
    (∀ ch, ch ∉ activeChannels s → prediction (decodeFrame n s) ch = prediction s ch) ∧
    (∀ a, n * s.channels.toNat ≤ a → readPcm (decodeFrame n s) a = readPcm s a) ∧
    (∀ cap, Memory.wf cap s.pcm = true → n * s.channels.toNat ≤ cap →
      Memory.wf cap (decodeFrame n s).pcm = true) := by
  have hpos : 0 < s.channels.toNat := by rcases channels_toNat h with h | h <;> omega
  have hlt : ∀ {ch : Channel}, ch ∈ activeChannels s → ∀ j, j < n → pcmIndex s ch j < n * s.channels.toNat :=
    fun hc _ hj => pcmIndex_lt h hc hj
  rcases h.2.2 with h1 | h2
  · have ha := activeChannels_one h1
    have hm : Channel.ch0 ∈ activeChannels s := by simp [ha]
    rw [decodeFrame_one n h1, decodeChannel_eq]
    obtain ⟨s1, s2, s3, s4, s5⟩ := decodeRun_spec .ch0 (readBlk16 s (segmentBase s .ch0)) n s hpos
    refine ⟨?_, ?_, ?_, ?_⟩
    · intro ch hc
      rw [ha, List.mem_singleton] at hc
      subst hc
      exact ⟨s2, s3⟩
    · intro ch hc
      refine s1 ch fun e => hc ?_
      rw [e]; exact hm
    · intro a hle
      exact s4 a fun j hj e => by have := hlt hm j hj; omega
    · intro cap hw hcap
      exact s5 cap hw fun j hj => Nat.lt_of_lt_of_le (hlt hm j hj) hcap
  · have ha := activeChannels_two h2
    have hm0 : Channel.ch0 ∈ activeChannels s := by simp [ha]
    have hm1 : Channel.ch1 ∈ activeChannels s := by simp [ha]
    rw [decodeFrame_two n h2]
    obtain ⟨s1, s2, s3, s4, s5⟩ := decodeRun_spec .ch0 (readBlk16 s (segmentBase s .ch0)) n s hpos
    have hf := decodeRun_frame .ch0 (readBlk16 s (segmentBase s .ch0)) n s
    simp only [← decodeChannel_eq] at s1 s2 s3 s4 s5 hf
    generalize decodeChannel n s .ch0 = t at *
    rw [decodeChannel_eq]
    have hch : t.channels = s.channels := by rw [hf]
    obtain ⟨t1, t2, t3, t4, t5⟩ :=
      decodeRun_spec .ch1 (readBlk16 t (segmentBase t .ch1)) n t (by rw [hch]; exact hpos)
    have e1 : readBlk16 t (segmentBase t .ch1) = readBlk16 s (segmentBase s .ch1) := by rw [hf]; rfl
    have e2 : ∀ ch k, pcmIndex t ch k = pcmIndex s ch k := fun ch k => by rw [hf]; rfl
    have e3 : prediction t .ch1 = prediction s .ch1 := s1 .ch1 (by decide)
    have e4 : ∀ x j, decodedAt t .ch1 (readBlk16 s (segmentBase s .ch1)) x j =
        decodedAt s .ch1 (readBlk16 s (segmentBase s .ch1)) x j := by
      intro x j
      unfold decodedAt
      rw [e3, show nibble t (segmentBase t .ch1 + 2) j = nibble s (segmentBase s .ch1 + 2) j by rw [hf]; rfl,
        show t.coef0 = s.coef0 by rw [hf], show t.coef1 = s.coef1 by rw [hf]]
    rw [e1] at t1 t2 t3 t4 t5 ⊢
    simp only [e2, e3, e4] at t1 t2 t3 t4 t5
    generalize decodeRun .ch1 (readBlk16 s (segmentBase s .ch1)) n t = u at *
    have hx : ∀ k, readPcm u (pcmIndex s .ch0 k) = readPcm t (pcmIndex s .ch0 k) := by
      intro k
      refine t4 _ fun j hj e => ?_
      have := pcmIndex_inj h hm0 hm1 e
      exact absurd this.1 (by decide)
    refine ⟨?_, ?_, ?_, ?_⟩
    · intro ch _
      cases ch
      · have : (fun k => readPcm u (pcmIndex s .ch0 k)) = fun k => readPcm t (pcmIndex s .ch0 k) := funext hx
        rw [this]
        refine ⟨by rw [t1 .ch0 (by decide), s2], fun j hj => ?_⟩
        rw [hx]
        exact s3 j hj
      · exact ⟨t2, t3⟩
    · intro ch hc
      exact absurd (by rw [ha]; cases ch <;> simp) hc
    · intro a hle
      rw [t4 a fun j hj e => by have := hlt hm1 j hj; omega]
      exact s4 a fun j hj e => by have := hlt hm0 j hj; omega
    · intro cap hw hcap
      exact t5 cap (s5 cap hw fun j hj => Nat.lt_of_lt_of_le (hlt hm0 j hj) hcap)
        fun j hj => Nat.lt_of_lt_of_le (hlt hm1 j hj) hcap

end Sys2Proof.Machine
end

