-- ==== Sys2Proof/Laws/Encoder.lean ====
section
/-! SUPPORT. Everything the block encoder can do: one lemma for the residuals, one for the packer, one for a channel, one
for a frame. -/

namespace Sys2Proof.Machine

/-- The nibble code of a position of a frame (42_encode R202 to R205). -/
def channelCode (s : State) (ch : Channel) (n j : Nat) : BitVec 4 :=
  enc4 (quantise s.openParams.rmode (residualAt s ch n j) (channelScale s ch n))

/-- Nibble byte `k` of a channel: `code(2k) * 16 + code(2k + 1)` (30_encoding R102). -/
def channelByte (s : State) (ch : Channel) (n k : Nat) : Byte :=
  BitVec.ofNat 8 ((channelCode s ch n (2 * k)).toNat * 16 + (channelCode s ch n (2 * k + 1)).toNat)

/-- The history that starts one sample later. -/
theorem history_shift (p : Prediction) (x : Nat → Half) (j : Nat) :
    history ⟨x 0, p.prev1⟩ (fun k => x (k + 1)) j = history p x (j + 1) := by
  induction j with
  | zero => rfl
  | succ j ih => simp only [history] at ih ⊢; rw [ih]

/-- What the residual loop leaves alone. -/
theorem residualRun_frame (ch : Channel) (js : List Nat) (s : State) :
    (residualRun ch js s).2 =
      { s with pred0 := (residualRun ch js s).2.pred0, pred1 := (residualRun ch js s).2.pred1 } := by
  induction js generalizing s with
  | nil => rfl
  | cons j js ih =>
    simp only [residualRun]
    rw [ih]
    cases ch <;> rfl

/-- The residual loop over any positions: each residual is the source sample minus the prediction from the history, and
the state is pushed by the source samples (42_encode R194, R195). -/
theorem residualRun_spec (ch : Channel) (js : List Nat) (s : State) :
    (residualRun ch js s).1 = (List.range js.length).map (fun i =>
      (readPcm s (pcmIndex s ch (js.getD i 0))).toInt -
        predIntOf s.coef0 s.coef1
          (history (prediction s ch) (fun k => readPcm s (pcmIndex s ch (js.getD k 0))) i)) ∧
    prediction (residualRun ch js s).2 ch =
      history (prediction s ch) (fun k => readPcm s (pcmIndex s ch (js.getD k 0))) js.length ∧
    (∀ ch', ch' ≠ ch → prediction (residualRun ch js s).2 ch' = prediction s ch') := by
  induction js generalizing s with
  | nil => exact ⟨rfl, rfl, fun _ _ => rfl⟩
  | cons j js ih =>
    have hs := ih (pushPrev ch (readPcm s (pcmIndex s ch j)) s)
    have e1 : ∀ k, pcmIndex (pushPrev ch (readPcm s (pcmIndex s ch j)) s) ch k = pcmIndex s ch k := by
      intro k; cases ch <;> rfl
    simp only [readPcm_pushPrev, e1, pushPrev_coef0, pushPrev_coef1, prediction_pushPrev_same] at hs
    have hh := history_shift (prediction s ch) (fun k => readPcm s (pcmIndex s ch ((j :: js).getD k 0)))
    simp only [List.getD_cons_zero, List.getD_cons_succ] at hh
    obtain ⟨h1, h2, h3⟩ := hs
    refine ⟨?_, ?_, ?_⟩
    · simp only [residualRun, List.length_cons]
      rw [List.range_succ_eq_map, List.map_cons, List.map_map, h1]
      congr 1
      apply List.map_congr_left
      intro i _
      simp only [Function.comp, List.getD_cons_succ]
      rw [hh]
    · simp only [residualRun, List.length_cons]
      rw [h2, hh]
    · intro ch' hne
      simp only [residualRun]
      rw [h3 ch' hne, prediction_pushPrev_other _ _ hne]

theorem range_getD {n k : Nat} (h : k < n) : (List.range n).getD k 0 = k := by
  simp [List.getD, h]

theorem residuals_eq (ch : Channel) {n : Nat} (s : State) (hn : n ≤ spb s) :
    residuals ch n s = (List.range (spb s)).map (residualAt s ch n) := by
  unfold residuals
  rw [(residualRun_spec ch (List.range n) s).1, List.length_range]
  apply List.ext_getElem
  · simp; omega
  · intro i h1 h2
    simp only [List.length_append, List.length_map, List.length_range, List.length_replicate] at h1
    rw [List.getElem_append]
    split
    · rename_i h
      simp only [List.length_map, List.length_range] at h
      simp only [List.getElem_map, List.getElem_range, residualAt, h, if_true, range_getD h]
      rw [history_congr _ fun k hk => by rw [range_getD (Nat.lt_trans hk h)]]
    · rename_i h
      simp only [List.length_map, List.length_range] at h
      simp [residualAt, h]

theorem residuals_getD (ch : Channel) {n : Nat} (s : State) (hn : n ≤ spb s) {j : Nat} (hj : j < spb s) :
    (residuals ch n s).getD j 0 = residualAt s ch n j := by
  rw [residuals_eq ch s hn]
  simp [List.getD, hj]

theorem afterResiduals_frame (ch : Channel) (n : Nat) (s : State) :
    afterResiduals ch n s =
      { s with pred0 := (afterResiduals ch n s).pred0, pred1 := (afterResiduals ch n s).pred1 } :=
  residualRun_frame ch _ s

theorem afterResiduals_spec (ch : Channel) (n : Nat) (s : State) :
    prediction (afterResiduals ch n s) ch =
      history (prediction s ch) (fun k => readPcm s (pcmIndex s ch k)) n ∧
    (∀ ch', ch' ≠ ch → prediction (afterResiduals ch n s) ch' = prediction s ch') := by
  obtain ⟨-, h2, h3⟩ := residualRun_spec ch (List.range n) s
  refine ⟨?_, h3⟩
  unfold afterResiduals
  rw [h2, List.length_range]
  exact history_congr _ fun k hk => by rw [range_getD hk]

theorem packChannel_succ (mode : RModeQuant) (d : Nat) (res : List Int) (scale count : Nat) (s : State) :
    packChannel mode d res scale (count + 1) s =
      writeBlk (d + count) (packedByte mode res scale count) (packChannel mode d res scale count s) := by
  simp [packChannel, List.range_succ, List.foldl_append]

/-- Everything the packer does (42_encode R202). -/
theorem packChannel_spec (mode : RModeQuant) (d : Nat) (res : List Int) (scale count : Nat) (s : State) :
    packChannel mode d res scale count s = { s with blk := (packChannel mode d res scale count s).blk } ∧
    (∀ k, k < count → readBlk (packChannel mode d res scale count s) (d + k) = packedByte mode res scale k) ∧
    (∀ a, (a < d ∨ d + count ≤ a) → readBlk (packChannel mode d res scale count s) a = readBlk s a) ∧
    (∀ cap, Memory.wf cap s.blk = true → d + count ≤ cap →
      Memory.wf cap (packChannel mode d res scale count s).blk = true) := by
  induction count with
  | zero => exact ⟨rfl, fun k hk => absurd hk (Nat.not_lt_zero k), fun _ _ => rfl, fun _ h _ => h⟩
  | succ count ih =>
    obtain ⟨i1, i2, i3, i4⟩ := ih
    rw [packChannel_succ]
    generalize packChannel mode d res scale count s = t at *
    refine ⟨?_, ?_, ?_, ?_⟩
    · rw [i1]; rfl
    · intro k hk
      rcases Nat.lt_succ_iff_lt_or_eq.1 hk with h | h
      · rw [readBlk_writeBlk_other _ _ (by omega)]
        exact i2 k h
      · rw [h, readBlk_writeBlk_same]
    · intro a ha
      rw [readBlk_writeBlk_other _ _ (by omega)]
      exact i3 a (by omega)
    · intro cap hw hcap
      exact wf_memStore _ _ (i4 cap hw (by omega)) (by omega)

theorem packedByte_residuals (s : State) (ch : Channel) {n : Nat} (hn : n ≤ spb s) {k : Nat} (hk : k < spb s / 2) :
    packedByte s.openParams.rmode (residuals ch n s) (channelScale s ch n) k = channelByte s ch n k := by
  unfold packedByte
  rw [residuals_getD ch s hn (by omega), residuals_getD ch s hn (by omega)]
  rfl

/-- Everything the encoder of one channel does (42_encode R191 to R206). -/
theorem encodeChannel_spec (s : State) (h : ParamsLegal s) (ch : Channel) {n : Nat} (hn : n ≤ spb s) :
    encodeChannel n s ch =
      { s with
        blk := (encodeChannel n s ch).blk, pred0 := (encodeChannel n s ch).pred0
        pred1 := (encodeChannel n s ch).pred1 } ∧
    prediction (encodeChannel n s ch) ch =
      history (prediction s ch) (fun k => readPcm s (pcmIndex s ch k)) n ∧
    (∀ ch', ch' ≠ ch → prediction (encodeChannel n s ch) ch' = prediction s ch') ∧
    readBlk16 (encodeChannel n s ch) (segmentBase s ch) = BitVec.ofNat 16 (channelScale s ch n) ∧
    (∀ k, k < spb s / 2 → readBlk (encodeChannel n s ch) (segmentBase s ch + 2 + k) = channelByte s ch n k) ∧
    (∀ a, (a < segmentBase s ch ∨ segmentBase s ch + s.blockSize.toNat ≤ a) →
      readBlk (encodeChannel n s ch) a = readBlk s a) ∧
    (∀ cap, Memory.wf cap s.blk = true → segmentBase s ch + s.blockSize.toNat ≤ cap →
      Memory.wf cap (encodeChannel n s ch).blk = true) := by
  have hsc : scaleOf s.openParams.scaleDiv (residuals ch n s) = channelScale s ch n := by
    rw [residuals_eq ch s hn]; rfl
  have hlen : segmentBase s ch + 2 + spb s / 2 = segmentBase s ch + s.blockSize.toNat := by
    have := spb_eq h
    have := h.1
    omega
  have hEq : encodeChannel n s ch = packChannel s.openParams.rmode (segmentBase s ch + 2) (residuals ch n s)
      (channelScale s ch n) (spb s / 2)
      (writeBlk16 (segmentBase s ch) (BitVec.ofNat 16 (channelScale s ch n)) (afterResiduals ch n s)) := by
    simp only [encodeChannel, hsc]
  have hfr := afterResiduals_frame ch n s
  obtain ⟨ha1, ha2⟩ := afterResiduals_spec ch n s
  rw [hEq]
  generalize afterResiduals ch n s = r at *
  have hrb : ∀ a, readBlk r a = readBlk s a := fun a => by rw [hfr]; rfl
  have hrp : ∀ a, prediction (writeBlk16 (segmentBase s ch) (BitVec.ofNat 16 (channelScale s ch n)) r) a =
      prediction r a := fun a => by simp [writeBlk16]
  have hwb : (writeBlk16 (segmentBase s ch) (BitVec.ofNat 16 (channelScale s ch n)) r) =
      { r with blk := (writeBlk16 (segmentBase s ch) (BitVec.ofNat 16 (channelScale s ch n)) r).blk } := rfl
  have h16 := readBlk16_writeBlk16 (segmentBase s ch) (BitVec.ofNat 16 (channelScale s ch n)) r
  have hot : ∀ a, (a < segmentBase s ch ∨ segmentBase s ch + 2 ≤ a) →
      readBlk (writeBlk16 (segmentBase s ch) (BitVec.ofNat 16 (channelScale s ch n)) r) a = readBlk s a := by
    intro a ha
    rw [readBlk_writeBlk16_other _ _ (by omega) (by omega), hrb]
  have hwf : ∀ cap, Memory.wf cap s.blk = true → segmentBase s ch + s.blockSize.toNat ≤ cap →
      Memory.wf cap (writeBlk16 (segmentBase s ch) (BitVec.ofNat 16 (channelScale s ch n)) r).blk = true := by
    intro cap hw hcap
    have h3 := h.1
    have hb : r.blk = s.blk := by rw [hfr]
    simp only [writeBlk16, writeBlk_blk, hb]
    exact wf_memStore _ _ (wf_memStore _ _ hw (by omega)) (by omega)
  generalize writeBlk16 (segmentBase s ch) (BitVec.ofNat 16 (channelScale s ch n)) r = u at *
  obtain ⟨p1, p2, p3, p4⟩ := packChannel_spec s.openParams.rmode (segmentBase s ch + 2) (residuals ch n s)
    (channelScale s ch n) (spb s / 2) u
  have hpp : ∀ a, prediction (packChannel s.openParams.rmode (segmentBase s ch + 2) (residuals ch n s)
      (channelScale s ch n) (spb s / 2) u) a = prediction u a := fun a => by rw [p1]; cases a <;> rfl
  refine ⟨?_, ?_, ?_, ?_, ?_, ?_, ?_⟩
  · rw [p1, hwb, hfr]
  · rw [hpp, hrp, ha1]
  · intro ch' hne
    rw [hpp, hrp, ha2 ch' hne]
  · unfold readBlk16 at h16 ⊢
    rw [p3 _ (by omega), p3 _ (by omega)]
    exact h16
  · intro k hk
    rw [p2 k hk, packedByte_residuals s ch hn hk]
  · intro a ha
    have h3 := h.1
    rw [p3 a (by omega), hot a (by omega)]
  · intro cap hw hcap
    exact p4 cap (hwf cap hw hcap) (by omega)

theorem encodeFrame_one {s : State} (n : Nat) (h : s.channels = 1#8) : encodeFrame n s = encodeChannel n s .ch0 := by
  simp [encodeFrame, activeChannels_one h]

theorem encodeFrame_two {s : State} (n : Nat) (h : s.channels = 2#8) :
    encodeFrame n s = encodeChannel n (encodeChannel n s .ch0) .ch1 := by
  simp [encodeFrame, activeChannels_two h]

/-- Everything a block encode does: the frame, the states pushed by the source samples, each active channel's scale
field and nibble bytes, and no byte outside the block (42_encode R191 to R211). -/
theorem encodeFrame_spec (s : State) (h : ParamsLegal s) {n : Nat} (hn : n ≤ spb s) :
    encodeFrame n s =
      { s with
        blk := (encodeFrame n s).blk, pred0 := (encodeFrame n s).pred0, pred1 := (encodeFrame n s).pred1 } ∧
    (∀ ch, ch ∈ activeChannels s →
      prediction (encodeFrame n s) ch = history (prediction s ch) (fun k => readPcm s (pcmIndex s ch k)) n ∧
      readBlk16 (encodeFrame n s) (segmentBase s ch) = BitVec.ofNat 16 (channelScale s ch n) ∧
      ∀ k, k < spb s / 2 → readBlk (encodeFrame n s) (segmentBase s ch + 2 + k) = channelByte s ch n k) ∧
    (∀ ch, ch ∉ activeChannels s → prediction (encodeFrame n s) ch = prediction s ch) ∧
    (∀ a, blockBytes s ≤ a → readBlk (encodeFrame n s) a = readBlk s a) ∧
    (∀ cap, Memory.wf cap s.blk = true → blockBytes s ≤ cap →
      Memory.wf cap (encodeFrame n s).blk = true) := by
  rcases h.2.2 with h1 | h2
  · have ha := activeChannels_one h1
    have hm : Channel.ch0 ∈ activeChannels s := by simp [ha]
    have hseg := segment_le h hm
    rw [encodeFrame_one n h1]
    obtain ⟨e1, e2, e3, e4, e5, e6, e7⟩ := encodeChannel_spec s h .ch0 hn
    refine ⟨e1, ?_, ?_, ?_, ?_⟩
    · intro ch hc
      rw [ha, List.mem_singleton] at hc
      subst hc
      exact ⟨e2, e4, e5⟩
    · intro ch hc
      refine e3 ch fun e => hc ?_
      rw [e]; exact hm
    · intro a hle
      exact e6 a (.inr (by omega))
    · intro cap hw hcap
      exact e7 cap hw (by omega)
  · have ha := activeChannels_two h2
    have hm0 : Channel.ch0 ∈ activeChannels s := by simp [ha]
    have hm1 : Channel.ch1 ∈ activeChannels s := by simp [ha]
    have hseg0 := segment_le h hm0
    have hseg1 := segment_le h hm1
    have hb0 : segmentBase s .ch0 = 0 := by simp [segmentBase, channelIndex]
    have hb1 : segmentBase s .ch1 = s.blockSize.toNat := by simp [segmentBase, channelIndex]
    have hsp := spb_eq h
    have hbs := h.1
    rw [encodeFrame_two n h2]
    obtain ⟨e1, e2, e3, e4, e5, e6, e7⟩ := encodeChannel_spec s h .ch0 hn
    generalize encodeChannel n s .ch0 = t at *
    have hpar : ParamsLegal t := by rw [e1]; exact h
    have hspb : spb t = spb s := by rw [e1]; rfl
    obtain ⟨f1, f2, f3, f4, f5, f6, f7⟩ := encodeChannel_spec t hpar .ch1 (n := n) (by rw [hspb]; exact hn)
    have g1 : segmentBase t .ch1 = segmentBase s .ch1 := by rw [e1]; rfl
    have g2 : ∀ k, readPcm t k = readPcm s k := fun k => by rw [e1]; rfl
    have g3 : ∀ k, pcmIndex t .ch1 k = pcmIndex s .ch1 k := fun k => by rw [e1]; rfl
    have g4 : prediction t .ch1 = prediction s .ch1 := e3 .ch1 (by decide)
    have g5 : t.blockSize = s.blockSize := by rw [e1]
    have g6 : ∀ j, residualAt t .ch1 n j = residualAt s .ch1 n j := by
      intro j
      unfold residualAt
      simp only [g2, g3, g4, show t.coef0 = s.coef0 by rw [e1], show t.coef1 = s.coef1 by rw [e1]]
    have g7 : channelScale t .ch1 n = channelScale s .ch1 n := by
      unfold channelScale
      rw [hspb, show t.openParams = s.openParams by rw [e1], funext g6]
    have g8 : ∀ k, channelByte t .ch1 n k = channelByte s .ch1 n k := by
      intro k
      unfold channelByte channelCode
      simp only [g6, g7, show t.openParams = s.openParams by rw [e1]]
    simp only [g1, g2, g3, g4, g5, g7, g8, hspb] at f1 f2 f3 f4 f5 f6 f7
    generalize encodeChannel n t .ch1 = u at *
    refine ⟨?_, ?_, ?_, ?_, ?_⟩
    · rw [f1, e1]
    · intro ch _
      cases ch
      · refine ⟨by rw [f3 .ch0 (by decide), e2], ?_, ?_⟩
        · unfold readBlk16 at e4 ⊢
          rw [f6 _ (by omega), f6 _ (by omega)]
          exact e4
        · intro k hk
          rw [f6 _ (by omega)]
          exact e5 k hk
      · exact ⟨f2, f4, f5⟩
    · intro ch hc
      exact absurd (by rw [ha]; cases ch <;> simp) hc
    · intro a hle
      rw [f6 a (by omega), e6 a (by omega)]
    · intro cap hw hcap
      exact f7 cap (e7 cap hw (by omega)) (by omega)

end Sys2Proof.Machine
end

