-- ==== Sys2Proof/Laws/Exec.lean ====
section
/-! SUPPORT. What a transaction can do, said once: it is refused or keeps a recorded error, or it faults, or it completes
with the effect of its own; and it always goes on. -/

namespace Sys2Proof.Machine

/-- The effect of a transaction that completes, with the conditions it completes under. The table of COEF is named by
variables, so that no check of a later proof computes a coefficient. -/
def Completes : Instr → State → State → Prop
  | .wr reg value, s, t =>
    ∃ r w, writableReg reg = some (r, w) ∧ valueFits r w value = true ∧ t = setDout 0#32 (writeReg r value s)
  | .rd reg, s, t => ∃ r, regOfNumber reg = some r ∧ t = setDout (readReg r s) (afterRead r s)
  | .bw index din, s, t =>
    din.toNat < 2 ^ 8 ∧ index.toNat < blkBytes ∧ t = setDout 0#32 (writeBlk index.toNat (din.setWidth 8) s)
  | .br index, s, t => index.toNat < blkBytes ∧ t = setDout ((readBlk s index.toNat).setWidth 32) s
  | .pw index din, s, t =>
    din.toNat < 2 ^ 16 ∧ index.toNat < pcmWords ∧ t = setDout 0#32 (writePcm index.toNat (din.setWidth 16) s)
  | .pr index, s, t => index.toNat < pcmWords ∧ t = setDout ((readPcm s index.toNat).signExtend 32) s
  | .coef, s, t =>
    s.sampleRate ≠ 0#32 ∧
      ∃ c0 c1, (c0, c1) = tableOf s ∧ t = setDout 0#32 (setTable c0 c1 s)
  | .start, s, t => t = setDout 0#32 (beginStream s)
  | .decblk, s, t =>
    ParamsLegal s ∧ s.coefValid = true ∧
      ((decodeCount s = 0 ∧ t = setDout 0#32 { s with nout := 0#16 }) ∨
        (decodeCount s ≠ 0 ∧ blockBytes s ≤ s.blkLen.toNat ∧ t = setDout 0#32 (decodeBlock (decodeCount s) s)))
  | .encblk n, s, t =>
    ParamsLegal s ∧ s.coefValid = true ∧ (1 ≤ n.toNat ∧ n.toNat ≤ spb s) ∧
      s.samplesDone.toNat + n.toNat ≤ 2 ^ 32 - 1 ∧ t = setDout 0#32 (encodeBlock n.toNat s)
  | .s2b, s, t =>
    ParamsLegal s ∧ sampleToByte s s.smpIn.toNat ≤ 2 ^ 32 - 1 ∧
      t = setDout 0#32 { s with offOut := BitVec.ofNat 32 (sampleToByte s s.smpIn.toNat) }
  | .boff, s, t =>
    ParamsLegal s ∧ blockOffset s s.blkidxIn.toNat ≤ 2 ^ 32 - 1 ∧
      t = setDout 0#32 { s with offOut := BitVec.ofNat 32 (blockOffset s s.blkidxIn.toNat) }
  | .loopset, s, t =>
    ParamsLegal s ∧
      (sampleToByte s s.loopBeginSample.toNat ≤ 2 ^ 32 - 1 ∧ sampleToByte s s.loopEndSample.toNat ≤ 2 ^ 32 - 1) ∧
      t = setDout 0#32 (setLoop s)

/-- What a transaction leaves, whatever it is. -/
def Answers (i : Instr) (s t : State) : Prop :=
  (s.err = true ∧ t = { s with dout := t.dout, draws := t.draws }) ∨
    (s.err = false ∧ ∃ c, t = faulted (causeCode c) (commandOf i) s) ∨ (s.err = false ∧ Completes i s t)

theorem faulted_eq (c : Cause) (cw : Word) {s : State} (h : s.err = false) :
    raise c cw s = .next (faulted (causeCode c) cw s) := raise_clear c cw h

/-- A fault of a transaction is one of its answers. -/
theorem answers_raise (i : Instr) (s : State) (c : Cause) : ∃ t, raise c (commandOf i) s = .next t ∧ Answers i s t := by
  cases h : s.err
  · exact ⟨_, faulted_eq c _ h, .inr (.inl ⟨h, c, rfl⟩)⟩
  · exact ⟨_, raise_faulted c _ h, .inl ⟨h, rfl⟩⟩

theorem answers_check {p : Prop} [Decidable p] {i : Instr} {c : Cause} {s : State} {k : Result}
    (h : p → ∃ t, k = .next t ∧ Answers i s t) : ∃ t, check p c (commandOf i) s k = .next t ∧ Answers i s t := by
  unfold check
  split
  · exact h ‹_›
  · exact answers_raise i s c

theorem answers_unlessFaulted {i : Instr} {s : State} {k : Result}
    (h : s.err = false → ∃ t, k = .next t ∧ Answers i s t) : ∃ t, unlessFaulted s k = .next t ∧ Answers i s t := by
  cases he : s.err
  · rw [unlessFaulted_clear k he]; exact h he
  · rw [unlessFaulted_faulted k he]; exact ⟨_, rfl, .inl ⟨he, rfl⟩⟩

/-- Every transaction goes on, and this is all it can do. -/
theorem exec_answers (i : Instr) (s : State) : ∃ t, exec i s = .next t ∧ Answers i s t := by
  have done : ∀ {t : State}, s.err = false → Completes i s t → Answers i s t := fun h c => .inr (.inr ⟨h, c⟩)
  cases i with
  | wr reg value =>
    refine answers_unlessFaulted fun he => ?_
    cases hr : writableReg reg with
    | none => exact answers_raise _ s _
    | some rw => exact answers_check fun hv => ⟨_, rfl, done he ⟨_, _, hr, hv, rfl⟩⟩
  | rd reg =>
    show ∃ t, execRd reg s = .next t ∧ Answers (.rd reg) s t
    unfold execRd
    cases hr : regOfNumber reg with
    | none => exact answers_raise _ s _
    | some r =>
      refine ⟨_, rfl, ?_⟩
      cases he : s.err
      · exact done he ⟨r, hr, rfl⟩
      · refine .inl ⟨he, ?_⟩
        unfold afterRead
        split <;> rfl
  | bw index din =>
    exact answers_unlessFaulted fun he => answers_check fun h1 => answers_check fun h2 => ⟨_, rfl, done he ⟨h1, h2, rfl⟩⟩
  | br index =>
    refine answers_check fun h => ⟨_, rfl, ?_⟩
    cases he : s.err
    · exact done he ⟨h, rfl⟩
    · exact .inl ⟨he, rfl⟩
  | pw index din =>
    exact answers_unlessFaulted fun he => answers_check fun h1 => answers_check fun h2 => ⟨_, rfl, done he ⟨h1, h2, rfl⟩⟩
  | pr index =>
    refine answers_check fun h => ⟨_, rfl, ?_⟩
    cases he : s.err
    · exact done he ⟨h, rfl⟩
    · exact .inl ⟨he, rfl⟩
  | coef => exact answers_unlessFaulted fun he => answers_check fun h =>
    ⟨_, rfl, done he ⟨h, _, _, rfl, rfl⟩⟩
  | start => exact answers_unlessFaulted fun he => ⟨_, rfl, done he rfl⟩
  | decblk =>
    refine answers_unlessFaulted fun he => answers_check fun h1 => answers_check fun h2 => ?_
    by_cases h0 : decodeCount s = 0
    · rw [if_pos h0]
      exact ⟨_, rfl, done he ⟨h1, h2, .inl ⟨h0, rfl⟩⟩⟩
    · rw [if_neg h0]
      exact answers_check fun h3 => ⟨_, rfl, done he ⟨h1, h2, .inr ⟨h0, h3, rfl⟩⟩⟩
  | encblk n =>
    exact answers_unlessFaulted fun he => answers_check fun h1 => answers_check fun h2 => answers_check fun h3 =>
      answers_check fun h4 => ⟨_, rfl, done he ⟨h1, h2, h3, h4, rfl⟩⟩
  | s2b =>
    exact answers_unlessFaulted fun he => answers_check fun h1 => answers_check fun h2 => ⟨_, rfl, done he ⟨h1, h2, rfl⟩⟩
  | boff =>
    exact answers_unlessFaulted fun he => answers_check fun h1 => answers_check fun h2 => ⟨_, rfl, done he ⟨h1, h2, rfl⟩⟩
  | loopset =>
    exact answers_unlessFaulted fun he => answers_check fun h1 => answers_check fun h2 => ⟨_, rfl, done he ⟨h1, h2, rfl⟩⟩

/-- The inversion of a transaction: from its next state, what happened. -/
theorem exec_cases {i : Instr} {s t : State} (h : exec i s = .next t) : Answers i s t := by
  obtain ⟨u, hu, ha⟩ := exec_answers i s
  rw [h] at hu
  cases hu
  exact ha

/-- A completed WR changes only parameter registers, `COEF_VALID` and `dout`. -/
theorem writeReg_frame (r : Reg) (v : Word) (s : State) :
    writeReg r v s =
      { s with
        blockSize := (writeReg r v s).blockSize, bitdepth := (writeReg r v s).bitdepth
        channels := (writeReg r v s).channels, sampleRate := (writeReg r v s).sampleRate
        highpass := (writeReg r v s).highpass, totalSamples := (writeReg r v s).totalSamples
        copyrightOffset := (writeReg r v s).copyrightOffset, blkLen := (writeReg r v s).blkLen
        smpIn := (writeReg r v s).smpIn, blkidxIn := (writeReg r v s).blkidxIn
        loopBeginSample := (writeReg r v s).loopBeginSample, loopEndSample := (writeReg r v s).loopEndSample
        coefValid := (writeReg r v s).coefValid } := by
  cases r <;> rfl

/-- A completed LOOPSET changes the three loop outputs only. -/
theorem setLoop_frame (s : State) :
    setLoop s =
      { s with
        loopEnabled := (setLoop s).loopEnabled, loopBeginByte := (setLoop s).loopBeginByte
        loopEndByte := (setLoop s).loopEndByte } := rfl

/-- A completed START changes the prediction state and the counters only. -/
theorem beginStream_frame (s : State) :
    beginStream s =
      { s with
        pred0 := (beginStream s).pred0, pred1 := (beginStream s).pred1, samplesDone := (beginStream s).samplesDone
        blocksDone := (beginStream s).blocksDone, nout := (beginStream s).nout } := rfl

/-- A read of a register changes the counter of unspecified reads only. -/
theorem afterRead_frame (r : Reg) (s : State) : afterRead r s = { s with draws := (afterRead r s).draws } := by
  unfold afterRead
  split <;> rfl

end Sys2Proof.Machine
end

