-- ==== Sys2Proof/Laws/PerInstr.lean ====
section
/-! SUPPORT. Per-instruction laws of the encoding, one lemma per constructor of `Instr`. -/

namespace Sys2Proof

/-- The opcode of a transaction. -/
def Instr.opcode : Instr → Opcode
  | .wr _ _ => .wr
  | .rd _ => .rd
  | .bw _ _ => .bw
  | .br _ => .br
  | .pw _ _ => .pw
  | .pr _ => .pr
  | .coef => .coef
  | .start => .start
  | .decblk => .decblk
  | .encblk _ => .encblk
  | .s2b => .s2b
  | .boff => .boff
  | .loopset => .loopset

/-- The operand `idx` of a transaction. -/
def Instr.idx : Instr → Half
  | .wr reg _ => reg
  | .rd reg => reg
  | .bw index _ => index
  | .br index => index
  | .pw index _ => index
  | .pr index => index
  | .encblk n => n
  | .coef | .start | .decblk | .s2b | .boff | .loopset => 0#16

namespace Laws.CommandFields

/-- The three fields of a transaction's command word are its opcode, its operand, and 0 (30_encoding R91). -/
def Statement (i : Instr) : Prop :=
  opField (commandOf i) = i.opcode.byte ∧ idxField (commandOf i) = i.idx ∧ rsvField (commandOf i) = 0#8

theorem fields (op : Opcode) (idx : Half) :
    opField (commandWord op idx) = op.byte ∧ idxField (commandWord op idx) = idx ∧
      rsvField (commandWord op idx) = 0#8 :=
  ⟨opField_commandWord op idx, idxField_commandWord op idx, rsvField_commandWord op idx⟩

theorem wr (reg : Half) (value : Word) : Statement (.wr reg value) := fields _ _
theorem rd (reg : Half) : Statement (.rd reg) := fields _ _
theorem bw (index : Half) (din : Word) : Statement (.bw index din) := fields _ _
theorem br (index : Half) : Statement (.br index) := fields _ _
theorem pw (index : Half) (din : Word) : Statement (.pw index din) := fields _ _
theorem pr (index : Half) : Statement (.pr index) := fields _ _
theorem coef : Statement .coef := fields _ _
theorem start : Statement .start := fields _ _
theorem decblk : Statement .decblk := fields _ _
theorem encblk (n : Half) : Statement (.encblk n) := fields _ _
theorem s2b : Statement .s2b := fields _ _
theorem boff : Statement .boff := fields _ _
theorem loopset : Statement .loopset := fields _ _

end Laws.CommandFields
end Sys2Proof
end

