-- ==== Sys2Proof/Tests/Slice0.lean ====
section
/-! SUPPORT. The model's own tests: the check refuses ill-formed terms, words written out from the spec decode as it says,
one step of each transaction gives what spec/95_test_vectors.md lists, and for every statement with hypotheses a concrete
state and operands that meet them. -/

namespace Sys2Proof.Tests

open Sys2Proof Sys2Proof.Machine

/-! ### Helpers -/

/-- The next state of an outcome. -/
def after : Result → State
  | .next t => t
  | .fault f => nomatch f
  | .refused _ => State.reset

/-- Consecutive elements from index `k`. -/
def elements {w : Nat} : Nat → List Nat → List (Nat × BitVec w)
  | _, [] => []
  | k, v :: vs => (k, BitVec.ofNat w v) :: elements (k + 1) vs

/-- The state after `CFG bs, ch, 44100, 0`: the table is (2.0, -1.0). -/
def configured (bs ch : Byte) : State :=
  { State.reset with
    blockSize := bs, bitdepth := 4, channels := ch, sampleRate := 44100
    coef0 := 0x4000000000000000#64, coef1 := 0xBFF0000000000000#64, coefValid := true }

/-- Configured, with a loaded block and 100 samples owed. -/
def loaded (ch : Byte) (bytes : List Nat) : State :=
  { configured 4 ch with blk := elements 0 bytes, blkLen := BitVec.ofNat 16 bytes.length, totalSamples := 100 }

/-- Configured, with a loaded frame of samples (given as 16-bit patterns). -/
def framed (ch : Byte) (samples : List Nat) : State := { configured 4 ch with pcm := elements 0 samples }

/-- The recorded error of vector F2. -/
def broken : State := { State.reset with err := true, errcode := 5, errinfo := 0x20 }

def pcmOut (s : State) (n : Nat) : List Int := (List.range n).map fun k => (readPcm s k).toInt

def blkOut (s : State) (n : Nat) : List Nat := (List.range n).map fun k => (readBlk s k).toNat

/-- One pending action of the host. -/
def pending (a : HostAction) (s : State) : State := { s with host := [a] }

/-! ### Well-formedness: the one check there is, on both terms that it can refuse (30_encoding R95 (d)) -/

theorem test_wellFormed_bw : (Instr.bw 0 255).wellFormed = true ∧ (Instr.bw 0 256).wellFormed = false := by decide

theorem test_wellFormed_pw : (Instr.pw 0 65535).wellFormed = true ∧ (Instr.pw 0 65536).wellFormed = false := by decide

/-! ### Decoding: words written out from 30_encoding R91, R92, R93 (rsv, idx, op) -/

theorem test_decode_wr :
    decode 0b00000000_0000000000000011_00000001#32 44100#32 = .ok (.wr 0x0003#16 44100#32) := by rfl

theorem test_decode_rd : decode 0b00000000_0000000000010110_00000010#32 0xFFFFFFFF#32 = .ok (.rd 0x0016#16) := by rfl

theorem test_decode_bw :
    decode 0b00000000_0000000111111101_00000011#32 0x000000A5#32 = .ok (.bw 509#16 0xA5#32) := by rfl

theorem test_decode_br : decode 0b00000000_0000000000000010_00000100#32 0#32 = .ok (.br 2#16) := by rfl

theorem test_decode_pw :
    decode 0b00000000_0000001111110011_00000101#32 0x0000FFFE#32 = .ok (.pw 1011#16 0xFFFE#32) := by rfl

theorem test_decode_pr : decode 0b00000000_1000000000000001_00000110#32 0#32 = .ok (.pr 0x8001#16) := by rfl

theorem test_decode_coef : decode 0b00000000_0000000000000000_00010000#32 0#32 = .ok .coef := by rfl

theorem test_decode_start : decode 0b00000000_0000000000000000_00010001#32 0#32 = .ok .start := by rfl

theorem test_decode_decblk : decode 0b00000000_0000000000000000_00100000#32 0#32 = .ok .decblk := by rfl

theorem test_decode_encblk : decode 0b00000000_0000000000001010_00100001#32 0#32 = .ok (.encblk 10#16) := by rfl

theorem test_decode_s2b : decode 0b00000000_0000000000000000_00110000#32 0#32 = .ok .s2b := by rfl

theorem test_decode_boff : decode 0b00000000_0000000000000000_00110001#32 0#32 = .ok .boff := by rfl

theorem test_decode_loopset : decode 0b00000000_0000000000000000_00110010#32 0#32 = .ok .loopset := by rfl

/-- 30_encoding R95, grounds (a) to (d). -/
theorem test_decode_refuses :
    decode 0x00000007#32 0#32 = .error .unassignedOp ∧ decode 0x01000002#32 0#32 = .error .reservedNotZero ∧
    decode 0x00000111#32 0#32 = .error .operandNotZero ∧ decode 0x00000003#32 0x100#32 = .error .dataTooWide ∧
    decode 0x00000005#32 0x10000#32 = .error .dataTooWide := by
  refine ⟨rfl, rfl, rfl, rfl, rfl⟩

theorem test_encode : encode (.encblk 10#16) = (0x00000A21#32, 0#32) ∧ encode (.pw 1#16 0xFFFE#32) = (0x105#32, 0xFFFE#32)
    := by decide

theorem test_tableWord :
    decodeTableWord 32 0x00000A21 = some (.encblk 10#16) ∧ decodeTableWord 64 0x0000AC4400000301 = some (.wr 3#16 44100#32)
    := by decide

/-- The table word is what the very next step runs: here `WR BLOCK_SIZE` with the data word 0 and then 18. -/
theorem test_withFetchWord :
    step (State.reset.withFetchWord 32 0x00000001) = exec (.wr 0#16 0#32) State.reset ∧
    step (State.reset.withFetchWord 64 0x0000001200000001) = exec (.wr 0#16 18#32) State.reset := by
  refine ⟨rfl, rfl⟩

/-! ### Operations: 95 sections 1.1, 2.1, 2.3, 2.4 -/

theorem test_sext4 : sext4 0xF#4 = -1 ∧ sext4 0x8#4 = -8 ∧ sext4 0x7#4 = 7 := by decide

theorem test_constants : State.reset.openParams.pi64 = 0x400921FB54442D18#64 ∧ sqrt2_64 = 0x3FF6A09E667F3BCD#64 ∧
    f64Sub sqrt2_64 one64 = 0x3FDA827999FCEF34#64 := by decide +kernel

theorem test_coefAngle : coefAngle pi64Reference 44100 500 = 0x3FB23CA61DCC76A2#64 := by decide +kernel

/-- 95 section 2.1, from its cosine on. -/
theorem test_coefFromCos : coefFromCos 0x3FEFEB38E45AFF39#64 = (0x3FFCA636BCE49310#64, 0xBFE9A63F22D566B0#64) := by decide +kernel

/-- 95 section 2.3, rows 2, 5, 12, with the table of 2.1. -/
theorem test_predInt :
    predIntOf 0x3FFCA636BCE49310#64 0xBFE9A63F22D566B0#64 ⟨1000, 900⟩ = 1069 ∧
    predIntOf 0x3FFCA636BCE49310#64 0xBFE9A63F22D566B0#64 ⟨0, 1⟩ = -1 ∧
    predIntOf 0x3FFCA636BCE49310#64 0xBFE9A63F22D566B0#64 ⟨0x8000, 32767⟩ = -84938 := by decide +kernel

/-- 95 section 2.4: 2.5, -2.5 and the largest value below 0.5. -/
theorem test_roundPred :
    roundPred 0x4004000000000000#64 = 3 ∧ roundPred 0xC004000000000000#64 = -3 ∧ roundPred 0x3FDFFFFFFFFFFFFF#64 = 0 := by
  decide +kernel

/-- 95 section 2.4: 5/2 and -5/2 in the three modes. -/
theorem test_roundQuant :
    [roundQuant .halfAway 5 2, roundQuant .halfUp 5 2, roundQuant .trunc 5 2] = [3, 3, 2] ∧
    [roundQuant .halfAway (-5) 2, roundQuant .halfUp (-5) 2, roundQuant .trunc (-5) 2] = [-3, -2, -2] := by decide

/-- 95 section 4, E4 and E6: the residuals' scales under both `SCALE_DIV`. -/
theorem test_scaleOf :
    scaleOf .ceil [32767, -98302, 131070, -131070] = 18725 ∧ scaleOf .ceil [13, 0, 0, -6] = 2 ∧
    scaleOf .floor [13, 0, 0, -6] = 1 ∧ scaleOf .ceil [0, 0, 0, 0] = 1 := by decide

/-! ### One step of each transaction -/

/-- 95 P1 line 1; F6: a value too wide. -/
theorem test_wr : (after (exec (.wr 0#16 0x12#32) State.reset)).blockSize = 18#8 ∧
    (statusWord (after (exec (.wr 7#16 511#32) State.reset))).toNat = 0x42 := by decide

/-- 10_state R35: `SAMPLE_RATE` clears `COEF_VALID`. -/
theorem test_wr_clears : (after (exec (.wr 3#16 44100#32) (configured 4 1))).coefValid = false := by decide

/-- 95 P1 line 5 and P4 line 8. -/
theorem test_rd : (after (exec (.rd 0x15#16) (configured 18 2))).dout = 32#32 ∧
    (after (exec (.rd 0x10#16) broken)).dout = 0x52#32 := by decide

/-- 95 F19: `PREV1_0` = -4 is sign-extended. -/
theorem test_rd_signed : (after (exec (.rd 0x28#16) { State.reset with pred0 := ⟨0xFFFC, 0xFFFD⟩ })).dout = 0xFFFFFFFC#32 := by
  decide

theorem test_bw : blkOut (after (exec (.bw 2#16 0x3F#32) (loaded 1 [0, 1, 0x12, 0]))) 4 = [0, 1, 0x3F, 0] := by decide

theorem test_bw_range : (after (exec (.bw 510#16 0#32) State.reset)).errcode = 3#4 := by decide

/-- 95 P4 line 14: reads still work after a fault. -/
theorem test_br : (after (exec (.br 2#16) { loaded 1 [0, 1, 0x12, 0x3F] with err := true })).dout = 0x12#32 := by decide

theorem test_pw : pcmOut (after (exec (.pw 1#16 0xFFFE#32) (framed 1 [1, 2, 3]))) 3 = [1, -2, 3] := by decide

/-- 95 P2 line 22: a negative sample is sign-extended. -/
theorem test_pr : (after (exec (.pr 1#16) (framed 1 [1, 0xFFFE]))).dout = 0xFFFFFFFE#32 := by decide

/-- 95 section 2.2, row 1. -/
theorem test_coef : (after (exec .coef { State.reset with sampleRate := 44100 })).coef0 = 0x4000000000000000#64 ∧
    (after (exec .coef { State.reset with sampleRate := 44100 })).coef1 = 0xBFF0000000000000#64 := by decide +kernel

/-- 95 F12: `SAMPLE_RATE` = 0. -/
theorem test_coef_zero_rate : (statusWord (after (exec .coef State.reset))).toNat = 0x42 := by decide +kernel

theorem test_start : (after (exec .start { configured 4 1 with pred0 := ⟨15, 10⟩, samplesDone := 4 })).pred0 = ⟨0, 0⟩ ∧
    (after (exec .start { configured 4 1 with pred0 := ⟨15, 10⟩, samplesDone := 4 })).samplesDone = 0#32 := by decide

/-- 95 D4. -/
theorem test_decblk :
    pcmOut (after (exec .decblk (loaded 2 [0x00, 0x01, 0x12, 0x3F, 0x00, 0x02, 0xF0, 0x1E]))) 8 =
      [1, -2, 4, -4, 10, -4, 15, -8] ∧
    (after (exec .decblk (loaded 2 [0x00, 0x01, 0x12, 0x3F, 0x00, 0x02, 0xF0, 0x1E]))).pred1 = ⟨0xFFF8, 0xFFFC⟩ := by
  decide +kernel

/-- 95 D7: the scale is unsigned and the sample is clamped. -/
theorem test_decblk_clamps :
    pcmOut (after (exec .decblk (loaded 1 [0xFF, 0xFF, 0x87, 0x00]))) 4 = [-32768, 32767, 32767, 32767] := by decide +kernel

/-- 95 E8. -/
theorem test_encblk :
    blkOut (after (exec (.encblk 4#16) (framed 2 [1, 0xFFFE, 4, 0xFFFC, 10, 0xFFFC, 15, 0xFFF8]))) 8 =
      [0x00, 0x01, 0x12, 0x3F, 0x00, 0x01, 0xE0, 0x2C] := by decide +kernel

/-- 95 E6 under `floor`, where a quotient is clamped to 7. -/
theorem test_encblk_floor :
    blkOut (after (exec (.encblk 4#16) { framed 1 [13, 26, 39, 46] with openParams := { OpenParams.default with scaleDiv := .floor } })) 4 =
      [0x00, 0x01, 0x70, 0x0A] := by decide +kernel

/-- 95 P1 line 11. -/
theorem test_s2b : (after (exec .s2b { configured 18 2 with smpIn := 100 })).offOut = 108#32 := by decide

/-- 95 P1 line 8. -/
theorem test_boff : (after (exec .boff { configured 18 2 with blkidxIn := 3, copyrightOffset := 404 })).offOut = 516#32 := by
  decide

/-- 95 P1 lines 15 to 17. -/
theorem test_loopset :
    (after (exec .loopset { configured 18 2 with loopBeginSample := 32, loopEndSample := 100 })).loopBeginByte = 36#32 ∧
    (after (exec .loopset { configured 18 2 with loopBeginSample := 32, loopEndSample := 100 })).loopEndByte = 108#32 ∧
    (after (exec .loopset { configured 18 2 with loopBeginSample := 32, loopEndSample := 100 })).loopEnabled = true := by
  decide

/-! ### Witnesses: for each statement with hypotheses, a state and operands that meet them -/

theorem witness_ResetHoldsSpecifiedValues : isCoefHalf .coef0Hi = true ∧ isCoefHalf .coef1Lo = true := by decide

theorem witness_HardwareResetFromAnyState : (pending .reset broken).host = .reset :: [] := by decide

theorem witness_UnconfiguredCommandsFault :
    Instr.coef ∈ [Instr.coef, .decblk, .s2b, .boff, .loopset] ∧ ∃ n, Instr.encblk 1#16 = .encblk n := by
  exact ⟨by decide, 1#16, rfl⟩

theorem witness_StepRunsDecodedTransaction :
    ((pending (.transaction 0x11#32 7#32) broken).host = .transaction 0x11#32 7#32 :: [] ∧
      decode 0x11#32 7#32 = .ok .start) ∧
    ((Instr.bw 509#16 255#32).wellFormed = true ∧
      (pending (.transaction (commandOf (.bw 509#16 255#32)) (dataOf (.bw 509#16 255#32))) broken).host =
        .transaction (commandOf (.bw 509#16 255#32)) (dataOf (.bw 509#16 255#32)) :: []) ∧
    State.reset.host = [] := by
  exact ⟨⟨rfl, rfl⟩, ⟨rfl, rfl⟩, rfl⟩

/-- One pair for each ground of R95, at the edge of each. -/
theorem witness_IllegalEncodingRaises :
    (pending (.transaction 0x07#32 0#32) State.reset).host = .transaction 0x07#32 0#32 :: [] ∧
    (pending (.transaction 0x07#32 0#32) State.reset).err = false ∧
    (pending (.transaction 0x07#32 0#32) broken).err = true ∧ IllegalEncoding 0x07#32 0#32 ∧
    IllegalEncoding 0x01000002#32 0#32 ∧ IllegalEncoding 0x00000111#32 0#32 ∧ IllegalEncoding 0x03#32 0x100#32 ∧
    IllegalEncoding 0x05#32 0x10000#32 := by
  exact ⟨rfl, rfl, rfl, .inl (by decide), .inr (.inl (by decide)), .inr (.inr (.inl (by decide))),
    .inr (.inr (.inr (.inl (by decide)))), .inr (.inr (.inr (.inr (by decide))))⟩

theorem witness_LegalEncodingsDecodeExactly :
    decode 0x301#32 9#32 = .ok (.wr 3#16 9#32) ∧ decode 0x203#32 0xFF#32 = .ok (.bw 2#16 0xFF#32) ∧
    decode 0x105#32 0xFFFF#32 = .ok (.pw 1#16 0xFFFF#32) ∧ decode 0x32#32 9#32 = .ok .loopset := by
  exact ⟨rfl, rfl, rfl, rfl⟩

theorem witness_DecodeUndoesEncode :
    (Instr.bw 0xFFFF#16 255#32).wellFormed = true ∧ (Instr.pw 0#16 65535#32).wellFormed = true := by decide

theorem witness_RefusedWhileFaulted :
    (pending (.transaction 0x0001FE03#32 0#32) broken).host = .transaction 0x0001FE03#32 0#32 :: [] ∧
    (pending (.transaction 0x0001FE03#32 0#32) broken).err = true ∧ (0x0001FE03#32).toNat % 2 ^ 8 ≠ 0x02 ∧
    (0x0001FE03#32).toNat % 2 ^ 8 ≠ 0x04 ∧ (0x0001FE03#32).toNat % 2 ^ 8 ≠ 0x06 := by decide

/-- The first two hypotheses are those of `raise`, the last three of a transaction. -/
theorem witness_FaultsArePrecise :
    (State.reset.err = false ∧ exec .decblk State.reset = .next (after (exec .decblk State.reset)) ∧
      (after (exec .decblk State.reset)).err = true) ∧
    (broken.err = true ∧ exec .coef broken = .next (after (exec .coef broken))) := by
  exact ⟨⟨rfl, rfl, rfl⟩, rfl, rfl⟩

/-- Both outcomes: a refused transaction, and the reset input. -/
theorem witness_ErrorStaysUntilReset :
    ((pending (.transaction 0x10#32 0#32) broken).err = true ∧
      step (pending (.transaction 0x10#32 0#32) broken) = .next (after (step (pending (.transaction 0x10#32 0#32) broken)))) ∧
    ((pending .reset broken).err = true ∧ step (pending .reset broken) = .next (after (step (pending .reset broken)))) := by
  exact ⟨⟨rfl, rfl⟩, rfl, rfl⟩

theorem reset_inv : Invariant State.reset := by constructor <;> decide

theorem witness_StepKeepsInvariant :
    Invariant (pending (.transaction 0x11#32 0#32) State.reset) ∧
    step (pending (.transaction 0x11#32 0#32) State.reset) =
      .next (after (step (pending (.transaction 0x11#32 0#32) State.reset))) := by
  exact ⟨by constructor <;> decide, rfl⟩

theorem witness_StepKeepsTableDerived :
    TableDerived (pending (.transaction 0x11#32 0#32) State.reset) ∧
    step (pending (.transaction 0x11#32 0#32) State.reset) =
      .next (after (step (pending (.transaction 0x11#32 0#32) State.reset))) := by
  exact ⟨(fun h => nomatch h), rfl⟩

/-- The hypothesis of the invariant is also met where it says something: a valid table. -/
theorem witness_TableDerived_valid : TableDerived (configured 4 1) ∧ (configured 4 1).coefValid = true := by
  exact ⟨fun _ => by decide +kernel, rfl⟩

/-- COEF sets the bit and WR to `HIGHPASS` clears it. -/
theorem witness_CoefValidChangesOnlyByCoefAndWr :
    (exec .coef { State.reset with sampleRate := 1 } = .next (after (exec .coef { State.reset with sampleRate := 1 })) ∧
      (after (exec .coef { State.reset with sampleRate := 1 })).coefValid ≠
        ({ State.reset with sampleRate := 1 } : State).coefValid) ∧
    (exec (.wr 4#16 0#32) (configured 4 1) = .next (after (exec (.wr 4#16 0#32) (configured 4 1))) ∧
      (after (exec (.wr 4#16 0#32) (configured 4 1))).coefValid ≠ (configured 4 1).coefValid) := by
  exact ⟨⟨rfl, by decide⟩, rfl, by decide⟩

/-- One transaction meets the hypotheses of every clause: BOFF for all but the fourth, DECBLK for the fourth. -/
theorem witness_StateWrittenOnlyAsListed :
    exec .boff (configured 4 1) = .next (after (exec .boff (configured 4 1))) ∧
    exec .decblk (configured 4 1) = .next (after (exec .decblk (configured 4 1))) ∧
    (∀ r v, Instr.boff ≠ .wr r v) ∧ (∀ n, Instr.boff ≠ .encblk n) ∧ Instr.boff ≠ .start ∧ Instr.boff ≠ .decblk ∧
    (Instr.decblk ≠ .s2b ∧ Instr.decblk ≠ .boff) ∧ Instr.boff ≠ .loopset ∧ Instr.boff ≠ .coef ∧
    (∀ x d, Instr.boff ≠ .bw x d) ∧ ∀ x d, Instr.boff ≠ .pw x d := by
  refine ⟨rfl, rfl, ?_, ?_, ?_, ?_, ⟨?_, ?_⟩, ?_, ?_, ?_, ?_⟩ <;> intros <;> exact fun h => nomatch h

theorem witness_SamplesDoneNeverWraps :
    exec .decblk (loaded 1 [0, 1, 0x12, 0x3F]) = .next (after (exec .decblk (loaded 1 [0, 1, 0x12, 0x3F]))) ∧
    Instr.decblk ≠ .start := by
  exact ⟨rfl, by decide⟩

/-- The values 1.0 and 2^1023: sums and products of them fall on both sides of the overflow threshold. -/
theorem value_one : f64Value 0x3FF0000000000000#64 = 1 := by
  rw [f64Value, show f64Sign 0x3FF0000000000000#64 = false by decide, show f64Mant 0x3FF0000000000000#64 = 2 ^ 52 by decide,
    show f64Exp 0x3FF0000000000000#64 = -52 by decide]
  norm_num

theorem value_huge : f64Value 0x7FE0000000000000#64 = 2 ^ 1023 := by
  rw [f64Value, show f64Sign 0x7FE0000000000000#64 = false by decide, show f64Mant 0x7FE0000000000000#64 = 2 ^ 52 by decide,
    show f64Exp 0x7FE0000000000000#64 = 971 by decide, show (2 : Rat) ^ 1023 = 2 ^ 52 * 2 ^ 971 by rw [← pow_add]]
  norm_num

theorem witness_SumAndProductCorrectlyRounded :
    f64IsFinite 0x3FF0000000000000#64 = true ∧ f64IsFinite 0x7FE0000000000000#64 = true ∧ |(2 ^ 53 - 1 : Int)| < 2 ^ 53 := by
  refine ⟨by decide, by decide, by norm_num⟩

/-- Both clauses of `CorrectlyRounded`, and a tie: 1.0 + 2^-53 lies half-way between 1.0 and the next value. -/
theorem witness_CorrectlyRounded :
    |f64Value 0x3FF0000000000000#64 + f64Value 0x3FF0000000000000#64| < 2 ^ 1024 - 2 ^ 970 ∧
    2 ^ 1024 - 2 ^ 970 ≤ |f64Value 0x7FE0000000000000#64 + f64Value 0x7FE0000000000000#64| ∧
    f64IsFinite 0x3FF0000000000001#64 = true := by
  rw [value_one, value_huge, show (2 : Rat) ^ 1024 = 2 ^ 54 * 2 ^ 970 by rw [← pow_add],
    show (2 : Rat) ^ 1023 = 2 ^ 53 * 2 ^ 970 by rw [← pow_add]]
  have h : (1 : Rat) ≤ 2 ^ 970 := one_le_pow₀ one_le_two
  generalize (2 : Rat) ^ 970 = x at h
  refine ⟨?_, ?_, by decide⟩
  · rw [abs_of_pos (by norm_num)]; linarith
  · rw [abs_of_pos (by linarith)]; linarith

/-- Expected results by hand: 1.0 + 2^-53 is the tie that goes to the even 1.0; 2^1023 + 2^1023 overflows. -/
theorem test_f64Add :
    f64Add 0x3FF0000000000000#64 0x3CA0000000000000#64 = 0x3FF0000000000000#64 ∧
    f64Add 0x7FE0000000000000#64 0x7FE0000000000000#64 = 0x7FF0000000000000#64 := by decide +kernel

theorem witness_QuotientAndRootCorrectlyRounded :
    (f64IsFinite 0x3FF0000000000000#64 = true ∧ f64IsFinite 0x4008000000000000#64 = true ∧
      f64IsZero 0x4008000000000000#64 = false) ∧
    (f64IsFinite 0x4000000000000000#64 = true ∧ f64Sign 0x4000000000000000#64 = false) := by decide

/-- 0.5, a tie. -/
theorem witness_RoundPredIsNearestTiesAway :
    f64IsFinite 0x3FE0000000000000#64 = true ∧
    |f64Value 0x3FE0000000000000#64 - (roundPred 0x3FE0000000000000#64 : Rat)| = 1 / 2 := by
  have h1 : roundPred 0x3FE0000000000000#64 = 1 := by decide
  have h2 : f64Sign 0x3FE0000000000000#64 = false := by decide
  have h3 : f64Mant 0x3FE0000000000000#64 = 2 ^ 52 := by decide
  have h4 : f64Exp 0x3FE0000000000000#64 = -53 := by decide
  refine ⟨by decide, ?_⟩
  rw [f64Value, h1, h2, h3, h4]
  norm_num [abs_of_neg]

theorem witness_CoefComputesTheTable :
    (({ State.reset with sampleRate := 44100, highpass := 500 } : State).err = false ∧
      ({ State.reset with sampleRate := 44100, highpass := 500 } : State).sampleRate ≠ 0#32) ∧
    (State.reset.err = false ∧ State.reset.sampleRate = 0#32) ∧ broken.err = true := by decide

theorem witness_ZeroCutoffIsExact :
    ({ State.reset with sampleRate := 0xFFFFFFFF } : State).err = false ∧
    ({ State.reset with sampleRate := 0xFFFFFFFF } : State).sampleRate ≠ 0#32 ∧
    ({ State.reset with sampleRate := 0xFFFFFFFF } : State).highpass = 0#16 ∧
    f64Sign ({ State.reset with sampleRate := 0xFFFFFFFF } : State).openParams.pi64 = false ∧
    f64IsFinite (f64Mul 0x4000000000000000#64 ({ State.reset with sampleRate := 0xFFFFFFFF } : State).openParams.pi64) =
      true := by decide +kernel

/-- 1.0 and -1.0. -/
theorem witness_GuardNeverFires :
    f64AbsLeOne 0x3FF0000000000000#64 = true ∧ f64AbsLeOne 0xBFF0000000000000#64 = true := by decide

theorem witness_DerivedTableIsInRange : (1 : Word) ≠ 0#32 := by decide

/-- The largest and the smallest coefficients of the range. -/
theorem witness_PredictionIsBounded :
    TableInRange 0x4000000000000000#64 0xBFF0000000000000#64 ∧ TableInRange 0x0000000000000001#64 0x8000000000000001#64 := by
  unfold TableInRange; decide

/-- The largest value of each width. -/
theorem witness_WrWritesTheNamedRegister :
    State.reset.err = false ∧ (255#32).toNat < 2 ^ 8 ∧ (65535#32).toNat < 2 ^ 16 ∧ (510#32).toNat ≤ 510 := by decide

/-- Each clause at its edge. -/
theorem witness_WrFaults :
    State.reset.err = false ∧ (0x0B < (0x0C#16).toNat ∧ 0x0B < (0xFFFF#16).toNat) ∧
    ((2#16).toNat ≤ 2 ∧ 2 ^ 8 ≤ (256#32).toNat) ∧ ((4#16).toNat = 4 ∧ (6#16).toNat = 6 ∧ 2 ^ 16 ≤ (65536#32).toNat) ∧
    ((7#16).toNat = 7 ∧ 510 < (511#32).toNat) := by decide

theorem witness_RdReturnsTheNamedRegister : (configured 4 1).coefValid = true := by decide

theorem witness_RdOfInvalidTableIsFree :
    State.reset.coefValid = false ∧ (0x20 ≤ (0x20#16).toNat ∧ (0x20#16).toNat ≤ 0x23) ∧
    (0x20 ≤ (0x23#16).toNat ∧ (0x23#16).toNat ≤ 0x23) := by decide

theorem witness_RdOfUnassignedNumberFaults :
    (0x0B < (0x0C#16).toNat ∧ (0x0F#16).toNat < 0x10) ∧ (0x19 < (0x1A#16).toNat ∧ (0x1F#16).toNat < 0x20) ∧
    (0x23 < (0x24#16).toNat ∧ (0x27#16).toNat < 0x28) ∧ 0x2B < (0x2C#16).toNat ∧ State.reset.err = false ∧
    broken.err = true := by decide

theorem witness_BwWritesOneByte : State.reset.err = false ∧ (509#16).toNat ≤ 509 ∧ (255#32).toNat < 2 ^ 8 := by decide

theorem witness_BrReturnsTheByte : (509#16).toNat ≤ 509 := by decide

theorem witness_PwWritesOneWord : State.reset.err = false ∧ (1011#16).toNat ≤ 1011 ∧ (65535#32).toNat < 2 ^ 16 := by decide

theorem witness_PrReturnsTheSample : (1011#16).toNat ≤ 1011 := by decide

theorem witness_IndexOutsideASpaceFaults :
    State.reset.err = false ∧ broken.err = true ∧ 509 < (510#16).toNat ∧ (255#32).toNat < 2 ^ 8 ∧ 1011 < (1012#16).toNat ∧
    (65535#32).toNat < 2 ^ 16 := by decide

theorem witness_StartZeroesTheStream : (configured 4 2).err = false ∧ broken.err = true := by decide

/-- One state for each clause. -/
theorem witness_DecblkFaultsInOrder :
    broken.err = true ∧ (State.reset.err = false ∧ ¬ParamsLegal State.reset) ∧
    (({ configured 3 1 with coefValid := false } : State).err = false ∧
      ParamsLegal { configured 3 1 with coefValid := false } ∧
      ({ configured 3 1 with coefValid := false } : State).coefValid = false) ∧
    ((loaded 1 [0, 1, 0x12]).err = false ∧ ParamsLegal (loaded 1 [0, 1, 0x12]) ∧ (loaded 1 [0, 1, 0x12]).coefValid = true ∧
      (loaded 1 [0, 1, 0x12]).samplesDone.toNat < (loaded 1 [0, 1, 0x12]).totalSamples.toNat ∧
      (loaded 1 [0, 1, 0x12]).blkLen.toNat <
        (loaded 1 [0, 1, 0x12]).blockSize.toNat * (loaded 1 [0, 1, 0x12]).channels.toNat) := by decide

theorem witness_DecblkPastTheEnd :
    ((configured 4 1).err = false ∧ ParamsLegal (configured 4 1) ∧ (configured 4 1).coefValid = true ∧
      (configured 4 1).totalSamples.toNat ≤ (configured 4 1).samplesDone.toNat) ∧
    (State.reset.err = false ∧ ¬ParamsLegal State.reset ∧ State.reset.totalSamples.toNat ≤ State.reset.samplesDone.toNat) ∧
    (({ configured 3 1 with coefValid := false } : State).err = false ∧
      ParamsLegal { configured 3 1 with coefValid := false } ∧
      ({ configured 3 1 with coefValid := false } : State).coefValid = false ∧
      ({ configured 3 1 with coefValid := false } : State).totalSamples.toNat ≤
        ({ configured 3 1 with coefValid := false } : State).samplesDone.toNat) := by decide

/-- A stereo block (95 D4), and one that shares channel 0's segment and differs in channel 1's. -/
def blockA : State := loaded 2 [0x00, 0x01, 0x12, 0x3F, 0x00, 0x02, 0xF0, 0x1E]

def blockB : State := loaded 2 [0x00, 0x01, 0x12, 0x3F, 9, 9, 9, 9]

/-- A mono block of which one sample is owed. -/
def blockC : State := { loaded 1 [0x00, 0x01, 0x12, 0x3F] with totalSamples := 1 }

/-- A whole stereo block and a partial mono one. -/
theorem witness_DecblkDecodesTheBlock :
    (blockA.err = false ∧ ParamsLegal blockA ∧ blockA.coefValid = true ∧
      4 = min ((blockA.blockSize.toNat - 2) * 2) (blockA.totalSamples.toNat - blockA.samplesDone.toNat) ∧
      blockA.blockSize.toNat * blockA.channels.toNat ≤ blockA.blkLen.toNat ∧
      blockA.channels = 2#8 ∧ 4 * blockA.channels.toNat ≤ 8) ∧
    (blockC.err = false ∧ ParamsLegal blockC ∧ blockC.coefValid = true ∧
      1 = min ((blockC.blockSize.toNat - 2) * 2) (blockC.totalSamples.toNat - blockC.samplesDone.toNat) ∧
      blockC.blockSize.toNat * blockC.channels.toNat ≤ blockC.blkLen.toNat ∧
      blockC.channels = 1#8) := by decide

theorem witness_DecodedChannelsAreIndependent :
    (ParamsLegal blockA ∧ blockA.err = false ∧ blockB.err = false ∧ blockA.coefValid = true ∧ blockB.coefValid = true ∧
      blockA.blockSize = blockB.blockSize ∧ blockA.bitdepth = blockB.bitdepth ∧ blockA.channels = blockB.channels ∧
      blockA.coef0 = blockB.coef0 ∧ blockA.coef1 = blockB.coef1 ∧ blockA.totalSamples = blockB.totalSamples ∧
      blockA.samplesDone = blockB.samplesDone ∧ blockA.blkLen = blockB.blkLen ∧
      channelIndex .ch0 < blockA.channels.toNat ∧ prediction blockA .ch0 = prediction blockB .ch0) ∧
    SameSegment .ch0 blockA blockB ∧ exec .decblk blockA = .next (after (exec .decblk blockA)) ∧
    exec .decblk blockB = .next (after (exec .decblk blockB)) ∧ (after (exec .decblk blockA)).err = false := by
  refine ⟨by decide, ?_, rfl, rfl, rfl⟩
  intro a _ h2
  have h3 : a < 4 := h2
  interval_cases a <;> rfl

/-- One state for each clause; the lengths 0 and SPB + 1. -/
theorem witness_EncblkFaultsInOrder :
    broken.err = true ∧ (State.reset.err = false ∧ ¬ParamsLegal State.reset) ∧
    (({ configured 4 1 with coefValid := false } : State).err = false ∧
      ParamsLegal { configured 4 1 with coefValid := false } ∧
      ({ configured 4 1 with coefValid := false } : State).coefValid = false) ∧
    ((configured 4 1).err = false ∧ ParamsLegal (configured 4 1) ∧ (configured 4 1).coefValid = true ∧
      ((configured 4 1).blockSize.toNat - 2) * 2 < (5#16).toNat) ∧
    (ParamsLegal { configured 4 1 with samplesDone := 0xFFFFFFFC } ∧ (4#16 ≠ 0#16) ∧
      (4#16).toNat ≤ (({ configured 4 1 with samplesDone := 0xFFFFFFFC } : State).blockSize.toNat - 2) * 2 ∧
      2 ^ 32 ≤ ({ configured 4 1 with samplesDone := 0xFFFFFFFC } : State).samplesDone.toNat + (4#16).toNat) := by decide

/-- The largest legal count of `SAMPLES_DONE` for 4 samples, two channels and one. -/
theorem witness_EncblkEncodesTheFrame :
    ({ configured 4 2 with samplesDone := 0xFFFFFFFB } : State).err = false ∧
    ParamsLegal { configured 4 2 with samplesDone := 0xFFFFFFFB } ∧
    ({ configured 4 2 with samplesDone := 0xFFFFFFFB } : State).coefValid = true ∧ 1 ≤ (4#16).toNat ∧
    (4#16).toNat ≤ (({ configured 4 2 with samplesDone := 0xFFFFFFFB } : State).blockSize.toNat - 2) * 2 ∧
    ({ configured 4 2 with samplesDone := 0xFFFFFFFB } : State).samplesDone.toNat + (4#16).toNat ≤ 2 ^ 32 - 1 ∧
    ({ configured 4 2 with samplesDone := 0xFFFFFFFB } : State).channels = 2#8 ∧
    (ParamsLegal { configured 4 1 with samplesDone := 0xFFFFFFFB } ∧
      ({ configured 4 1 with samplesDone := 0xFFFFFFFB } : State).channels = 1#8) := by decide

theorem witness_CeilingScaleIsTheLeastCover :
    1 ≤ 2 ∧ ∀ r ∈ [(13 : Int), 0, 0, -6], r ≤ 7 * ((2 : Nat) : Int) ∧ -r ≤ 8 * ((2 : Nat) : Int) := by decide

/-- The two ends of the range. -/
theorem witness_ScaleIsBounded : ∀ r ∈ [(131071 : Int), -131072], -131072 ≤ r ∧ r ≤ 131071 := by decide

/-- A tie: 5 / 2. -/
theorem witness_QuantiserRoundsAsNamed :
    0 < 2 ∧ 2 * |(5 : Int) - roundQuant .halfAway 5 2 * 2| = 2 ∧ (6 : Int) = 3 * (2 : Nat) := by decide

theorem witness_QuantisationErrorIsHalfScale : (13 : Int) ∈ [(13 : Int), 0, 0, -6] := by decide

theorem witness_NibbleCodeTable : (-8 : Int) ≤ -8 ∧ (7 : Int) ≤ 7 := by decide

/-- Two frames that share channel 0's words and differ in channel 1's. -/
def frameA : State := framed 2 [1, 2, 4, 3]

def frameB : State := framed 2 [1, 9, 4, 9]

theorem witness_EncodedChannelsAreIndependent :
    (ParamsLegal frameA ∧ frameA.err = false ∧ frameB.err = false ∧ frameA.coefValid = true ∧ frameB.coefValid = true ∧
      frameA.blockSize = frameB.blockSize ∧ frameA.bitdepth = frameB.bitdepth ∧ frameA.channels = frameB.channels ∧
      frameA.coef0 = frameB.coef0 ∧ frameA.coef1 = frameB.coef1 ∧ frameA.samplesDone = frameB.samplesDone ∧
      frameA.openParams = frameB.openParams ∧ channelIndex .ch0 < frameA.channels.toNat ∧
      prediction frameA .ch0 = prediction frameB .ch0) ∧
    (∀ j, j < (2#16).toNat → readPcm frameA (pcmIndex frameA .ch0 j) = readPcm frameB (pcmIndex frameA .ch0 j)) ∧
    exec (.encblk 2#16) frameA = .next (after (exec (.encblk 2#16) frameA)) ∧
    exec (.encblk 2#16) frameB = .next (after (exec (.encblk 2#16) frameB)) ∧
    (after (exec (.encblk 2#16) frameA)).err = false := by
  refine ⟨by decide, ?_, rfl, rfl, rfl⟩
  intro j h
  have h3 : j < 2 := h
  interval_cases j <;> rfl

/-- 95 E1: the scale is 1, so every residual is a multiple of it. -/
def frameE1 : State := framed 1 [1, 4, 10, 15]

theorem witness_ExactRoundTrip :
    (frameE1.err = false ∧ ParamsLegal frameE1 ∧ frameE1.coefValid = true ∧ frameE1.openParams.scaleDiv = .ceil ∧
      1 ≤ (4#16).toNat ∧ (4#16).toNat ≤ (frameE1.blockSize.toNat - 2) * 2 ∧
      frameE1.samplesDone.toNat + (4#16).toNat ≤ 2 ^ 32 - 1) ∧
    ∀ ch, channelIndex ch < frameE1.channels.toNat → channelScale frameE1 ch (4#16).toNat < 2 ^ 16 ∧
      ∀ j, j < (4#16).toNat → (channelScale frameE1 ch (4#16).toNat : Int) ∣ residualAt frameE1 ch (4#16).toNat j := by
  have h1 : channelScale frameE1 .ch0 (4#16).toNat = 1 := by decide +kernel
  refine ⟨by decide, ?_⟩
  intro ch h
  cases ch
  · rw [h1]
    exact ⟨by decide, fun j _ => one_dvd _⟩
  · exact absurd h (by decide)

/-- The hypotheses of `RunsAs`, both clauses. -/
theorem witness_RunsAs :
    (pending (.transaction 0x30#32 7#32) State.reset).host = .transaction 0x30#32 7#32 :: [] ∧
    (0x30#32).toNat % 2 ^ 8 = 0x30 ∧ (0x30#32).toNat = 0x30 ∧
    (pending (.transaction 0x130#32 7#32) State.reset).host = .transaction 0x130#32 7#32 :: [] ∧
    (0x130#32).toNat % 2 ^ 8 = 0x30 ∧ (0x130#32).toNat ≠ 0x30 ∧
    (pending (.transaction 0x130#32 7#32) State.reset).err = false := by decide

/-- One state for each clause. -/
theorem witness_S2bConvertsTheSampleIndex :
    (({ configured 18 2 with smpIn := 100 } : State).err = false ∧ ParamsLegal { configured 18 2 with smpIn := 100 } ∧
      100 / ((18 - 2) * 2) * 18 * 2 ≤ 2 ^ 32 - 1) ∧
    (({ configured 255 2 with smpIn := 0xFFFFFFFF } : State).err = false ∧
      ParamsLegal { configured 255 2 with smpIn := 0xFFFFFFFF } ∧
      2 ^ 32 ≤ ({ configured 255 2 with smpIn := 0xFFFFFFFF } : State).smpIn.toNat / ((255 - 2) * 2) * 255 * 2) ∧
    (State.reset.err = false ∧ ¬ParamsLegal State.reset) ∧ broken.err = true := by decide

theorem witness_BoffGivesTheBlockOffset :
    (({ configured 18 2 with blkidxIn := 3, copyrightOffset := 404 } : State).err = false ∧
      ParamsLegal { configured 18 2 with blkidxIn := 3, copyrightOffset := 404 } ∧ 404 + 4 + 3 * 18 * 2 ≤ 2 ^ 32 - 1) ∧
    (ParamsLegal { configured 18 2 with blkidxIn := 0xFFFFFFFF } ∧
      2 ^ 32 ≤ ({ configured 18 2 with blkidxIn := 0xFFFFFFFF } : State).copyrightOffset.toNat + 4 +
        ({ configured 18 2 with blkidxIn := 0xFFFFFFFF } : State).blkidxIn.toNat * 18 * 2) ∧
    (State.reset.err = false ∧ ¬ParamsLegal State.reset) ∧ broken.err = true := by decide

theorem witness_LoopsetDerivesTheLoop :
    (({ configured 18 2 with loopBeginSample := 32, loopEndSample := 100 } : State).err = false ∧
      ParamsLegal { configured 18 2 with loopBeginSample := 32, loopEndSample := 100 } ∧
      32 / ((18 - 2) * 2) * 18 * 2 ≤ 2 ^ 32 - 1 ∧ 100 / ((18 - 2) * 2) * 18 * 2 ≤ 2 ^ 32 - 1) ∧
    (ParamsLegal { configured 18 2 with loopEndSample := 0xFFFFFFFF } ∧
      2 ^ 32 ≤ ({ configured 18 2 with loopEndSample := 0xFFFFFFFF } : State).loopEndSample.toNat / ((18 - 2) * 2) * 18 * 2) ∧
    (State.reset.err = false ∧ ¬ParamsLegal State.reset) ∧ broken.err = true := by decide

theorem witness_BlockOffsetIsBasePlusSampleOffset :
    (({ configured 18 2 with smpIn := 100, blkidxIn := 3 } : State).err = false ∧
      ParamsLegal { configured 18 2 with smpIn := 100, blkidxIn := 3 } ∧
      ({ configured 18 2 with smpIn := 100, blkidxIn := 3 } : State).blkidxIn.toNat =
        ({ configured 18 2 with smpIn := 100, blkidxIn := 3 } : State).smpIn.toNat / ((18 - 2) * 2)) ∧
    exec .s2b { configured 18 2 with smpIn := 100, blkidxIn := 3 } =
      .next (after (exec .s2b { configured 18 2 with smpIn := 100, blkidxIn := 3 })) ∧
    exec .boff { configured 18 2 with smpIn := 100, blkidxIn := 3 } =
      .next (after (exec .boff { configured 18 2 with smpIn := 100, blkidxIn := 3 })) ∧
    (after (exec .boff { configured 18 2 with smpIn := 100, blkidxIn := 3 })).err = false := by
  exact ⟨by decide, rfl, rfl, rfl⟩

/-- The smallest and the largest legal block. -/
theorem witness_SamplesPerBlockIsInRange :
    ParamsLegal (configured 3 1) ∧ ParamsLegal (configured 255 2) ∧ (configured 2 1).blockSize.toNat < 3 ∧
    ({ configured 4 1 with bitdepth := 8 } : State).bitdepth ≠ 4#8 := by decide

/-- Two states that agree on the converter's registers and differ in the table, the counters and the prediction state. -/
def loopA : State := configured 18 2

def loopB : State := { configured 18 2 with coefValid := false, samplesDone := 7, pred0 := ⟨1, 2⟩ }

theorem witness_ConverterIsPure :
    (loopA.err = loopB.err ∧ loopA.blockSize = loopB.blockSize ∧ loopA.bitdepth = loopB.bitdepth ∧
      loopA.channels = loopB.channels ∧ loopA.err = false) ∧
    (loopA.smpIn = loopB.smpIn ∧ exec .s2b loopA = .next (after (exec .s2b loopA)) ∧
      exec .s2b loopB = .next (after (exec .s2b loopB)) ∧ (after (exec .s2b loopA)).err = false) ∧
    (loopA.blkidxIn = loopB.blkidxIn ∧ loopA.copyrightOffset = loopB.copyrightOffset ∧
      exec .boff loopA = .next (after (exec .boff loopA)) ∧ exec .boff loopB = .next (after (exec .boff loopB)) ∧
      (after (exec .boff loopA)).err = false) ∧
    (loopA.loopBeginSample = loopB.loopBeginSample ∧ loopA.loopEndSample = loopB.loopEndSample ∧
      exec .loopset loopA = .next (after (exec .loopset loopA)) ∧
      exec .loopset loopB = .next (after (exec .loopset loopB)) ∧ (after (exec .loopset loopA)).err = false) := by
  refine ⟨by decide, ⟨rfl, rfl, rfl, rfl⟩, ⟨rfl, rfl, rfl, rfl, rfl⟩, rfl, rfl, rfl, rfl, rfl⟩

/-- The header of 95 section 1.4, with loop fields: version 3, and the boundary versions 2 and 5. -/
theorem witness_HeaderReadsBack :
    (∀ v, LoopBlock.other 2#8 = .other v → v ≠ 3#8 ∧ v ≠ 4#8) ∧ (∀ v, LoopBlock.other 5#8 = .other v → v ≠ 3#8 ∧ v ≠ 4#8) ∧
    ∀ v, LoopBlock.v4 ⟨true, 2, 3, 4, 5⟩ = .other v → v ≠ 3#8 ∧ v ≠ 4#8 := by
  refine ⟨?_, ?_, ?_⟩ <;> intro v h <;> cases h <;> decide

/-- Written as 95 section 1.4 has it, with loop fields: a version 3 header whose loop is enabled. -/
def exampleHeader : Header :=
  { copyrightOffset := 404, encodingType := 3, blockSize := 18, sampleBitdepth := 4, channelCount := 2, sampleRate := 44100
    totalSamples := 100, highpassFrequency := 500, flags := 0, loop := .v3 0 ⟨true, 32, 36, 100, 108⟩ }

/-- 95 section 1.4 for the bytes; 30_encoding R114 for the loop fields; R116 for another version. -/
theorem test_writeHeader :
    (writeHeader exampleHeader).take 20 =
      [0x80#8, 0x00#8, 0x01#8, 0x94#8, 0x03#8, 0x12#8, 0x04#8, 0x02#8, 0x00#8, 0x00#8, 0xAC#8, 0x44#8, 0x00#8, 0x00#8, 0x00#8,
        0x64#8, 0x01#8, 0xF4#8, 0x03#8, 0x00#8] ∧
    ((writeHeader exampleHeader).drop 0x18).take 8 = [0#8, 0#8, 0#8, 1#8, 0#8, 0#8, 0#8, 32#8] ∧
    loopEnabled exampleHeader.loop = true ∧ loopEnabled (.other 2#8) = false := by decide

theorem witness_HeaderReadsBack_stored :
    exampleHeader.loop = .v3 0 ⟨true, 32, 36, 100, 108⟩ ∧
    ({ exampleHeader with loop := .v4 ⟨false, 0, 0, 0, 0⟩ } : Header).loop = .v4 ⟨false, 0, 0, 0, 0⟩ := by decide

theorem witness_HeaderWorkedExample : (List.replicate 44 (0#8 : Byte)).length = 44 := by decide

end Sys2Proof.Tests
end

section
/-! PROOFS. Binary64 rounding over the reals (00_scope R13). A rounding is described in units of its last place: an exact
magnitude `x * ulp k` is rounded to the integer `s` nearest to `x`, and packed as `s * ulp k`. From that description alone
follow nearness among all finite values, the tie rule and the overflow threshold; each operation then only has to show
which real number it hands to `f64Round`. -/

namespace Sys2Proof.Machine

/-! ### Units of the last place -/

/-- The unit of the last place at exponent field `k` (`k = 0` for subnormals as for the least normal exponent). -/
noncomputable def ulp (k : Nat) : ℝ := 2 ^ ((k : ℤ) - 1074)

theorem ulp_pos (k : Nat) : 0 < ulp k := zpow_pos two_pos _

theorem ulp_add (k j : Nat) : ulp (k + j) = 2 ^ j * ulp k := by
  rw [ulp, ulp, ← zpow_natCast, ← zpow_add₀ two_ne_zero]
  congr 1
  push_cast
  ring

theorem ulp_succ (k : Nat) : ulp (k + 1) = 2 * ulp k := by rw [ulp_add, pow_one]

theorem ulp_mono {k l : Nat} (h : k ≤ l) : ulp k ≤ ulp l := zpow_le_zpow_right₀ one_le_two (by omega)

/-- The overflow threshold lies half a unit above the largest finite value. -/
theorem threshold_eq : (2 : ℝ) ^ 1024 - 2 ^ 970 = (2 ^ 53 - 1 / 2) * ulp 2045 := by
  have h : ulp 2045 = 2 * 2 ^ 970 := by rw [ulp, ← pow_succ', ← zpow_natCast]; rfl
  rw [h, show (2 : ℝ) ^ 1024 = 2 ^ 54 * 2 ^ 970 by rw [← pow_add]]
  generalize (2 : ℝ) ^ 970 = u
  ring

theorem ulp_1074 : ulp 1074 = 1 := zpow_zero _

theorem ulp_1075 : ulp 1075 = 2 := by rw [ulp_succ, ulp_1074, mul_one]

theorem two_pow_53_le_threshold : (2 : ℝ) ^ 53 ≤ 2 ^ 1024 - 2 ^ 970 := by
  have : 2 ≤ ulp 2045 := ulp_1075 ▸ ulp_mono (by omega)
  rw [threshold_eq]
  linarith

/-! ### The values of the format -/

/-- A magnitude with a sign bit. -/
def signed (neg : Bool) (a : ℝ) : ℝ := if neg then -a else a

@[simp] theorem signed_false (a : ℝ) : signed false a = a := rfl

@[simp] theorem signed_true (a : ℝ) : signed true a = -a := rfl

theorem abs_signed (neg : Bool) (a : ℝ) : |signed neg a| = |a| := by
  cases neg <;> simp

theorem signed_bne (s t : Bool) (a b : ℝ) : signed (s != t) (a * b) = signed s a * signed t b := by
  cases s <;> cases t <;> simp

theorem signed_inv (s : Bool) (a : ℝ) : signed s a⁻¹ = (signed s a)⁻¹ := by
  cases s <;> simp

theorem signed_mul (s : Bool) (a b : ℝ) : signed s (a * b) = signed s a * b := by
  cases s <;> simp

theorem cast_f64Value (x : Binary64) : (f64Value x : ℝ) = signed (f64Sign x) (f64Mant x * 2 ^ f64Exp x) := by
  rw [f64Value]
  cases f64Sign x <;> simp

theorem cast_f64Value_pack (neg : Bool) {k sig : Nat} (hc : Canonical k sig) (hk : k * 2 ^ 52 + sig < f64InfBits) :
    f64IsFinite (f64Pack neg (k * 2 ^ 52 + sig)) = true ∧
      (f64Value (f64Pack neg (k * 2 ^ 52 + sig)) : ℝ) = signed neg (sig * ulp k) := by
  obtain ⟨hfin, hval⟩ := f64Value_pack neg hc hk
  refine ⟨hfin, ?_⟩
  rw [hval, ulp]
  cases neg <;> simp

theorem f64Mant_lt (x : Binary64) : f64Mant x < 2 ^ 53 := by
  have h : f64Fraction x < 2 ^ 52 := by rw [f64Fraction_eq]; exact Nat.mod_lt _ (by decide)
  unfold f64Mant
  split <;> omega

/-- The exponent field of a finite pattern, with 0 and 1 standing for the same unit. -/
theorem exists_f64Exp_eq (x : Binary64) : ∃ k : Nat, f64Exp x = (k : ℤ) - 1074 ∧ (f64IsFinite x = true → k ≤ 2045) := by
  have hb : f64Biased x < 2 ^ 11 := by rw [f64Biased_eq]; exact Nat.mod_lt _ (by decide)
  refine ⟨f64Biased x - 1, ?_, fun h => ?_⟩
  · unfold f64Exp
    split <;> omega
  · have := bne_iff_ne.1 h
    omega

/-- The value of a pattern in units of any place: a whole number of them, or fewer than 2^52. -/
theorem f64Value_in_units (z : Binary64) (k : Nat) :
    ∃ y : ℝ, (f64Value z : ℝ) = y * ulp k ∧ ((∃ n : ℤ, y = n) ∨ (0 < k ∧ |y| < 2 ^ 52)) := by
  obtain ⟨j, hj, -⟩ := exists_f64Exp_eq z
  have hz : (f64Value z : ℝ) = signed (f64Sign z) (f64Mant z) * ulp j := by rw [cast_f64Value, hj, signed_mul, ulp]
  rcases le_or_gt k j with h | h
  · obtain ⟨d, rfl⟩ := Nat.exists_eq_add_of_le h
    refine ⟨signed (f64Sign z) (f64Mant z) * 2 ^ d, by rw [hz, ulp_add]; ring, .inl ?_⟩
    cases f64Sign z
    · exact ⟨(f64Mant z : ℤ) * 2 ^ d, by simp⟩
    · exact ⟨-(f64Mant z : ℤ) * 2 ^ d, by simp⟩
  · obtain ⟨d, rfl⟩ := Nat.exists_eq_add_of_lt h
    refine ⟨signed (f64Sign z) (f64Mant z) / 2 ^ (d + 1), ?_, .inr ⟨by omega, ?_⟩⟩
    · rw [hz, add_assoc, ulp_add]; field_simp
    · have hm : ((f64Mant z : ℕ) : ℝ) < 2 ^ 53 := by exact_mod_cast f64Mant_lt z
      have hd : (2 : ℝ) ≤ 2 ^ (d + 1) := le_self_pow₀ one_le_two (by omega)
      rw [abs_div, abs_signed, Nat.abs_cast, abs_of_pos (by positivity : (0 : ℝ) < 2 ^ (d + 1)), div_lt_iff₀ (by positivity)]
      linarith

/-- A finite value is below the overflow threshold. -/
theorem abs_f64Value_lt {x : Binary64} (h : f64IsFinite x = true) : |(f64Value x : ℝ)| < 2 ^ 1024 - 2 ^ 970 := by
  obtain ⟨k, hk, hfin⟩ := exists_f64Exp_eq x
  have hm : ((f64Mant x : ℕ) : ℝ) + 1 ≤ 2 ^ 53 := by exact_mod_cast Nat.succ_le_of_lt (f64Mant_lt x)
  rw [cast_f64Value, abs_signed, hk, threshold_eq, ← ulp, abs_of_nonneg (mul_nonneg (Nat.cast_nonneg _) (ulp_pos k).le)]
  calc (f64Mant x : ℝ) * ulp k ≤ f64Mant x * ulp 2045 := mul_le_mul_of_nonneg_left (ulp_mono (hfin h)) (Nat.cast_nonneg _)
    _ < (2 ^ 53 - 1 / 2) * ulp 2045 := mul_lt_mul_of_pos_right (by linarith) (ulp_pos _)

/-! ### Negation -/

theorem toNat_low63 (x : Binary64) : (x.extractLsb' 0 63).toNat = x.toNat % 2 ^ 63 := by
  simp only [BitVec.extractLsb'_toNat, Nat.shiftRight_zero]

theorem f64Sign_neg (x : Binary64) : f64Sign (f64Neg x) = !f64Sign x := f64Sign_pack _ (BitVec.isLt _)

theorem f64Biased_neg (x : Binary64) : f64Biased (f64Neg x) = f64Biased x := by
  rw [f64Neg, f64Biased_pack _ (BitVec.isLt _), toNat_low63, f64Biased_eq]
  omega

theorem f64Fraction_neg (x : Binary64) : f64Fraction (f64Neg x) = f64Fraction x := by
  rw [f64Neg, f64Fraction_pack _ (BitVec.isLt _), toNat_low63, f64Fraction_eq]
  omega

theorem f64IsFinite_neg (x : Binary64) : f64IsFinite (f64Neg x) = f64IsFinite x := by
  rw [f64IsFinite, f64IsFinite, f64Biased_neg]

theorem f64Value_neg (x : Binary64) : f64Value (f64Neg x) = -f64Value x := by
  have hm : f64Mant (f64Neg x) = f64Mant x := by rw [f64Mant, f64Mant, f64Biased_neg, f64Fraction_neg]
  have he : f64Exp (f64Neg x) = f64Exp x := by rw [f64Exp, f64Exp, f64Biased_neg]
  rw [f64Value, f64Value, f64Sign_neg, hm, he]
  cases f64Sign x <;> simp

/-! ### Rounding to the nearest unit -/

/-- `s` is `x` rounded to nearest, ties to even, where `x` is a magnitude in units of the last place that the format has
for it: `x` is below 2^53, and at least 2^52 unless the unit is already the least. -/
structure RoundsTo (k s : Nat) (x : ℝ) : Prop where
  near : |(s : ℝ) - x| ≤ 1 / 2
  even : |(s : ℝ) - x| = 1 / 2 → s % 2 = 0
  nonneg : 0 ≤ x
  lower : k = 0 ∨ 2 ^ 52 ≤ x
  upper : x < 2 ^ 53

/-- An integer within 1/2 of `x` is nearest to `x`, and no other is as near unless it is a tie. -/
theorem nearest_int {s n : ℤ} {x : ℝ} (h : |(s : ℝ) - x| ≤ 1 / 2) :
    |(s : ℝ) - x| ≤ |(n : ℝ) - x| ∧ (|(s : ℝ) - x| = |(n : ℝ) - x| → n = s ∨ |(s : ℝ) - x| = 1 / 2) := by
  rcases eq_or_ne n s with rfl | hne
  · exact ⟨le_rfl, fun _ => .inl rfl⟩
  · have h1 : (1 : ℝ) ≤ |(n : ℝ) - s| := by exact_mod_cast Int.one_le_abs (sub_ne_zero.2 hne)
    have h2 : |(n : ℝ) - s| ≤ |(n : ℝ) - x| + |(s : ℝ) - x| := by
      rw [abs_sub_comm (s : ℝ) x]
      exact abs_sub_le _ _ _
    exact ⟨by linarith, fun he => .inr (by linarith)⟩

namespace RoundsTo

variable {k s : Nat} {x : ℝ}

theorem le_sig_add_half (h : RoundsTo k s x) : x ≤ s + 1 / 2 := by
  have := (abs_le.1 h.near).1
  linarith

theorem sig_le_add_half (h : RoundsTo k s x) : s ≤ x + 1 / 2 := by
  have := (abs_le.1 h.near).2
  linarith

theorem sig_le (h : RoundsTo k s x) : s ≤ 2 ^ 53 := by
  have h1 : (s : ℝ) < 2 ^ 53 + 1 := by linarith [h.sig_le_add_half, h.upper]
  have h2 : s < 2 ^ 53 + 1 := by exact_mod_cast h1
  omega

theorem le_sig (h : RoundsTo k s x) : k = 0 ∨ 2 ^ 52 ≤ s := by
  refine h.lower.imp_right fun hx => ?_
  have h1 : (2 : ℝ) ^ 52 < s + 1 := by linarith [h.le_sig_add_half]
  have h2 : 2 ^ 52 < s + 1 := by exact_mod_cast h1
  omega

/-- No value of the format is nearer than the rounded one, and if another is as near the rounded one is even. -/
theorem nearest (h : RoundsTo k s x) (z : Binary64) :
    |s * ulp k - x * ulp k| ≤ |(f64Value z : ℝ) - x * ulp k| ∧
      (|s * ulp k - x * ulp k| = |(f64Value z : ℝ) - x * ulp k| → (f64Value z : ℝ) = s * ulp k ∨ s % 2 = 0) := by
  obtain ⟨y, hy, hcases⟩ := f64Value_in_units z k
  have hu := ulp_pos k
  rw [hy, ← sub_mul, ← sub_mul, abs_mul, abs_mul, abs_of_pos hu, mul_le_mul_iff_left₀ hu, mul_left_inj' hu.ne']
  have hnear : |((s : ℤ) : ℝ) - x| ≤ 1 / 2 := by exact_mod_cast h.near
  rcases hcases with ⟨n, rfl⟩ | ⟨hk, hlt⟩
  · obtain ⟨hle, htie⟩ := nearest_int (n := n) hnear
    rw [Int.cast_natCast] at hle htie
    refine ⟨hle, fun he => (htie he).imp ?_ h.even⟩
    rintro rfl
    simp
  · have hx : 2 ^ 52 ≤ x := h.lower.resolve_left (by omega)
    have hgrid := (nearest_int (n := 2 ^ 52) hnear).1
    rw [Int.cast_natCast, Int.cast_pow, Int.cast_ofNat, abs_of_nonpos (by linarith : (2 : ℝ) ^ 52 - x ≤ 0)] at hgrid
    have hfar : x - 2 ^ 52 < |y - x| := by
      have h1 := neg_abs_le (y - x)
      have h2 := le_abs_self y
      linarith
    exact ⟨by linarith, fun he => by linarith⟩

/-- The rounded pattern stays below the infinity exactly when the exact magnitude is below the overflow threshold. -/
theorem fits_iff (h : RoundsTo k s x) : k * 2 ^ 52 + s < f64InfBits ↔ x * ulp k < 2 ^ 1024 - 2 ^ 970 := by
  have hu := ulp_pos 2045
  have hs := h.sig_le
  have hl := h.le_sig
  have hpos := ulp_pos k
  rw [threshold_eq, f64InfBits]
  rcases lt_trichotomy k 2045 with hk | rfl | hk
  · refine iff_of_true (by omega) ?_
    have h2 : 2 * ulp k ≤ ulp 2045 := by rw [← ulp_succ]; exact ulp_mono hk
    calc x * ulp k ≤ 2 ^ 53 * ulp k := mul_le_mul_of_nonneg_right h.upper.le hpos.le
      _ ≤ 2 ^ 52 * ulp 2045 := by linarith
      _ < (2 ^ 53 - 1 / 2) * ulp 2045 := mul_lt_mul_of_pos_right (by norm_num) hu
  · rw [mul_lt_mul_iff_left₀ hu]
    constructor
    · intro hlt
      have hs1 : s + 1 ≤ 2 ^ 53 := by omega
      have hsr : (s : ℝ) + 1 ≤ 2 ^ 53 := by exact_mod_cast hs1
      refine lt_of_le_of_ne (by linarith [h.le_sig_add_half]) fun he => ?_
      have hsx : (s : ℝ) + 1 = 2 ^ 53 := by linarith [h.le_sig_add_half]
      have hodd : s + 1 = 2 ^ 53 := by exact_mod_cast hsx
      have := h.even (by rw [he, eq_sub_of_add_eq hsx]; norm_num)
      omega
    · intro hlt
      have hsr : (s : ℝ) < 2 ^ 53 := by linarith [h.sig_le_add_half]
      have : s < 2 ^ 53 := by exact_mod_cast hsr
      omega
  · refine iff_of_false (by omega) (not_lt.2 ?_)
    have hx := h.lower.resolve_left (by omega)
    have h2 : 2 * ulp 2045 ≤ ulp k := by rw [← ulp_succ]; exact ulp_mono hk
    calc (2 ^ 53 - 1 / 2) * ulp 2045 ≤ 2 ^ 52 * (2 * ulp 2045) := by linarith
      _ ≤ 2 ^ 52 * ulp k := mul_le_mul_of_nonneg_left h2 (by positivity)
      _ ≤ x * ulp k := mul_le_mul_of_nonneg_right hx hpos.le

/-- The packed pattern has the rounded value, also where the significand carries into the next exponent. -/
theorem value_pack (h : RoundsTo k s x) (neg : Bool) (hlt : k * 2 ^ 52 + s < f64InfBits) :
    f64IsFinite (f64Pack neg (k * 2 ^ 52 + s)) = true ∧
      (f64Value (f64Pack neg (k * 2 ^ 52 + s)) : ℝ) = signed neg (s * ulp k) := by
  rcases h.sig_le.lt_or_eq with hs | rfl
  · exact cast_f64Value_pack neg ⟨hs, h.le_sig⟩ hlt
  · rw [show k * 2 ^ 52 + 2 ^ 53 = (k + 1) * 2 ^ 52 + 2 ^ 52 by ring] at hlt ⊢
    have hcarry : ((2 ^ 53 : ℕ) : ℝ) * ulp k = (2 ^ 52 : ℕ) * ulp (k + 1) := by rw [ulp_succ]; push_cast; ring
    rw [hcarry]
    exact cast_f64Value_pack neg ⟨by norm_num, .inr le_rfl⟩ hlt

/-- A whole number of units is not changed by rounding. -/
theorem sig_eq (h : RoundsTo k s x) {n : ℤ} (hn : x = n) : (s : ℝ) = x := by
  have hle := (nearest_int (s := s) (n := n) h.near).1
  rw [← hn, sub_self, abs_zero] at hle
  exact sub_eq_zero.1 (abs_nonpos_iff.1 hle)

end RoundsTo

/-! ### A rounded magnitude -/

/-- `r` is the magnitude `a`, rounded once and packed with the sign bit `neg`. -/
def IsRounding (neg : Bool) (a : ℝ) (r : Binary64) : Prop :=
  ∃ (k s : Nat) (x : ℝ), RoundsTo k s x ∧ a = x * ulp k ∧ r = f64Pack neg (min (k * 2 ^ 52 + s) f64InfBits)

theorem isRounding_zero (neg : Bool) : IsRounding neg 0 (f64Zero neg) :=
  ⟨0, 0, 0, ⟨by norm_num, fun _ => rfl, le_rfl, .inl rfl, by norm_num⟩, by simp, rfl⟩

namespace IsRounding

variable {neg : Bool} {a : ℝ} {r : Binary64}

theorem nonneg (h : IsRounding neg a r) : 0 ≤ a := by
  obtain ⟨k, s, x, hx, rfl, -⟩ := h
  exact mul_nonneg hx.nonneg (ulp_pos k).le

/-- Below the overflow threshold the result is finite, and this is its value. -/
theorem value (h : IsRounding neg a r) (hlt : a < 2 ^ 1024 - 2 ^ 970) :
    ∃ (k s : Nat) (x : ℝ), RoundsTo k s x ∧ a = x * ulp k ∧ r = f64Pack neg (k * 2 ^ 52 + s) ∧
      k * 2 ^ 52 + s < f64InfBits ∧ f64IsFinite r = true ∧ (f64Value r : ℝ) = signed neg (s * ulp k) := by
  obtain ⟨k, s, x, hx, rfl, rfl⟩ := h
  have hfit := hx.fits_iff.2 hlt
  rw [min_eq_left hfit.le]
  exact ⟨k, s, x, hx, rfl, rfl, hfit, hx.value_pack neg hfit⟩

theorem overflow (h : IsRounding neg a r) (hle : 2 ^ 1024 - 2 ^ 970 ≤ a) : r = f64Inf neg := by
  obtain ⟨k, s, x, hx, rfl, rfl⟩ := h
  rw [min_eq_right (not_lt.1 fun hfit => (hx.fits_iff.1 hfit).not_ge hle), f64Inf]

theorem nearest (h : IsRounding neg a r) (hlt : a < 2 ^ 1024 - 2 ^ 970) :
    f64IsFinite r = true ∧ ∀ z : Binary64,
      |(f64Value r : ℝ) - signed neg a| ≤ |(f64Value z : ℝ) - signed neg a| ∧
        (|(f64Value r : ℝ) - signed neg a| = |(f64Value z : ℝ) - signed neg a| →
          (f64Value z : ℝ) = f64Value r ∨ r.toNat % 2 = 0) := by
  obtain ⟨k, s, x, hx, rfl, hr, hfit, hfin, hval⟩ := h.value hlt
  have hparity : r.toNat % 2 = s % 2 := by
    rw [hr, toNat_f64Pack neg (by unfold f64InfBits at hfit; omega)]
    omega
  refine ⟨hfin, fun z => ?_⟩
  rw [hval, hparity]
  cases neg
  · exact hx.nearest z
  · have hflip : ∀ b c : ℝ, |-b - -c| = |b - c| := fun b c => by rw [neg_sub_neg, abs_sub_comm]
    have hz : (f64Value z : ℝ) = -(f64Value (f64Neg z) : ℝ) := by rw [f64Value_neg]; simp
    rw [signed_true, signed_true, hz, hflip, hflip, neg_inj]
    exact hx.nearest (f64Neg z)

/-- A rounded magnitude with the sign of the exact value is that value correctly rounded. -/
theorem correctlyRounded (h : IsRounding neg a r) {e : ℚ} (he : (e : ℝ) = signed neg a) : CorrectlyRounded r e := by
  have habs : ((|e| : ℚ) : ℝ) = a := by rw [Rat.cast_abs, he, abs_signed, abs_of_nonneg h.nonneg]
  constructor
  · intro hlt
    obtain ⟨hfin, hnear⟩ := h.nearest (by rw [← habs]; exact_mod_cast hlt)
    rw [← he] at hnear
    exact ⟨hfin, fun z _ => by exact_mod_cast hnear z⟩
  · intro hle
    have hlea : (2 : ℝ) ^ 1024 - 2 ^ 970 ≤ a := by rw [← habs]; exact_mod_cast hle
    have hpos : 0 < a := lt_of_lt_of_le (by rw [threshold_eq]; exact mul_pos (by norm_num) (ulp_pos _)) hlea
    have hneg : e < 0 ↔ neg = true := by
      rw [← Rat.cast_lt (K := ℝ), he, Rat.cast_zero]
      cases neg <;> simp [hpos, hpos.le]
    rw [h.overflow hlea]
    simp only [hneg]
    cases neg <;> rfl

end IsRounding

/-! ### What `f64Round` is given -/

/-- The integer `m` stands for the real `w`: it is equal, or it is odd (the sticky bit), has 55 bits or more, and lies
between the same two even integers. -/
def StandsFor (m : Nat) (w : ℝ) : Prop :=
  w = m ∨ (m % 2 = 1 ∧ 2 ^ 54 ≤ m ∧ (m : ℝ) - 1 < w ∧ w < m + 1)

/-- The leading bit of the integer is the leading bit of what it stands for. -/
theorem StandsFor.leading_bit {m : Nat} {w : ℝ} (h : StandsFor m w) (hm : m ≠ 0) :
    (2 : ℝ) ^ Nat.log2 m ≤ w ∧ w < 2 ^ (Nat.log2 m + 1) := by
  have hlo := Nat.log2_self_le hm
  have hhi : m < 2 ^ (Nat.log2 m + 1) := Nat.lt_log2_self
  rcases h with rfl | ⟨hodd, hbig, h1, h2⟩
  · exact ⟨by exact_mod_cast hlo, by exact_mod_cast hhi⟩
  · have hl : Nat.log2 m ≠ 0 := fun h0 => by rw [h0] at hhi; omega
    obtain ⟨l, hl⟩ := Nat.exists_eq_add_one_of_ne_zero hl
    rw [hl] at hlo hhi ⊢
    have hlo' : 2 ^ (l + 1) + 1 ≤ m := by rw [pow_succ] at hlo ⊢; omega
    have c1 : (2 : ℝ) ^ (l + 1) + 1 ≤ m := by exact_mod_cast hlo'
    have c2 : (m : ℝ) + 1 ≤ 2 ^ (l + 1 + 1) := by exact_mod_cast hhi
    exact ⟨by linarith, by linarith⟩

/-- Two bits or more below the last place, the sticky bit rounds as the real number it stands for. -/
theorem StandsFor.roundShift_near {m j : Nat} {w : ℝ} (h : StandsFor m w) (hj : 2 ^ 54 ≤ m → 2 ≤ j) :
    |(roundShift m j : ℝ) - w / 2 ^ j| ≤ 1 / 2 ∧
      (|(roundShift m j : ℝ) - w / 2 ^ j| = 1 / 2 → roundShift m j % 2 = 0) := by
  obtain ⟨h1, h2, heven⟩ := roundShift_spec m j
  generalize roundShift m j = s at *
  have hp : (0 : ℝ) < 2 ^ j := by positivity
  have hscale : |(s : ℝ) - w / 2 ^ j| = |2 * (s * 2 ^ j) - 2 * w| / (2 * 2 ^ j) := by
    rw [← mul_sub, abs_mul, abs_two, mul_div_mul_left _ _ two_ne_zero, ← abs_of_pos hp, ← abs_div, abs_of_pos hp, sub_div,
      mul_div_cancel_right₀ _ hp.ne']
  rw [hscale, div_le_div_iff₀ (by positivity) two_pos, div_eq_div_iff (by positivity) two_ne_zero]
  rcases h with rfl | ⟨hodd, hbig, hw1, hw2⟩
  · have c1 : 2 * (m : ℝ) ≤ 2 * (s * 2 ^ j) + 2 ^ j := by exact_mod_cast h1
    have c2 : 2 * ((s : ℝ) * 2 ^ j) ≤ 2 * m + 2 ^ j := by exact_mod_cast h2
    have hle : |2 * ((s : ℝ) * 2 ^ j) - 2 * m| ≤ 2 ^ j := abs_le.2 ⟨by linarith, by linarith⟩
    refine ⟨by linarith, fun he => ?_⟩
    rcases abs_choice (2 * ((s : ℝ) * 2 ^ j) - 2 * m) with hc | hc <;> rw [hc] at he
    · exact heven (.inr (by exact_mod_cast (by linarith : 2 * ((s : ℝ) * 2 ^ j) = 2 * m + 2 ^ j)))
    · exact heven (.inl (by exact_mod_cast (by linarith : 2 * (m : ℝ) = 2 * (s * 2 ^ j) + 2 ^ j)))
  · obtain ⟨i, rfl⟩ := Nat.exists_eq_add_of_le (hj hbig)
    have hi : 2 ^ (2 + i) = 4 * 2 ^ i := by ring
    have hsi : s * 2 ^ (2 + i) = 4 * (s * 2 ^ i) := by ring
    have g1 : 2 * m + 2 ≤ 2 * (s * 2 ^ (2 + i)) + 2 ^ (2 + i) := by omega
    have g2 : 2 * (s * 2 ^ (2 + i)) + 2 ≤ 2 * m + 2 ^ (2 + i) := by omega
    have c1 : 2 * (m : ℝ) + 2 ≤ 2 * (s * 2 ^ (2 + i)) + 2 ^ (2 + i) := by exact_mod_cast g1
    have c2 : 2 * ((s : ℝ) * 2 ^ (2 + i)) + 2 ≤ 2 * m + 2 ^ (2 + i) := by exact_mod_cast g2
    have hlt : |2 * ((s : ℝ) * 2 ^ (2 + i)) - 2 * w| < 2 ^ (2 + i) := abs_lt.2 ⟨by linarith, by linarith⟩
    exact ⟨by linarith, fun he => by linarith⟩

/-- The exponent `q` of the last place that `f64Round` gives `m * 2 ^ e`. -/
def lastPlace (m : Nat) (e : ℤ) : ℤ := max (e + (Nat.log2 m : ℤ) - 52) (-1074)

/-- The significand `f64Round` brings to the last place `q`. -/
def sigAt (m : Nat) (e q : ℤ) : Nat := if q ≤ e then m * 2 ^ (e - q).toNat else roundShift m (q - e).toNat

theorem f64Round_zero (neg : Bool) (e : ℤ) : f64Round neg 0 e = f64Zero neg := rfl

theorem f64Round_eq (neg : Bool) {m k : Nat} {e : ℤ} (hm : m ≠ 0) (hk : lastPlace m e = (k : ℤ) - 1074) :
    f64Round neg m e = f64Pack neg (min (k * 2 ^ 52 + sigAt m e ((k : ℤ) - 1074)) f64InfBits) := by
  have hk' : (lastPlace m e + 1074).toNat = k := by omega
  rw [← hk, ← hk', f64Round, if_neg hm]
  rfl

/-- The last place leaves 53 bits above it, or fewer where it is the least place of the format. -/
theorem StandsFor.in_units {m k : Nat} {e : ℤ} {w : ℝ} (h : StandsFor m w) (hm : m ≠ 0)
    (hk : lastPlace m e = (k : ℤ) - 1074) :
    0 ≤ w / 2 ^ ((k : ℤ) - 1074 - e) ∧ (k = 0 ∨ 2 ^ 52 ≤ w / 2 ^ ((k : ℤ) - 1074 - e)) ∧
      w / 2 ^ ((k : ℤ) - 1074 - e) < 2 ^ 53 := by
  obtain ⟨hlo, hhi⟩ := h.leading_bit hm
  have hpos : (0 : ℝ) < 2 ^ ((k : ℤ) - 1074 - e) := by positivity
  have hw : 0 ≤ w := le_trans (by positivity) hlo
  unfold lastPlace at hk
  refine ⟨by positivity, ?_, ?_⟩
  · refine or_iff_not_imp_left.2 fun h0 => (le_div_iff₀ hpos).2 (le_trans (le_of_eq ?_) hlo)
    rw [← zpow_natCast, ← zpow_natCast, ← zpow_add₀ two_ne_zero]
    congr 1
    omega
  · refine (div_lt_iff₀ hpos).2 (lt_of_lt_of_le hhi ?_)
    rw [← zpow_natCast, ← zpow_natCast, ← zpow_add₀ two_ne_zero]
    exact zpow_le_zpow_right₀ one_le_two (by omega)

/-- The significand is the nearest number of units of the last place, an even one in a tie. -/
theorem StandsFor.sigAt_near {m : Nat} {e : ℤ} {w : ℝ} (h : StandsFor m w) :
    |(sigAt m e (lastPlace m e) : ℝ) - w / 2 ^ (lastPlace m e - e)| ≤ 1 / 2 ∧
      (|(sigAt m e (lastPlace m e) : ℝ) - w / 2 ^ (lastPlace m e - e)| = 1 / 2 → sigAt m e (lastPlace m e) % 2 = 0) := by
  have hbits : 2 ^ 54 ≤ m → 54 ≤ Nat.log2 m := fun hbig => (Nat.le_log2 (by omega)).2 hbig
  have hplace : e + (Nat.log2 m : ℤ) - 52 ≤ lastPlace m e := le_max_left _ _
  generalize lastPlace m e = q at *
  unfold sigAt
  split
  · have hexact : w = m := h.resolve_right fun ⟨_, hbig, _⟩ => by have := hbits hbig; omega
    have hz : (2 : ℝ) ^ (q - e) = (2 ^ (e - q).toNat)⁻¹ := by
      rw [← zpow_natCast, ← zpow_neg]
      congr 1
      omega
    rw [hexact, hz]
    push_cast
    rw [div_inv_eq_mul, sub_self, abs_zero]
    norm_num
  · have hz : (2 : ℝ) ^ (q - e) = 2 ^ (q - e).toNat := by
      rw [← zpow_natCast]
      congr 1
      omega
    rw [hz]
    exact h.roundShift_near fun hbig => by have := hbits hbig; omega

/-- `f64Round` rounds, once, the real magnitude it is given. -/
theorem isRounding_f64Round (neg : Bool) {m : Nat} (e : ℤ) {w : ℝ} (h : StandsFor m w) :
    IsRounding neg (w * 2 ^ e) (f64Round neg m e) := by
  rcases eq_or_ne m 0 with rfl | hm
  · have hw : w = 0 := by
      rcases h with rfl | ⟨-, hbig, -⟩
      · exact Nat.cast_zero
      · omega
    rw [f64Round_zero, hw, zero_mul]
    exact isRounding_zero neg
  · obtain ⟨k, hk⟩ : ∃ k : Nat, lastPlace m e = (k : ℤ) - 1074 :=
      ⟨(lastPlace m e + 1074).toNat, by have : -1074 ≤ lastPlace m e := le_max_right _ _; omega⟩
    obtain ⟨hnonneg, hlower, hupper⟩ := h.in_units hm hk
    have hsig := h.sigAt_near (e := e)
    rw [hk] at hsig
    refine ⟨k, _, _, ⟨hsig.1, hsig.2, hnonneg, hlower, hupper⟩, ?_, f64Round_eq neg hm hk⟩
    rw [ulp, zpow_sub₀ two_ne_zero _ e]
    field_simp

/-! ### Sum, difference, product -/

section Finite

variable {x y : Binary64}

theorem f64IsNaN_of_finite (h : f64IsFinite x = true) : f64IsNaN x = false := by
  unfold f64IsNaN
  rw [beq_false_of_ne (bne_iff_ne.1 h), Bool.false_and]

theorem f64IsInf_of_finite (h : f64IsFinite x = true) : f64IsInf x = false := by
  unfold f64IsInf
  rw [beq_false_of_ne (bne_iff_ne.1 h), Bool.false_and]

/-- The exponent at which `f64Add` adds. -/
def sumExp (x y : Binary64) : ℤ := min (f64Exp x) (f64Exp y)

/-- The exact sum as an integer at that exponent. -/
def sumSig (x y : Binary64) : ℤ := f64Aligned x (sumExp x y) + f64Aligned y (sumExp x y)

theorem f64Add_of_finite (hx : f64IsFinite x = true) (hy : f64IsFinite y = true) :
    f64Add x y =
      if sumSig x y = 0 then f64Zero (f64Sign x && f64Sign y)
      else f64Round (decide (sumSig x y < 0)) (sumSig x y).natAbs (sumExp x y) := by
  simp only [f64Add, f64IsNaN_of_finite hx, f64IsNaN_of_finite hy, f64IsInf_of_finite hx, f64IsInf_of_finite hy,
    Bool.or_self, Bool.false_eq_true, if_false]
  rfl

theorem f64Mul_of_finite (hx : f64IsFinite x = true) (hy : f64IsFinite y = true) :
    f64Mul x y = f64Round (f64Sign x != f64Sign y) (f64Mant x * f64Mant y) (f64Exp x + f64Exp y) := by
  simp [f64Mul, f64IsNaN_of_finite, f64IsInf_of_finite, hx, hy]

/-- A significand aligned to an exponent at most its own keeps its value. -/
theorem f64Aligned_value {e : ℤ} (h : e ≤ f64Exp x) : (f64Aligned x e : ℝ) * 2 ^ e = f64Value x := by
  have hz : (2 : ℝ) ^ (f64Exp x) = 2 ^ (f64Exp x - e).toNat * 2 ^ e := by
    rw [← zpow_natCast, ← zpow_add₀ two_ne_zero]
    congr 1
    omega
  rw [cast_f64Value, hz, f64Aligned]
  cases f64Sign x
  · simp [mul_assoc]
  · simp [mul_assoc]

/-- An integer times a power of two, rounded with the sign of the integer. -/
theorem isRounding_int (t e : ℤ) :
    IsRounding (decide (t < 0)) (|(t : ℝ)| * 2 ^ e) (f64Round (decide (t < 0)) t.natAbs e) :=
  isRounding_f64Round _ e (.inl (by rw [Nat.cast_natAbs, Int.cast_abs]))

theorem signed_abs_int (t : ℤ) : signed (decide (t < 0)) |(t : ℝ)| = t := by
  rcases lt_or_ge t 0 with h | h
  · rw [decide_eq_true h, signed_true, abs_of_neg (Int.cast_lt_zero.2 h), neg_neg]
  · rw [decide_eq_false h.not_gt, signed_false, abs_of_nonneg (Int.cast_nonneg h)]

theorem correctlyRounded_zero (neg : Bool) : CorrectlyRounded (f64Zero neg) 0 :=
  (isRounding_zero neg).correctlyRounded (by cases neg <;> simp)

theorem correctlyRounded_add (hx : f64IsFinite x = true) (hy : f64IsFinite y = true) :
    CorrectlyRounded (f64Add x y) (f64Value x + f64Value y) := by
  have hex : sumExp x y ≤ f64Exp x := min_le_left _ _
  have hey : sumExp x y ≤ f64Exp y := min_le_right _ _
  have hsum : ((f64Value x + f64Value y : ℚ) : ℝ) = sumSig x y * 2 ^ sumExp x y := by
    rw [sumSig, Rat.cast_add, Int.cast_add, add_mul, f64Aligned_value hex, f64Aligned_value hey]
  rw [f64Add_of_finite hx hy]
  split
  next h0 =>
    rw [h0, Int.cast_zero, zero_mul, Rat.cast_eq_zero] at hsum
    rw [hsum]
    exact correctlyRounded_zero _
  next => exact (isRounding_int _ _).correctlyRounded (by rw [hsum, signed_mul, signed_abs_int])

theorem correctlyRounded_sub (hx : f64IsFinite x = true) (hy : f64IsFinite y = true) :
    CorrectlyRounded (f64Sub x y) (f64Value x - f64Value y) := by
  rw [f64Sub, sub_eq_add_neg, ← f64Value_neg]
  exact correctlyRounded_add hx (by rw [f64IsFinite_neg, hy])

theorem correctlyRounded_mul (hx : f64IsFinite x = true) (hy : f64IsFinite y = true) :
    CorrectlyRounded (f64Mul x y) (f64Value x * f64Value y) := by
  rw [f64Mul_of_finite hx hy]
  refine (isRounding_f64Round _ _ (.inl rfl)).correctlyRounded ?_
  rw [Rat.cast_mul, cast_f64Value, cast_f64Value, ← signed_bne, Nat.cast_mul, zpow_add₀ two_ne_zero, mul_mul_mul_comm]

end Finite

/-! ### Exact conversion of integers -/

/-- An integer below 2^53 is a whole number of its units of the last place, so that rounding keeps it. -/
theorem IsRounding.exact_int {neg : Bool} {n : ℕ} {r : Binary64} (h : IsRounding neg n r) (hn : n < 2 ^ 53) :
    f64IsFinite r = true ∧ (f64Value r : ℝ) = signed neg n := by
  have hn' : (n : ℝ) < 2 ^ 53 := by exact_mod_cast hn
  obtain ⟨k, s, x, hx, ha, -, -, hfin, hval⟩ := h.value (hn'.trans_le two_pow_53_le_threshold)
  refine ⟨hfin, ?_⟩
  have hk : k ≤ 1074 := by
    by_contra hk
    have hx52 : 2 ^ 52 ≤ x := hx.lower.resolve_left (by omega)
    have hu : 2 ≤ ulp k := ulp_1075 ▸ ulp_mono (by omega)
    have : 2 ^ 52 * 2 ≤ x * ulp k := mul_le_mul hx52 hu zero_le_two hx.nonneg
    linarith
  obtain ⟨d, hd⟩ := Nat.exists_eq_add_of_le hk
  have hone : 2 ^ d * ulp k = 1 := by rw [← ulp_add, ← hd, ulp_1074]
  have hxn : x = ((n * 2 ^ d : ℕ) : ℤ) := by
    push_cast
    rw [ha, mul_assoc, mul_comm (ulp k), hone, mul_one]
  rw [hval, hx.sig_eq hxn, ha]

theorem i2f_exact {k : ℤ} (hk : |k| < 2 ^ 53) : f64IsFinite (i2f k) = true ∧ f64Value (i2f k) = (k : ℚ) := by
  have h := isRounding_int k 0
  rw [zpow_zero, mul_one, ← Int.cast_abs, ← Nat.cast_natAbs] at h
  obtain ⟨hfin, hval⟩ := h.exact_int (by rw [Int.abs_eq_natAbs] at hk; exact_mod_cast hk)
  rw [Nat.cast_natAbs, Int.cast_abs, signed_abs_int] at hval
  exact ⟨hfin, by exact_mod_cast hval⟩

/-! ### Quotient and square root: the sticky bit -/

/-- Twice a real number between two integers is stood for by twice the lower one with a sticky bit. -/
theorem standsFor_sticky {q : Nat} {w : ℝ} {p : Prop} [Decidable p] (hexact : p → w = q)
    (hbetween : ¬p → 2 ^ 53 ≤ q ∧ (q : ℝ) < w ∧ w < q + 1) : StandsFor (2 * q + if p then 0 else 1) (2 * w) := by
  by_cases hp : p
  · rw [if_pos hp, hexact hp]
    exact .inl (by push_cast; ring)
  · obtain ⟨hbig, hlo, hhi⟩ := hbetween hp
    rw [if_neg hp]
    exact .inr ⟨by omega, by omega, by push_cast; linarith, by push_cast; linarith⟩

theorem standsFor_quotient {n d : Nat} (hd : 0 < d) (hbig : n ≠ 0 → 2 ^ 53 ≤ n / d) :
    StandsFor (2 * (n / d) + if n % d = 0 then 0 else 1) (2 * (n / d : ℝ)) := by
  have hdr : (0 : ℝ) < d := by exact_mod_cast hd
  have hdiv := Nat.div_add_mod n d
  refine standsFor_sticky (fun h0 => ?_) fun h0 => ⟨hbig ?_, ?_, ?_⟩
  · exact (Nat.cast_div (Nat.dvd_of_mod_eq_zero h0) hdr.ne').symm
  · rintro rfl
    exact h0 (Nat.zero_mod d)
  · rw [lt_div_iff₀ hdr]
    have : n / d * d < n := by rw [mul_comm]; omega
    exact_mod_cast this
  · rw [div_lt_iff₀ hdr]
    exact_mod_cast Nat.lt_mul_of_div_lt (Nat.lt_succ_self (n / d)) hd

theorem standsFor_root {n r : Nat} (hlo : r * r ≤ n) (hhi : n < (r + 1) * (r + 1)) (hbig : 2 ^ 53 ≤ r) :
    StandsFor (2 * r + if r * r = n then 0 else 1) (2 * √(n : ℝ)) := by
  refine standsFor_sticky (fun h0 => ?_) fun h0 => ⟨hbig, ?_, ?_⟩
  · rw [← h0, Nat.cast_mul, Real.sqrt_mul_self (Nat.cast_nonneg r)]
  · refine Real.lt_sqrt_of_sq_lt ?_
    rw [sq]
    exact_mod_cast lt_of_le_of_ne hlo h0
  · rw [Real.sqrt_lt' (by positivity), sq]
    exact_mod_cast hhi

section Finite

variable {x y : Binary64}

theorem f64Mant_pos (h : f64IsZero y = false) : 0 < f64Mant y := by
  unfold f64Mant
  split
  next hb =>
    unfold f64IsZero at h
    rw [hb, beq_self_eq_true, Bool.true_and, beq_eq_false_iff_ne] at h
    omega
  next => omega

theorem f64Div_of_finite (hx : f64IsFinite x = true) (hy : f64IsFinite y = true) (h0 : f64IsZero y = false) :
    f64Div x y = f64Round (f64Sign x != f64Sign y)
      (2 * (f64Mant x * 2 ^ 110 / f64Mant y) + if f64Mant x * 2 ^ 110 % f64Mant y = 0 then 0 else 1)
      (f64Exp x - f64Exp y - 111) := by
  simp [f64Div, f64IsNaN_of_finite, f64IsInf_of_finite, hx, hy, h0]

theorem correctlyRounded_div (hx : f64IsFinite x = true) (hy : f64IsFinite y = true) (h0 : f64IsZero y = false) :
    CorrectlyRounded (f64Div x y) (f64Value x / f64Value y) := by
  have hd := f64Mant_pos h0
  have hbig : f64Mant x * 2 ^ 110 ≠ 0 → 2 ^ 53 ≤ f64Mant x * 2 ^ 110 / f64Mant y := fun hn => by
    have hlt := f64Mant_lt y
    rw [Nat.le_div_iff_mul_le hd]
    have hpos : 1 ≤ f64Mant x := by omega
    calc 2 ^ 53 * f64Mant y ≤ 2 ^ 53 * 2 ^ 53 := Nat.mul_le_mul_left _ hlt.le
      _ ≤ f64Mant x * 2 ^ 110 := by omega
  rw [f64Div_of_finite hx hy h0]
  refine (isRounding_f64Round _ _ (standsFor_quotient hd hbig)).correctlyRounded ?_
  have hdr : ((f64Mant y : ℕ) : ℝ) ≠ 0 := by exact_mod_cast hd.ne'
  rw [Rat.cast_div, cast_f64Value, cast_f64Value, div_eq_mul_inv, ← signed_inv, ← signed_bne, zpow_sub₀ two_ne_zero,
    zpow_sub₀ two_ne_zero]
  congr 1
  push_cast
  field_simp
  norm_num

/-- A zero of positive sign is the pattern 0. -/
theorem eq_zero_of_isZero (h0 : f64IsZero x = true) (hs : f64Sign x = false) : x = f64Zero false := by
  simp only [f64IsZero, Bool.and_eq_true, beq_iff_eq, f64Biased_eq, f64Fraction_eq] at h0
  simp only [f64Sign, BitVec.msb_eq_decide, decide_eq_false_iff_not] at hs
  refine BitVec.eq_of_toNat_eq ?_
  rw [f64Zero, toNat_f64Pack false (by decide), Bool.toNat_false]
  omega

theorem f64Sqrt_of_finite (hx : f64IsFinite x = true) (hs : f64Sign x = false) (h0 : f64IsZero x = false) {k n r : Nat}
    (hk : k = if f64Exp x % 2 = 0 then 110 else 111) (hn : n = f64Mant x * 2 ^ k) (hr : r = isqrtFrom n 82 0) :
    f64Sqrt x = f64Round false (2 * r + if r * r = n then 0 else 1) ((f64Exp x - k) / 2 - 1) := by
  subst hr hn hk
  simp [f64Sqrt, f64IsNaN_of_finite, f64IsInf_of_finite, hx, hs, h0]

/-- The root of a significand brought to an even exponent `k + 2 * h`. -/
theorem sqrt_scaled (m k : Nat) (h : ℤ) : √((m : ℝ) * 2 ^ ((k : ℤ) + 2 * h)) = 2 * √((m * 2 ^ k : ℕ) : ℝ) * 2 ^ (h - 1) := by
  have hp : (0 : ℝ) ≤ 2 ^ h := by positivity
  have hsq : (2 : ℝ) ^ ((k : ℤ) + 2 * h) = 2 ^ k * (2 ^ h * 2 ^ h) := by
    rw [← zpow_natCast, ← zpow_add₀ two_ne_zero, ← zpow_add₀ two_ne_zero, two_mul]
  rw [hsq, ← mul_assoc, Real.sqrt_mul (by positivity), Real.sqrt_mul_self hp, zpow_sub_one₀ two_ne_zero]
  push_cast
  ring

/-- The square root of a finite value of positive sign is the real root, rounded once. -/
theorem isRounding_f64Sqrt (hx : f64IsFinite x = true) (hs : f64Sign x = false) :
    IsRounding false √(f64Value x : ℝ) (f64Sqrt x) := by
  cases h0 : f64IsZero x
  · obtain ⟨k, hk⟩ : ∃ k, k = if f64Exp x % 2 = 0 then 110 else 111 := ⟨_, rfl⟩
    have hk110 : 110 ≤ k ∧ k ≤ 111 := by split at hk <;> omega
    obtain ⟨h, hh⟩ : ∃ h : ℤ, f64Exp x = k + 2 * h := ⟨(f64Exp x - k) / 2, by split at hk <;> omega⟩
    obtain ⟨n, hn⟩ : ∃ n, n = f64Mant x * 2 ^ k := ⟨_, rfl⟩
    have hn1 : 2 ^ 110 ≤ n :=
      hn ▸ le_trans (Nat.pow_le_pow_right two_pos hk110.1) (Nat.le_mul_of_pos_left _ (f64Mant_pos h0))
    have hn2 : n < 2 ^ 53 * 2 ^ 111 :=
      hn ▸ Nat.mul_lt_mul_of_lt_of_le (f64Mant_lt x) (Nat.pow_le_pow_right two_pos hk110.2) (by positivity)
    obtain ⟨hlo, hhi⟩ := isqrtFrom_spec n 82 0 (Nat.zero_le _) (by omega)
    rw [f64Sqrt_of_finite hx hs h0 hk hn rfl, cast_f64Value, hs, signed_false, hh, sqrt_scaled, ← hn,
      show ((k : ℤ) + 2 * h - k) / 2 - 1 = h - 1 by omega]
    refine isRounding_f64Round false _ (standsFor_root hlo hhi ?_)
    by_contra hr
    have : (isqrtFrom n 82 0 + 1) * (isqrtFrom n 82 0 + 1) ≤ 2 ^ 53 * 2 ^ 53 := Nat.mul_le_mul (by omega) (by omega)
    omega
  · have hzero := eq_zero_of_isZero h0 hs
    have hsqrt : f64Sqrt x = f64Zero false := by rw [hzero]; rfl
    have hval : f64Value x = 0 := by rw [hzero, f64Value, show f64Mant (f64Zero false) = 0 from rfl]; simp
    rw [hsqrt, hval, Rat.cast_zero, Real.sqrt_zero]
    exact isRounding_zero false

theorem sqrt_f64Value_lt (hx : f64IsFinite x = true) : √(f64Value x : ℝ) < 2 ^ 1024 - 2 ^ 970 := by
  have hv := (le_abs_self _).trans_lt (abs_f64Value_lt hx)
  have h1 : (1 : ℝ) < 2 ^ 1024 - 2 ^ 970 := lt_of_lt_of_le (by norm_num) two_pow_53_le_threshold
  refine lt_of_le_of_lt (Real.sqrt_le_iff.2 ⟨le_max_of_le_left zero_le_one, ?_⟩) (max_lt h1 hv)
  calc (f64Value x : ℝ) ≤ max 1 (f64Value x : ℝ) := le_max_right _ _
    _ ≤ max 1 (f64Value x : ℝ) ^ 2 := le_self_pow₀ (le_max_left _ _) two_ne_zero

end Finite

/-- Settles O19: each operation hands `f64Round` the exact result, and an integer below 2^53 needs no rounding. -/
theorem sumAndProductCorrectlyRounded : Obligations.SumAndProductCorrectlyRounded :=
  ⟨fun _ _ hx hy => ⟨correctlyRounded_add hx hy, correctlyRounded_sub hx hy, correctlyRounded_mul hx hy⟩,
    fun _ hk => i2f_exact hk⟩

/-- Settles O20: the sticky bit stands for what is left of the quotient or of the root. -/
theorem quotientAndRootCorrectlyRounded : Obligations.QuotientAndRootCorrectlyRounded := by
  refine ⟨fun x y hx hy h0 => correctlyRounded_div hx hy h0, fun x z hx hs _ => ?_, rfl⟩
  obtain ⟨hfin, hnear⟩ := (isRounding_f64Sqrt hx hs).nearest (sqrt_f64Value_lt hx)
  exact ⟨hfin, (hnear z).1⟩

end Sys2Proof.Machine
end

section
/-! PROOFS. The step never stops (00_scope R8, 44_system R258). -/

namespace Sys2Proof.Machine

theorem rejectEncoding_next (cw : Word) (s : State) : ∃ t, rejectEncoding cw s = .next t := by
  unfold rejectEncoding
  split
  · exact ⟨_, complete_eq s⟩
  · exact ⟨_, complete_eq _⟩

/-- Settles O12: an encoding is executed, where `exec_answers` gives the next state, or rejected. -/
theorem stepAlwaysGoesOn : Obligations.StepAlwaysGoesOn := by
  intro s
  unfold step
  split
  next => exact ⟨_, rfl⟩
  next => exact ⟨_, rfl⟩
  next cw din q _ =>
    cases decode cw din with
    | ok i => exact (exec_answers i (setHost q s)).imp fun _ h => h.1
    | error _ => exact rejectEncoding_next cw (setHost q s)

end Sys2Proof.Machine
end

section
/-! PROOFS. What a transaction and a step may write (10_state R21, 20_memory R60, 44_system R257): said once, per
transaction, as a frame. -/

namespace Sys2Proof.Machine

/-! ### The record-only change -/

/-- `t` is `s` but for the error record, data-out and the counter of unspecified reads: what a fault, a refusal or a read
leaves. -/
def RecordOnly (s t : State) : Prop :=
  t = { s with err := t.err, errcode := t.errcode, errinfo := t.errinfo, dout := t.dout, draws := t.draws }

theorem recordOnly_of_rejectEncoding {cw : Word} {s t : State} (h : rejectEncoding cw s = .next t) :
    RecordOnly s t := by
  unfold rejectEncoding at h
  split at h
  · cases h
    rfl
  · cases h
    unfold recordError
    split <;> rfl

/-- `exec_cases` with its two answers that are no completion in one: a transaction writes the record at most, or it
completes. -/
theorem exec_recordOnly_or_completes {i : Instr} {s t : State} (h : exec i s = .next t) :
    RecordOnly s t ∨ Completes i s t := by
  rcases exec_cases h with ⟨-, ht⟩ | ⟨-, c, ht⟩ | ⟨-, hc⟩
  · left
    rw [ht]
    rfl
  · left
    rw [ht]
    rfl
  · exact .inr hc

/-! ### The frame of a transaction -/

/-- The column "written by" of 10_state R21 and 20_memory R60, read by transaction: `s` with every field the transaction
may write taken from `t`. -/
def takeWritten : Instr → State → State → State
  | .wr _ _, s, t =>
    { s with
      blockSize := t.blockSize, bitdepth := t.bitdepth, channels := t.channels, sampleRate := t.sampleRate
      highpass := t.highpass, totalSamples := t.totalSamples, copyrightOffset := t.copyrightOffset
      blkLen := t.blkLen, smpIn := t.smpIn, blkidxIn := t.blkidxIn, loopBeginSample := t.loopBeginSample
      loopEndSample := t.loopEndSample, coefValid := t.coefValid }
  | .rd _, s, _ | .br _, s, _ | .pr _, s, _ => s
  | .bw _ _, s, t => { s with blk := t.blk }
  | .pw _ _, s, t => { s with pcm := t.pcm }
  | .coef, s, t => { s with coef0 := t.coef0, coef1 := t.coef1, coefValid := t.coefValid }
  | .start, s, t =>
    { s with
      pred0 := t.pred0, pred1 := t.pred1, samplesDone := t.samplesDone, blocksDone := t.blocksDone, nout := t.nout }
  | .decblk, s, t =>
    { s with
      pcm := t.pcm, pred0 := t.pred0, pred1 := t.pred1, samplesDone := t.samplesDone, blocksDone := t.blocksDone
      nout := t.nout }
  | .encblk _, s, t =>
    { s with
      blk := t.blk, pred0 := t.pred0, pred1 := t.pred1, samplesDone := t.samplesDone, blocksDone := t.blocksDone
      blkLen := t.blkLen }
  | .s2b, s, t | .boff, s, t => { s with offOut := t.offOut }
  | .loopset, s, t =>
    { s with loopEnabled := t.loopEnabled, loopBeginByte := t.loopBeginByte, loopEndByte := t.loopEndByte }

theorem RecordOnly.takeWritten {s t : State} (h : RecordOnly s t) (i : Instr) : takeWritten i s t = s := by
  rw [h]
  cases i <;> rfl

theorem decodeBlock_frame {s : State} (n : Nat) (h : ParamsLegal s) :
    decodeBlock n s = takeWritten .decblk s (decodeBlock n s) := by
  unfold decodeBlock
  rw [decodeFrame_frame n h]
  rfl

theorem encodeBlock_frame {s : State} {n : Nat} (h : ParamsLegal s) (hn : n ≤ spb s) (m : Half) :
    encodeBlock n s = takeWritten (.encblk m) s (encodeBlock n s) := by
  unfold encodeBlock
  rw [(encodeFrame_spec s h hn).1]
  rfl

/-- A completed transaction drives data-out last, and data-out is not in its list. -/
theorem recordOnly_setDout_of_frame {i : Instr} {s t : State} (v : Word) (h : t = takeWritten i s t) :
    RecordOnly (takeWritten i s (setDout v t)) (setDout v t) := by
  have hd : takeWritten i s (setDout v t) = takeWritten i s t := by cases i <;> rfl
  rw [hd, ← h]
  rfl

/-- A transaction that completes writes only what is listed for it, and data-out. -/
theorem Completes.frame {i : Instr} {s t : State} (h : Completes i s t) : RecordOnly (takeWritten i s t) t := by
  cases i with
  | wr reg value =>
    obtain ⟨r, w, -, -, rfl⟩ := h
    exact recordOnly_setDout_of_frame 0#32 (writeReg_frame r value s)
  | rd reg =>
    obtain ⟨r, -, rfl⟩ := h
    rw [afterRead_frame]
    rfl
  | br index =>
    obtain ⟨-, rfl⟩ := h
    rfl
  | pr index =>
    obtain ⟨-, rfl⟩ := h
    rfl
  | bw index din =>
    obtain ⟨-, -, rfl⟩ := h
    rfl
  | pw index din =>
    obtain ⟨-, -, rfl⟩ := h
    rfl
  | coef =>
    obtain ⟨-, c0, c1, -, rfl⟩ := h
    rfl
  | start =>
    obtain rfl := h
    rfl
  | decblk =>
    obtain ⟨hp, -, ⟨-, rfl⟩ | ⟨-, -, rfl⟩⟩ := h
    · rfl
    · exact recordOnly_setDout_of_frame 0#32 (decodeBlock_frame _ hp)
  | encblk n =>
    obtain ⟨hp, -, ⟨-, hn⟩, -, rfl⟩ := h
    exact recordOnly_setDout_of_frame 0#32 (encodeBlock_frame hp hn n)
  | s2b =>
    obtain ⟨-, -, rfl⟩ := h
    rfl
  | boff =>
    obtain ⟨-, -, rfl⟩ := h
    rfl
  | loopset =>
    obtain ⟨-, -, rfl⟩ := h
    rfl

/-- Every transaction in every state writes what is listed for it, and the record, at most. -/
theorem exec_frame {i : Instr} {s t : State} (h : exec i s = .next t) : RecordOnly (takeWritten i s t) t := by
  rcases exec_recordOnly_or_completes h with hr | hc
  · rw [hr.takeWritten]
    exact hr
  · exact hc.frame

/-! ### The inversion of a step -/

/-- Everything a step can do: wait, apply the reset input, or take the next transaction off the port and execute or
reject it. -/
theorem step_cases {s t : State} (h : step s = .next t) :
    (s.host = [] ∧ t = s) ∨
    (∃ q, s.host = .reset :: q ∧ t = hardwareReset (setHost q s)) ∨
    ∃ cw din q, s.host = .transaction cw din :: q ∧
      ((∃ i, decode cw din = .ok i ∧ exec i (setHost q s) = .next t) ∨
        (∃ e, decode cw din = .error e) ∧ rejectEncoding cw (setHost q s) = .next t) := by
  unfold step at h
  split at h
  next hh =>
    cases h
    exact .inl ⟨hh, rfl⟩
  next q hh =>
    cases h
    exact .inr (.inl ⟨q, hh, rfl⟩)
  next cw din q hh =>
    refine .inr (.inr ⟨cw, din, q, hh, ?_⟩)
    split at h
    next i hd => exact .inl ⟨i, hd, h⟩
    next e hd => exact .inr ⟨⟨e, hd⟩, h⟩

end Sys2Proof.Machine
end

section
/-! PROOFS. The registers (10_state): reset values, the coefficient table and its valid bit, who writes what, and
`SAMPLES_DONE`. -/

namespace Sys2Proof.Machine

/-! ### Register numbers -/

theorem regOfNumber_eq_some {n : Half} {r : Reg} (h : regOfNumber n = some r) : n = regNumber r := by
  unfold regOfNumber at h
  split at h <;> cases h <;> exact BitVec.eq_of_toNat_eq ‹_›

theorem writableReg_eq_some {n : Half} {r : Reg} {w : Nat} (h : writableReg n = some (r, w)) :
    n = regNumber r ∧ writableWidth r = some w := by
  unfold writableReg at h
  split at h
  next => cases h
  next r' hr =>
    obtain ⟨w', hw, he⟩ := Option.map_eq_some_iff.1 h
    cases he
    exact ⟨regOfNumber_eq_some hr, hw⟩

/-- The numbers 0x20 to 0x23 are the halves of the coefficient table (10_state R21). -/
theorem regOfNumber_coefHalf {n : Half} (h1 : 0x20 ≤ n.toNat) (h2 : n.toNat ≤ 0x23) :
    ∃ r, regOfNumber n = some r ∧ isCoefHalf r = true := by
  unfold regOfNumber
  generalize n.toNat = k at h1 h2 ⊢
  interval_cases k <;> exact ⟨_, rfl, rfl⟩

/-! ### The table as a state holds it -/

/-- All that `TableDerived` looks at. -/
def tableView (s : State) : Bool × Word × Half × OpenParams × Binary64 × Binary64 :=
  (s.coefValid, s.sampleRate, s.highpass, s.openParams, s.coef0, s.coef1)

theorem TableDerived.of_view_eq {s t : State} (hs : TableDerived s) (h : tableView t = tableView s) :
    TableDerived t := by
  simp only [tableView, Prod.mk.injEq] at h
  obtain ⟨hv, hr, hp, ho, h0, h1⟩ := h
  unfold TableDerived tableOf at hs ⊢
  rw [hv, hr, hp, ho, h0, h1]
  exact hs

theorem tableDerived_of_invalid {s : State} (h : s.coefValid = false) : TableDerived s := by
  intro hv
  rw [h] at hv
  cases hv

theorem tableDerived_setTable {s : State} {c0 c1 : Binary64} (hr : s.sampleRate ≠ 0#32) (hc : (c0, c1) = tableOf s) :
    TableDerived (setTable c0 c1 s) := fun _ => ⟨hr, hc⟩

theorem tableView_of_recordOnly {s t : State} (h : RecordOnly s t) : tableView t = tableView s := by
  rw [h]
  rfl

theorem tableView_of_exec {i : Instr} {s t : State} (h : exec i s = .next t) (hw : ∀ r v, i ≠ .wr r v)
    (hc : i ≠ .coef) : tableView t = tableView s := by
  rw [tableView_of_recordOnly (exec_frame h)]
  cases i with
  | wr r v => exact absurd rfl (hw r v)
  | coef => exact absurd rfl hc
  | _ => rfl

/-- What WR does to the table: the two parameters it was derived from invalidate it, every other register leaves it
alone (10_state R35). -/
theorem writeReg_tableView (r : Reg) (v : Word) (s : State) :
    ((r = .sampleRate ∨ r = .highpass) ∧ (writeReg r v s).coefValid = false) ∨
      tableView (writeReg r v s) = tableView s := by
  cases r with
  | sampleRate => exact .inl ⟨.inl rfl, rfl⟩
  | highpass => exact .inl ⟨.inr rfl, rfl⟩
  | _ => exact .inr rfl

theorem tableDerived_writeReg {s : State} (hs : TableDerived s) (r : Reg) (v : Word) :
    TableDerived (writeReg r v s) := by
  rcases writeReg_tableView r v s with ⟨-, hv⟩ | hv
  · exact tableDerived_of_invalid hv
  · exact hs.of_view_eq hv

theorem exec_keeps_tableDerived {i : Instr} {s t : State} (hs : TableDerived s) (h : exec i s = .next t) :
    TableDerived t := by
  rcases exec_recordOnly_or_completes h with hr | hc
  · exact hs.of_view_eq (tableView_of_recordOnly hr)
  cases i with
  | wr reg value =>
    obtain ⟨r, w, -, -, rfl⟩ := hc
    exact (tableDerived_writeReg hs r value).of_view_eq rfl
  | coef =>
    obtain ⟨hr, c0, c1, htab, rfl⟩ := hc
    exact (tableDerived_setTable hr htab).of_view_eq rfl
  | _ => exact hs.of_view_eq (tableView_of_exec h nofun nofun)

/-- Settles O15: only WR and COEF touch what the invariant looks at; WR of a parameter of the table invalidates it, COEF
derives it anew. -/
theorem stepKeepsTableDerived : Obligations.StepKeepsTableDerived := by
  intro s t hs h
  have hq : ∀ q, TableDerived (setHost q s) := fun _ => hs.of_view_eq rfl
  rcases step_cases h with ⟨-, rfl⟩ | ⟨q, -, rfl⟩ | ⟨cw, din, q, -, ⟨i, -, he⟩ | ⟨-, he⟩⟩
  · exact hs
  · exact tableDerived_of_invalid rfl
  · exact exec_keeps_tableDerived (hq q) he
  · exact (hq q).of_view_eq (tableView_of_recordOnly (recordOnly_of_rejectEncoding he))

/-- Settles O16: of the transactions whose frame holds `COEF_VALID`, COEF sets it and WR clears it for two registers
only. -/
theorem coefValidChangesOnlyByCoefAndWr : Obligations.CoefValidChangesOnlyByCoefAndWr := by
  intro i s t h hne
  have changed : tableView t ≠ tableView s := fun he => hne (congrArg Prod.fst he)
  rcases exec_recordOnly_or_completes h with hr | hc
  · exact absurd (tableView_of_recordOnly hr) changed
  cases i with
  | wr reg value =>
    obtain ⟨r, w, hreg, -, rfl⟩ := hc
    rcases writeReg_tableView r value s with ⟨hr, hv⟩ | hv
    · obtain ⟨rfl, -⟩ := writableReg_eq_some hreg
      refine .inr ⟨⟨value, ?_⟩, hv⟩
      rcases hr with rfl | rfl
      · exact .inl rfl
      · exact .inr rfl
    · exact absurd hv changed
  | coef =>
    obtain ⟨-, c0, c1, -, rfl⟩ := hc
    exact .inl ⟨rfl, rfl⟩
  | _ => exact absurd (tableView_of_exec h nofun nofun) changed

/-! ### Who writes what -/

theorem readBlk_congr {s t : State} (hb : t.blk = s.blk) (he : t.epoch = s.epoch) (a : Nat) :
    readBlk t a = readBlk s a := by
  rw [readBlk, readBlk, hb, he]

theorem readPcm_congr {s t : State} (hp : t.pcm = s.pcm) (he : t.epoch = s.epoch) (a : Nat) :
    readPcm t a = readPcm s a := by
  rw [readPcm, readPcm, hp, he]

section Written

variable {i : Instr} {s t : State} (h : exec i s = .next t)
include h

theorem params_of_exec (hw : ∀ r v, i ≠ .wr r v) :
    t.blockSize = s.blockSize ∧ t.bitdepth = s.bitdepth ∧ t.channels = s.channels ∧ t.sampleRate = s.sampleRate ∧
    t.highpass = s.highpass ∧ t.totalSamples = s.totalSamples ∧ t.copyrightOffset = s.copyrightOffset ∧
    t.smpIn = s.smpIn ∧ t.blkidxIn = s.blkidxIn ∧ t.loopBeginSample = s.loopBeginSample ∧
    t.loopEndSample = s.loopEndSample := by
  rw [exec_frame h]
  cases i with
  | wr r v => exact absurd rfl (hw r v)
  | _ => exact ⟨rfl, rfl, rfl, rfl, rfl, rfl, rfl, rfl, rfl, rfl, rfl⟩

theorem blkLen_of_exec (hw : ∀ r v, i ≠ .wr r v) (he : ∀ n, i ≠ .encblk n) : t.blkLen = s.blkLen := by
  rw [exec_frame h]
  cases i with
  | wr r v => exact absurd rfl (hw r v)
  | encblk n => exact absurd rfl (he n)
  | _ => rfl

theorem stream_of_exec (hs : i ≠ .start) (hd : i ≠ .decblk) (he : ∀ n, i ≠ .encblk n) :
    t.samplesDone = s.samplesDone ∧ t.blocksDone = s.blocksDone ∧ t.pred0 = s.pred0 ∧ t.pred1 = s.pred1 := by
  rw [exec_frame h]
  cases i with
  | start => exact absurd rfl hs
  | decblk => exact absurd rfl hd
  | encblk n => exact absurd rfl (he n)
  | _ => exact ⟨rfl, rfl, rfl, rfl⟩

theorem nout_of_exec (hs : i ≠ .start) (hd : i ≠ .decblk) : t.nout = s.nout := by
  rw [exec_frame h]
  cases i with
  | start => exact absurd rfl hs
  | decblk => exact absurd rfl hd
  | _ => rfl

theorem offOut_of_exec (hs : i ≠ .s2b) (hb : i ≠ .boff) : t.offOut = s.offOut := by
  rw [exec_frame h]
  cases i with
  | s2b => exact absurd rfl hs
  | boff => exact absurd rfl hb
  | _ => rfl

theorem loop_of_exec (hl : i ≠ .loopset) :
    t.loopEnabled = s.loopEnabled ∧ t.loopBeginByte = s.loopBeginByte ∧ t.loopEndByte = s.loopEndByte := by
  rw [exec_frame h]
  cases i with
  | loopset => exact absurd rfl hl
  | _ => exact ⟨rfl, rfl, rfl⟩

theorem table_of_exec (hc : i ≠ .coef) : t.coef0 = s.coef0 ∧ t.coef1 = s.coef1 := by
  rw [exec_frame h]
  cases i with
  | coef => exact absurd rfl hc
  | _ => exact ⟨rfl, rfl⟩

theorem epoch_of_exec : t.epoch = s.epoch := by
  rw [exec_frame h]
  cases i <;> rfl

theorem blk_of_exec (hw : ∀ x d, i ≠ .bw x d) (he : ∀ n, i ≠ .encblk n) : t.blk = s.blk := by
  rw [exec_frame h]
  cases i with
  | bw x d => exact absurd rfl (hw x d)
  | encblk n => exact absurd rfl (he n)
  | _ => rfl

theorem pcm_of_exec (hw : ∀ x d, i ≠ .pw x d) (hd : i ≠ .decblk) : t.pcm = s.pcm := by
  rw [exec_frame h]
  cases i with
  | pw x d => exact absurd rfl (hw x d)
  | decblk => exact absurd rfl hd
  | _ => rfl

end Written

/-- Settles O17: each clause is a group of fields that `takeWritten` takes from the state before. -/
theorem stateWrittenOnlyAsListed : Obligations.StateWrittenOnlyAsListed := by
  intro i s t h
  refine ⟨fun hw => ?_, stream_of_exec h, nout_of_exec h, offOut_of_exec h, loop_of_exec h, table_of_exec h,
    fun hw he => readBlk_congr (blk_of_exec h hw he) (epoch_of_exec h),
    fun hw hd => readPcm_congr (pcm_of_exec h hw hd) (epoch_of_exec h)⟩
  obtain ⟨h1, h2, h3, h4, h5, h6, h7, h8, h9, h10, h11⟩ := params_of_exec h hw
  exact ⟨h1, h2, h3, h4, h5, h6, h7, h8, h9, h10, h11, blkLen_of_exec h hw⟩

/-! ### `SAMPLES_DONE` -/

/-- A count that stays in 32 bits does not take the counter down. -/
theorem samplesDone_le_add {d : Word} {n : Nat} (h : d.toNat + n < 2 ^ 32) :
    d.toNat ≤ (BitVec.ofNat 32 (d.toNat + n)).toNat := by
  rw [BitVec.toNat_ofNat, Nat.mod_eq_of_lt h]
  exact Nat.le_add_right _ _

/-- DECBLK stops at `TOTAL_SAMPLES`, which is below 2^32 (41_decode R163). -/
theorem samplesDone_add_decodeCount_lt (s : State) : s.samplesDone.toNat + decodeCount s < 2 ^ 32 := by
  have hd := s.samplesDone.isLt
  have ht := s.totalSamples.isLt
  unfold decodeCount
  omega

/-- Settles O18: only the block commands count samples; DECBLK stops at `TOTAL_SAMPLES`, and ENCBLK has checked the
range. -/
theorem samplesDoneNeverWraps : Obligations.SamplesDoneNeverWraps := by
  intro i s t h hstart
  rcases exec_recordOnly_or_completes h with hr | hc
  · rw [hr]
  cases i with
  | decblk =>
    obtain ⟨-, -, ⟨-, rfl⟩ | ⟨-, -, rfl⟩⟩ := hc
    · exact le_rfl
    · exact samplesDone_le_add (samplesDone_add_decodeCount_lt s)
  | encblk n =>
    obtain ⟨-, -, -, hrange, rfl⟩ := hc
    exact samplesDone_le_add (n := n.toNat) (by omega)
  | _ =>
    obtain ⟨hsame, -⟩ := stream_of_exec h hstart nofun nofun
    rw [hsame]

/-! ### Reset, and reads of an unspecified table -/

theorem readReg_coefHalf_invalid {r : Reg} {s : State} (hr : isCoefHalf r = true) (hv : s.coefValid = false) :
    readReg r s = Config.coefDraw s.draws := by
  cases r with
  | coef0Hi | coef0Lo | coef1Hi | coef1Lo => simp [readReg, coefHalf, hv]
  | _ => cases hr

theorem afterRead_coefHalf_invalid {r : Reg} {s : State} (hr : isCoefHalf r = true) (hv : s.coefValid = false) :
    afterRead r s = { s with draws := s.draws + 1 } := by
  simp [afterRead, hr, hv]

theorem exec_rd_of_number {n : Half} {r : Reg} (h : regOfNumber n = some r) (s : State) :
    exec (.rd n) s = .next (setDout (readReg r s) (afterRead r s)) := by
  show execRd n s = _
  rw [execRd, h]
  rfl

/-- Settles O1: the reset state as R49 lists it; what it leaves unspecified reads as a draw. -/
theorem resetHoldsSpecifiedValues : Obligations.ResetHoldsSpecifiedValues := by
  refine ⟨⟨rfl, rfl, rfl, rfl, rfl, rfl, rfl, rfl, rfl, rfl, rfl, rfl⟩, ⟨rfl, rfl, rfl, rfl, rfl⟩, ⟨rfl, rfl, rfl⟩,
    ⟨rfl, rfl, rfl, rfl⟩, ⟨rfl, rfl⟩, fun r hr => ?_, fun _ => rfl, fun _ => rfl⟩
  exact readReg_coefHalf_invalid hr rfl

/-- The reset state meets the invariant: empty buffers, counters at 0, no error record. -/
theorem invariant_reset : Invariant State.reset where
  blk_wf := wf_nil _
  pcm_wf := wf_nil _
  blkLen_le := by decide
  nout_le := by decide
  blocks_le_samples := le_rfl
  no_record _ := ⟨rfl, rfl⟩
  code_assigned h := by cases h

/-- Settles O14: nothing is listed, counted or recorded at reset, and the table is not valid. -/
theorem resetMeetsInvariants : Obligations.ResetMeetsInvariants :=
  ⟨invariant_reset, tableDerived_of_invalid rfl⟩

/-- Settles O31: the four numbers name halves of the table, each of which reads as the next draw. -/
theorem rdOfInvalidTableIsFree : Obligations.RdOfInvalidTableIsFree := by
  intro s n hv hlo hhi
  obtain ⟨r, hn, hr⟩ := regOfNumber_coefHalf hlo hhi
  rw [exec_rd_of_number hn, readReg_coefHalf_invalid hr hv, afterRead_coefHalf_invalid hr hv]
  rfl

end Sys2Proof.Machine
end

section
/-! PROOFS. The buffers and the invariant (20_memory R60, R74): what reaches a buffer is inside it, and every step keeps
`Invariant`. -/

namespace Sys2Proof.Machine

/-! ### An index outside a buffer -/

theorem exec_bw_outside {idx : Half} {d : Word} {s : State} (he : s.err = false) (hd : d.toNat < 2 ^ 8)
    (h : blkBytes ≤ idx.toNat) : exec (.bw idx d) s = raise .badIndex (commandOf (.bw idx d)) s := by
  show execBw idx d s = _
  rw [execBw, unlessFaulted_clear _ he, check_pass _ _ _ _ hd, check_fail _ _ _ _ (Nat.not_lt.2 h)]

theorem exec_br_outside {idx : Half} (h : blkBytes ≤ idx.toNat) (s : State) :
    exec (.br idx) s = raise .badIndex (commandOf (.br idx)) s :=
  check_fail _ _ _ _ (Nat.not_lt.2 h)

theorem exec_pw_outside {idx : Half} {d : Word} {s : State} (he : s.err = false) (hd : d.toNat < 2 ^ 16)
    (h : pcmWords ≤ idx.toNat) : exec (.pw idx d) s = raise .badIndex (commandOf (.pw idx d)) s := by
  show execPw idx d s = _
  rw [execPw, unlessFaulted_clear _ he, check_pass _ _ _ _ hd, check_fail _ _ _ _ (Nat.not_lt.2 h)]

theorem exec_pr_outside {idx : Half} (h : pcmWords ≤ idx.toNat) (s : State) :
    exec (.pr idx) s = raise .badIndex (commandOf (.pr idx)) s :=
  check_fail _ _ _ _ (Nat.not_lt.2 h)

/-- Settles O37: each of the four raises `BadIndex`, which records the fault if it is the first and keeps the earlier one
if not. -/
theorem indexOutsideASpaceFaults : Obligations.IndexOutsideASpaceFaults := by
  intro s idx d
  refine ⟨fun he hi => ⟨fun hd => ?_, ?_⟩, fun he hi => ⟨fun hd => ?_, ?_⟩, fun he hi => ?_, fun he hi => ?_⟩
  · exact (exec_bw_outside he hd hi).trans (faulted_eq .badIndex _ he)
  · exact (exec_br_outside hi s).trans (faulted_eq .badIndex _ he)
  · exact (exec_pw_outside he hd hi).trans (faulted_eq .badIndex _ he)
  · exact (exec_pr_outside hi s).trans (faulted_eq .badIndex _ he)
  · exact (exec_br_outside hi s).trans (raise_faulted _ _ he)
  · exact (exec_pr_outside hi s).trans (raise_faulted _ _ he)

/-! ### What the invariant looks at -/

/-- All that `Invariant` looks at. -/
def invariantView (s : State) :
    List Host.Cell × List (Nat × Half) × Half × Half × Word × Word × Bool × BitVec 4 × Word :=
  (s.blk, s.pcm, s.blkLen, s.nout, s.blocksDone, s.samplesDone, s.err, s.errcode, s.errinfo)

theorem Invariant.of_view_eq {s t : State} (hs : Invariant s) (h : invariantView t = invariantView s) :
    Invariant t := by
  simp only [invariantView, Prod.mk.injEq] at h
  obtain ⟨hb, hp, hl, hn, hk, hd, he, hc, hi⟩ := h
  obtain ⟨blk_wf, pcm_wf, blkLen_le, nout_le, blocks_le, no_record, code_assigned⟩ := hs
  constructor <;> simp only [hb, hp, hl, hn, hk, hd, he, hc, hi] <;> assumption

theorem Invariant.setDout {s : State} (hs : Invariant s) (v : Word) : Invariant (setDout v s) := hs.of_view_eq rfl

/-! ### Faults -/

theorem Invariant.faulted {s : State} (hs : Invariant s) (c : Cause) (cw : Word) :
    Invariant (faulted (causeCode c) cw s) :=
  { hs with
    no_record := nofun
    code_assigned := fun _ => causeCode_pos c }

theorem Invariant.of_raise {s t : State} (hs : Invariant s) {c : Cause} {cw : Word} (h : raise c cw s = .next t) :
    Invariant t := by
  cases he : s.err
  · cases (faulted_eq c cw he).symm.trans h
    exact hs.faulted c cw
  · cases (raise_faulted c cw he).symm.trans h
    exact hs.setDout 0#32

theorem Invariant.of_rejectEncoding {s t : State} (hs : Invariant s) {cw : Word}
    (h : rejectEncoding cw s = .next t) : Invariant t := by
  unfold rejectEncoding at h
  split at h
  · cases h
    exact hs.setDout 0#32
  · exact hs.of_raise h

/-! ### Register and buffer writes -/

/-- `BLK_LEN` takes only values up to 510 (44_system R250); the invariant looks at no other parameter register. -/
theorem Invariant.writeReg {s : State} (hs : Invariant s) {r : Reg} {w : Nat} {v : Word}
    (hv : valueFits r w v = true) : Invariant (writeReg r v s) := by
  cases r with
  | blkLen =>
    have hle : v.toNat ≤ 510 := by simpa using (Bool.and_eq_true_iff.1 hv).2
    have hset : (v.setWidth 16).toNat ≤ 510 := by
      rw [BitVec.toNat_setWidth]
      exact (Nat.mod_le _ _).trans hle
    exact { hs with blkLen_le := hset }
  | _ => exact hs.of_view_eq rfl

theorem Invariant.writeBlk {s : State} (hs : Invariant s) {a : Nat} (h : a < blkBytes) (v : Byte) :
    Invariant (writeBlk a v s) :=
  { hs with blk_wf := wf_memStore a v hs.blk_wf h }

theorem Invariant.writePcm {s : State} (hs : Invariant s) {a : Nat} (h : a < pcmWords) (v : Half) :
    Invariant (writePcm a v s) :=
  { hs with pcm_wf := wf_memStore a v hs.pcm_wf h }

/-! ### The stream -/

theorem Invariant.beginStream {s : State} (hs : Invariant s) : Invariant (beginStream s) :=
  { hs with
    nout_le := Nat.zero_le _
    blocks_le_samples := le_rfl }

/-- One more block of `n > 0` samples keeps `BLOCKS_DONE <= SAMPLES_DONE`, since `SAMPLES_DONE` does not wrap
(10_state R37, R38). -/
theorem blocksDone_succ_le {b d : Word} {n : Nat} (h : b.toNat ≤ d.toNat) (hn : 0 < n) (hd : d.toNat + n < 2 ^ 32) :
    (BitVec.ofNat 32 (b.toNat + 1)).toNat ≤ (BitVec.ofNat 32 (d.toNat + n)).toNat := by
  rw [BitVec.toNat_ofNat, BitVec.toNat_ofNat, Nat.mod_eq_of_lt hd, Nat.mod_eq_of_lt (by omega)]
  omega

theorem toNat_ofNat16_le {m b : Nat} (h : m ≤ b) : (BitVec.ofNat 16 m).toNat ≤ b := by
  rw [BitVec.toNat_ofNat]
  exact (Nat.mod_le _ _).trans h

/-- A decoded frame fits `PCM`, and `NOUT` is at most `SPB` (20_memory R72, R74). -/
theorem Invariant.decodeBlock {s : State} (hs : Invariant s) (hp : ParamsLegal s) {n : Nat} (hpos : 0 < n)
    (hn : n ≤ spb s) (hd : s.samplesDone.toNat + n < 2 ^ 32) : Invariant (decodeBlock n s) := by
  obtain ⟨-, -, -, hwf⟩ := decodeFrame_spec n hp
  have hpcm := hwf pcmWords hs.pcm_wf (frame_le_pcmWords hp hn)
  obtain ⟨-, hspb, -⟩ := spb_bounds hp
  unfold Machine.decodeBlock
  rw [decodeFrame_frame n hp]
  exact
    { hs with
      pcm_wf := hpcm
      nout_le := toNat_ofNat16_le (hn.trans hspb)
      blocks_le_samples := blocksDone_succ_le hs.blocks_le_samples hpos hd }

/-- An encoded block fits `BLK`, and its length is the new `BLK_LEN` (20_memory R70, R74). -/
theorem Invariant.encodeBlock {s : State} (hs : Invariant s) (hp : ParamsLegal s) {n : Nat} (hpos : 0 < n)
    (hn : n ≤ spb s) (hd : s.samplesDone.toNat + n < 2 ^ 32) : Invariant (encodeBlock n s) := by
  obtain ⟨hframe, -, -, -, hwf⟩ := encodeFrame_spec s hp hn
  obtain ⟨-, hbytes⟩ := blockBytes_bounds hp
  have hblk := hwf blkBytes hs.blk_wf hbytes
  unfold Machine.encodeBlock
  rw [hframe]
  exact
    { hs with
      blk_wf := hblk
      blkLen_le := toNat_ofNat16_le hbytes
      blocks_le_samples := blocksDone_succ_le hs.blocks_le_samples hpos hd }

/-! ### Transactions and steps -/

theorem Invariant.of_completes {i : Instr} {s t : State} (hs : Invariant s) (h : Completes i s t) : Invariant t := by
  cases i with
  | wr reg value =>
    obtain ⟨r, w, -, hv, rfl⟩ := h
    exact (hs.writeReg hv).setDout 0#32
  | rd reg =>
    obtain ⟨r, -, rfl⟩ := h
    rw [afterRead_frame]
    exact hs.of_view_eq rfl
  | bw index din =>
    obtain ⟨-, hi, rfl⟩ := h
    exact (hs.writeBlk hi _).setDout 0#32
  | br index =>
    obtain ⟨-, rfl⟩ := h
    exact hs.setDout _
  | pw index din =>
    obtain ⟨-, hi, rfl⟩ := h
    exact (hs.writePcm hi _).setDout 0#32
  | pr index =>
    obtain ⟨-, rfl⟩ := h
    exact hs.setDout _
  | coef =>
    obtain ⟨-, c0, c1, -, rfl⟩ := h
    exact hs.of_view_eq rfl
  | start =>
    obtain rfl := h
    exact hs.beginStream.setDout 0#32
  | decblk =>
    obtain ⟨hp, -, ⟨-, rfl⟩ | ⟨h0, -, rfl⟩⟩ := h
    · exact { hs with nout_le := Nat.zero_le _ }
    · exact (hs.decodeBlock hp (Nat.pos_of_ne_zero h0) (Nat.min_le_left _ _)
        (samplesDone_add_decodeCount_lt s)).setDout 0#32
  | encblk n =>
    obtain ⟨hp, -, ⟨hpos, hn⟩, hd, rfl⟩ := h
    exact (hs.encodeBlock hp hpos hn (by omega)).setDout 0#32
  | s2b =>
    obtain ⟨-, -, rfl⟩ := h
    exact hs.of_view_eq rfl
  | boff =>
    obtain ⟨-, -, rfl⟩ := h
    exact hs.of_view_eq rfl
  | loopset =>
    obtain ⟨-, -, rfl⟩ := h
    exact hs.of_view_eq rfl

theorem Invariant.of_exec {i : Instr} {s t : State} (hs : Invariant s) (h : exec i s = .next t) : Invariant t := by
  rcases exec_cases h with ⟨-, ht⟩ | ⟨-, c, rfl⟩ | ⟨-, hc⟩
  · rw [ht]
    exact hs.of_view_eq rfl
  · exact hs.faulted c _
  · exact hs.of_completes hc

/-- Settles O13: a wait and a taken action change nothing the invariant looks at, the reset input gives the reset values,
and a transaction, executed or rejected, keeps the invariant. -/
theorem stepKeepsInvariant : Obligations.StepKeepsInvariant := by
  intro s t hs h
  have hq : ∀ q, Invariant (setHost q s) := fun _ => hs.of_view_eq rfl
  rcases step_cases h with ⟨-, rfl⟩ | ⟨q, -, rfl⟩ | ⟨cw, din, q, -, ⟨i, -, he⟩ | ⟨-, he⟩⟩
  · exact hs
  · exact invariant_reset.of_view_eq rfl
  · exact (hq q).of_exec he
  · exact (hq q).of_rejectEncoding he

end Sys2Proof.Machine
end

section
/-! PROOFS. The encoding of transactions (30_encoding R91 to R97): which pairs (`cw`, `din`) the decoder takes for which
transaction, said once as `decode_eq_ok_iff`, and which it refuses. -/

namespace Sys2Proof

/-! ### The fields of a command word as numbers -/

theorem toNat_opField (cw : Word) : (opField cw).toNat = cw.toNat % 2 ^ 8 := by
  rw [opField, BitVec.extractLsb'_toNat, Nat.shiftRight_zero]

theorem toNat_idxField (cw : Word) : (idxField cw).toNat = cw.toNat / 2 ^ 8 % 2 ^ 16 := by
  rw [idxField, BitVec.extractLsb'_toNat, Nat.shiftRight_eq_div_pow]

theorem toNat_rsvField (cw : Word) : (rsvField cw).toNat = cw.toNat / 2 ^ 24 := by
  rw [rsvField, BitVec.extractLsb'_toNat, Nat.shiftRight_eq_div_pow]
  exact Nat.mod_eq_of_lt (by omega)

theorem rsvField_eq_zero_iff (cw : Word) : rsvField cw = 0#8 ↔ cw.toNat / 2 ^ 24 = 0 := by
  rw [← toNat_rsvField, ← BitVec.toNat_inj, BitVec.toNat_ofNat, Nat.zero_mod]

/-! ### The opcode map -/

theorem Opcode.eq_byte_of_ofByte {b : Byte} {op : Opcode} (h : Opcode.ofByte b = some op) : b = op.byte := by
  unfold Opcode.ofByte at h
  split at h <;> cases h <;> exact BitVec.eq_of_toNat_eq ‹_›

theorem Opcode.byte_mem_assignedOps (op : Opcode) : op.byte.toNat ∈ Machine.assignedOps := by cases op <;> decide

theorem Opcode.ofByte_eq_none_iff (b : Byte) : Opcode.ofByte b = none ↔ b.toNat ∉ Machine.assignedOps := by
  constructor
  · unfold Opcode.ofByte
    split <;> simp_all [Machine.assignedOps]
  · intro hb
    cases h : Opcode.ofByte b with
    | none => rfl
    | some op => exact absurd (Opcode.eq_byte_of_ofByte h ▸ op.byte_mem_assignedOps) hb

/-! ### Command words -/

theorem eq_commandWord {cw : Word} {op : Opcode} (ho : opField cw = op.byte) (hr : rsvField cw = 0#8) :
    cw = commandWord op (idxField cw) := by
  have hr := (rsvField_eq_zero_iff cw).1 hr
  apply BitVec.eq_of_toNat_eq
  rw [toNat_commandWord, toNat_idxField, ← ho, toNat_opField]
  omega

/-- Every word breaks ground (a) or (b) of 30_encoding R95, or is the command word of an opcode and an operand. -/
theorem commandWord_cases (cw : Word) :
    Opcode.ofByte (opField cw) = none ∨ rsvField cw ≠ 0#8 ∨ ∃ op idx, cw = commandWord op idx := by
  cases ho : Opcode.ofByte (opField cw) with
  | none => exact .inl rfl
  | some op =>
    by_cases hr : rsvField cw = 0#8
    · exact .inr (.inr ⟨op, idxField cw, eq_commandWord (Opcode.eq_byte_of_ofByte ho) hr⟩)
    · exact .inr (.inl hr)

theorem commandOf_eq (i : Instr) : commandOf i = commandWord i.opcode i.idx := by cases i <;> rfl

/-- The opcodes whose transactions carry `din` (30_encoding R93). -/
def Opcode.readsData : Opcode → Bool
  | .wr | .bw | .pw => true
  | .rd | .br | .pr | .coef | .start | .decblk | .encblk | .s2b | .boff | .loopset => false

theorem dataOf_of_not_readsData {i : Instr} (h : i.opcode.readsData = false) : dataOf i = 0#32 := by
  cases i
  case wr | bw | pw => cases h
  case rd | br | pr | coef | start | decblk | encblk | s2b | boff | loopset => rfl

/-! ### The decoder -/

theorem decodeBare_eq_ok {idx : Half} {i j : Instr} : decodeBare idx i = .ok j ↔ idx = 0#16 ∧ i = j := by
  unfold decodeBare
  split <;> simp [*]

theorem decodeBare_eq_error {idx : Half} {i : Instr} : (∃ e, decodeBare idx i = .error e) ↔ idx ≠ 0#16 := by
  unfold decodeBare
  split <;> simp [*]

theorem decodeData_eq_ok {w : Nat} {din : Word} {i j : Instr} :
    decodeData w din i = .ok j ↔ din.toNat < 2 ^ w ∧ i = j := by
  unfold decodeData
  split <;> simp [*]

theorem decodeData_eq_error {w : Nat} {din : Word} {i : Instr} :
    (∃ e, decodeData w din i = .error e) ↔ 2 ^ w ≤ din.toNat := by
  unfold decodeData
  split <;> simp_all

theorem decode_unassigned {cw : Word} (din : Word) (h : Opcode.ofByte (opField cw) = none) :
    decode cw din = .error .unassignedOp := by simp [decode, h]

/-- With an assigned `op`, a reserved field that is not 0 is refused. -/
theorem decode_reserved {cw : Word} (din : Word) (h : rsvField cw ≠ 0#8) : ∃ e, decode cw din = .error e := by
  unfold decode
  split
  · exact ⟨_, rfl⟩
  · exact ⟨_, if_neg h⟩

theorem decode_commandWord_ok {op : Opcode} {idx : Half} {din : Word} {i : Instr}
    (h : decode (commandWord op idx) din = .ok i) :
    i.opcode = op ∧ i.idx = idx ∧ i.wellFormed = true ∧ (op.readsData = true → dataOf i = din) := by
  simp only [decode, opField_commandWord, Opcode.ofByte_byte, rsvField_commandWord, idxField_commandWord, if_true] at h
  cases op
  case wr =>
    cases h
    exact ⟨rfl, rfl, rfl, fun _ => rfl⟩
  case rd | br | pr | encblk =>
    cases h
    exact ⟨rfl, rfl, rfl, nofun⟩
  case bw | pw =>
    obtain ⟨hd, rfl⟩ := decodeData_eq_ok.1 h
    exact ⟨rfl, rfl, decide_eq_true hd, fun _ => rfl⟩
  case coef | start | decblk | s2b | boff | loopset =>
    obtain ⟨rfl, rfl⟩ := decodeBare_eq_ok.1 h
    exact ⟨rfl, rfl, rfl, nofun⟩

theorem decode_commandOf {i : Instr} {din : Word} (hw : i.wellFormed = true)
    (hd : i.opcode.readsData = true → dataOf i = din) : decode (commandOf i) din = .ok i := by
  simp only [decode, commandOf_eq, opField_commandWord, Opcode.ofByte_byte, rsvField_commandWord, idxField_commandWord,
    if_true]
  cases i
  case wr =>
    obtain rfl := hd rfl
    rfl
  case bw | pw =>
    obtain rfl := hd rfl
    exact decodeData_eq_ok.2 ⟨of_decide_eq_true hw, rfl⟩
  case rd | br | pr | encblk | coef | start | decblk | s2b | boff | loopset => rfl

/-- All that the decoder takes: a pair decodes to the well-formed transaction whose command word it holds and, where the
transaction carries data, whose data it holds (30_encoding R91 to R97). -/
theorem decode_eq_ok_iff {cw din : Word} {i : Instr} :
    decode cw din = .ok i ↔
      i.wellFormed = true ∧ commandOf i = cw ∧ (i.opcode.readsData = true → dataOf i = din) := by
  constructor
  · intro h
    rcases commandWord_cases cw with ho | hr | ⟨op, idx, rfl⟩
    · cases (decode_unassigned din ho).symm.trans h
    · obtain ⟨e, he⟩ := decode_reserved din hr
      cases he.symm.trans h
    · obtain ⟨rfl, rfl, hw, hd⟩ := decode_commandWord_ok h
      exact ⟨hw, commandOf_eq i, hd⟩
  · rintro ⟨hw, rfl, hd⟩
    exact decode_commandOf hw hd

/-- Settles O7: the encoded pair holds the command word and the data of the transaction. -/
theorem decodeUndoesEncode : Obligations.DecodeUndoesEncode :=
  fun _ hw => decode_eq_ok_iff.2 ⟨hw, rfl, fun _ => rfl⟩

/-! ### The pairs it refuses -/

namespace Machine

/-- Of the command words, grounds (c) and (d) of 30_encoding R95 are left. -/
theorem illegalEncoding_commandWord_iff (op : Opcode) (idx : Half) (din : Word) :
    IllegalEncoding (commandWord op idx) din ↔
      (op.byte.toNat ∈ bareOps ∧ idx ≠ 0#16) ∨ (op = .bw ∧ 2 ^ 8 ≤ din.toNat) ∨ (op = .pw ∧ 2 ^ 16 ≤ din.toNat) := by
  have hidx : idx.toNat ≠ 0 ↔ idx ≠ 0#16 := by simp [← BitVec.toNat_inj]
  have hbw : op.byte.toNat = 0x03 ↔ op = .bw := by cases op <;> decide
  have hpw : op.byte.toNat = 0x05 ↔ op = .pw := by cases op <;> decide
  simp only [IllegalEncoding, ← toNat_opField, ← toNat_idxField, ← toNat_rsvField, opField_commandWord,
    idxField_commandWord, rsvField_commandWord, op.byte_mem_assignedOps, hidx, hbw, hpw, not_true_eq_false, false_or,
    BitVec.toNat_ofNat, Nat.zero_mod, ne_eq]

theorem decode_commandWord_error_iff (op : Opcode) (idx : Half) (din : Word) :
    (∃ e, decode (commandWord op idx) din = .error e) ↔ IllegalEncoding (commandWord op idx) din := by
  rw [illegalEncoding_commandWord_iff]
  simp only [decode, opField_commandWord, Opcode.ofByte_byte, rsvField_commandWord, idxField_commandWord, if_true]
  cases op
  case wr | rd | br | pr | encblk => simp [bareOps, Opcode.byte]
  case bw | pw => simp [decodeData_eq_error, bareOps, Opcode.byte]
  case coef | start | decblk | s2b | boff | loopset => simp [decodeBare_eq_error, bareOps, Opcode.byte]

/-- The decoder refuses exactly the pairs with a ground of 30_encoding R95. -/
theorem decode_error_iff (cw din : Word) : (∃ e, decode cw din = .error e) ↔ IllegalEncoding cw din := by
  rcases commandWord_cases cw with ho | hr | ⟨op, idx, rfl⟩
  · have hground : cw.toNat % 2 ^ 8 ∉ assignedOps := toNat_opField cw ▸ (Opcode.ofByte_eq_none_iff _).1 ho
    exact iff_of_true ⟨_, decode_unassigned din ho⟩ (.inl hground)
  · exact iff_of_true (decode_reserved din hr) (.inr (.inl (mt (rsvField_eq_zero_iff cw).2 hr)))
  · exact decode_commandWord_error_iff op idx din

/-- Settles O6: `decode_error_iff` for the refused pairs, `decode_eq_ok_iff` for the others. -/
theorem legalEncodingsDecodeExactly : Obligations.LegalEncodingsDecodeExactly := by
  refine fun cw din => ⟨(decode_error_iff cw din).symm, fun i h => ?_⟩
  obtain ⟨hw, hc, hd⟩ := decode_eq_ok_iff.1 h
  refine ⟨hw, hc, ?_, ?_⟩
  · cases hr : i.opcode.readsData with
    | true => exact .inl (hd hr)
    | false => exact .inr (dataOf_of_not_readsData hr)
  · rintro (⟨r, v, rfl⟩ | ⟨x, d, rfl⟩ | ⟨x, d, rfl⟩) <;> exact hd rfl

theorem rejectEncoding_clear (cw : Word) {s : State} (h : s.err = false) :
    rejectEncoding cw s = .next (faulted 1#4 cw s) := by
  rw [rejectEncoding, h, Bool.false_and, if_neg Bool.false_ne_true]
  exact faulted_eq .illegalCommand cw h

/-- Refused, or raised with the first error kept: with `ERR` = 1 the two leave the same. -/
theorem rejectEncoding_faulted (cw : Word) {s : State} (h : s.err = true) :
    rejectEncoding cw s = .next (setDout 0#32 s) := by
  unfold rejectEncoding
  split
  · exact complete_eq s
  · exact raise_faulted _ _ h

theorem step_illegal {s : State} {cw din : Word} {q : List HostAction} (hh : s.host = .transaction cw din :: q)
    (hi : IllegalEncoding cw din) : step s = rejectEncoding cw (setHost q s) := by
  obtain ⟨e, he⟩ := (decode_error_iff cw din).2 hi
  simp only [step, hh, he]

/-- Settles O5: the decoder refuses the pair, so the step rejects its encoding. -/
theorem illegalEncodingRaises : Obligations.IllegalEncodingRaises :=
  fun s cw _ q hh hi =>
    ⟨fun he => (step_illegal hh hi).trans (rejectEncoding_clear cw (s := setHost q s) he),
      fun he => (step_illegal hh hi).trans (rejectEncoding_faulted cw (s := setHost q s) he)⟩

/-- Settles O8: nine fixed pairs, which the decoder evaluates; the last two break grounds (b) and (c) of 30_encoding R95. -/
theorem specifiedWordsDecode : Obligations.SpecifiedWordsDecode :=
  ⟨rfl, rfl, rfl, rfl, rfl, rfl, rfl, rfl, rfl⟩

end Machine
end Sys2Proof
end

section
/-! PROOFS. The header record of the host (30_encoding R112 to R118): a big-endian field depends on its own bytes alone, the
fixed fields 0x00 to 0x13 are read whatever stands behind them, and the loop block is read behind them. -/

namespace Sys2Proof.Machine

/-! ### Big-endian fields -/

theorem length_beBytes (n v : Nat) : (beBytes n v).length = n := by simp [beBytes]

/-- The last byte written is the lowest one. -/
theorem beBytes_succ (n v : Nat) : beBytes (n + 1) v = beBytes n (v / 256) ++ [BitVec.ofNat 8 v] := by
  have hlast : v / 256 ^ (n + 1 - 1 - n) = v := by simp
  simp only [beBytes, List.range_succ, List.map_append, List.map_cons, List.map_nil, hlast]
  congr 1
  refine List.map_congr_left fun k hk => ?_
  have hk := List.mem_range.1 hk
  rw [Nat.div_div_eq_div_mul, ← Nat.pow_succ', show (n - 1 - k).succ = n + 1 - 1 - k by omega]

/-- The last byte read is the lowest one. -/
theorem beField_succ (b : List Byte) (a n : Nat) :
    beField b a (n + 1) = beField b a n * 256 + (b.getD (a + n) 0#8).toNat := by
  simp [beField, List.range_succ]

theorem beField_congr {b c : List Byte} {a d n : Nat} (h : ∀ k, k < n → b.getD (a + k) 0#8 = c.getD (d + k) 0#8) :
    beField b a n = beField c d n := by
  induction n with
  | zero => rfl
  | succ n ih => rw [beField_succ, beField_succ, ih fun k hk => h k (by omega), h n n.lt_succ_self]

theorem beField_take_drop (b : List Byte) (a n : Nat) : beField ((b.drop a).take n) 0 n = beField b a n :=
  beField_congr fun k hk => by simp [hk]

theorem beField_beBytes (n v : Nat) : beField (beBytes n v) 0 n = v % 256 ^ n := by
  induction n generalizing v with
  | zero => exact (Nat.mod_one v).symm
  | succ n ih =>
    have hinit : beField (beBytes (n + 1) v) 0 n = v / 256 % 256 ^ n := by
      rw [← ih]
      exact beField_congr fun k hk => by simp [beBytes_succ, List.getElem?_append_left, length_beBytes, hk]
    have hlast : (beBytes (n + 1) v).getD (0 + n) 0#8 = BitVec.ofNat 8 v := by simp [beBytes_succ, length_beBytes]
    have hsplit : v % 256 ^ (n + 1) = v % 256 + 256 * (v / 256 % 256 ^ n) := by rw [Nat.pow_succ', Nat.mod_mul]
    rw [beField_succ, hinit, hlast, BitVec.toNat_ofNat, hsplit]
    omega

/-- The bytes of a word are read back as the word. -/
theorem ofNat_beField {b : List Byte} {a n w : Nat} {v : BitVec w} (h : (b.drop a).take n = beBytes n v.toNat)
    (hw : 2 ^ w = 256 ^ n) : BitVec.ofNat w (beField b a n) = v := by
  rw [← beField_take_drop, h, beField_beBytes, ← hw, Nat.mod_eq_of_lt v.isLt, BitVec.ofNat_toNat, BitVec.setWidth_eq]

/-! ### The fixed fields -/

/-- Bytes 0x00 to 0x13 of a written header (30_encoding R113). -/
def fixedFields (h : Header) : List Byte :=
  [0x80#8, 0x00#8] ++ beBytes 2 h.copyrightOffset.toNat ++
    [h.encodingType, h.blockSize, h.sampleBitdepth, h.channelCount] ++
    beBytes 4 h.sampleRate.toNat ++ beBytes 4 h.totalSamples.toNat ++ beBytes 2 h.highpassFrequency.toNat ++
    [loopVersion h.loop, h.flags]

theorem writeHeader_eq (h : Header) : writeHeader h = fixedFields h ++ loopBlockBytes h.loop := rfl

theorem length_fixedFields (h : Header) : (fixedFields h).length = 0x14 := rfl

theorem getD_version_fixedFields (h : Header) (rest : List Byte) :
    (fixedFields h ++ rest).getD 0x12 0#8 = loopVersion h.loop := rfl

/-- The fixed fields are read back whatever stands behind them; the loop block is read from the whole. -/
theorem readHeader_fixedFields (h : Header) {rest : List Byte} (hr : rest.length = 44) :
    readHeader (fixedFields h ++ rest) = .ok { h with loop := readLoopBlock (fixedFields h ++ rest) } := by
  have hlen : ¬(fixedFields h ++ rest).length < 0x40 := by simp [length_fixedFields, hr]
  have hoffset : BitVec.ofNat 16 (beField (fixedFields h ++ rest) 0x02 2) = h.copyrightOffset := ofNat_beField rfl rfl
  have hrate : BitVec.ofNat 32 (beField (fixedFields h ++ rest) 0x08 4) = h.sampleRate := ofNat_beField rfl rfl
  have htotal : BitVec.ofNat 32 (beField (fixedFields h ++ rest) 0x0C 4) = h.totalSamples := ofNat_beField rfl rfl
  have hhighpass : BitVec.ofNat 16 (beField (fixedFields h ++ rest) 0x10 2) = h.highpassFrequency := ofNat_beField rfl rfl
  rw [readHeader, if_neg hlen, if_pos ⟨rfl, rfl⟩, hoffset, hrate, htotal, hhighpass]
  rfl

/-! ### The loop block -/

theorem loopEnabledOf_stored (e : Bool) : loopEnabledOf (storedLoopEnabled e) = e := by cases e <;> rfl

theorem readLoop_loopFieldBytes {b : List Byte} {a : Nat} {l : LoopFields} (h : (b.drop a).take 20 = loopFieldBytes l) :
    readLoop b a = l := by
  have hfield : ∀ k, k + 4 ≤ 20 → (b.drop (a + k)).take 4 = ((loopFieldBytes l).drop k).take 4 := by
    intro k hk
    rw [← h, List.drop_take, List.drop_drop, List.take_take, Nat.min_eq_left (by omega)]
  have henabled : BitVec.ofNat 32 (beField b a 4) = storedLoopEnabled l.enabled := ofNat_beField (hfield 0 (by omega)) rfl
  have hbeginSample : BitVec.ofNat 32 (beField b (a + 4) 4) = l.beginSample := ofNat_beField (hfield 4 (by omega)) rfl
  have hbeginByte : BitVec.ofNat 32 (beField b (a + 8) 4) = l.beginByte := ofNat_beField (hfield 8 (by omega)) rfl
  have hendSample : BitVec.ofNat 32 (beField b (a + 12) 4) = l.endSample := ofNat_beField (hfield 12 (by omega)) rfl
  have hendByte : BitVec.ofNat 32 (beField b (a + 16) 4) = l.endByte := ofNat_beField (hfield 16 (by omega)) rfl
  rw [readLoop, henabled, hbeginSample, hbeginByte, hendSample, hendByte, loopEnabledOf_stored]

theorem length_loopBlockBytes (lb : LoopBlock) : (loopBlockBytes lb).length = 44 := by cases lb <;> rfl

theorem loopVersion_readLoopBlock (b : List Byte) : loopVersion (readLoopBlock b) = b.getD 0x12 0#8 := by
  unfold readLoopBlock
  split
  next h3 => exact h3.symm
  next =>
    split
    next h4 => exact h4.symm
    next => rfl

/-- Where the twenty bytes of the loop fields stand in version 3. -/
theorem loopFields_writeHeader_v3 {h : Header} {al : Half} {l : LoopFields} (hl : h.loop = .v3 al l) :
    ((writeHeader h).drop 0x18).take 20 = loopFieldBytes l := by
  rw [writeHeader_eq, hl]
  rfl

/-- Where the twenty bytes of the loop fields stand in version 4. -/
theorem loopFields_writeHeader_v4 {h : Header} {l : LoopFields} (hl : h.loop = .v4 l) :
    ((writeHeader h).drop 0x24).take 20 = loopFieldBytes l := by
  rw [writeHeader_eq, hl]
  rfl

/-- A loop block is read back, if one of another version does not claim to be version 3 or 4. -/
theorem readLoopBlock_writeHeader {h : Header} (hv : ∀ v, h.loop = .other v → v ≠ 3#8 ∧ v ≠ 4#8) :
    readLoopBlock (writeHeader h) = h.loop := by
  have hversion : (writeHeader h).getD 0x12 0#8 = loopVersion h.loop := getD_version_fixedFields h _
  rw [readLoopBlock, hversion]
  cases hl : h.loop with
  | v3 al l =>
    have halignment : BitVec.ofNat 16 (beField (writeHeader h) 0x14 2) = al :=
      ofNat_beField (by rw [writeHeader_eq, hl]; rfl) rfl
    rw [loopVersion, if_pos rfl, halignment, readLoop_loopFieldBytes (loopFields_writeHeader_v3 hl)]
  | v4 l => rw [loopVersion, if_neg (by decide), if_pos rfl, readLoop_loopFieldBytes (loopFields_writeHeader_v4 hl)]
  | other v => exact (if_neg (hv v hl).1).trans (if_neg (hv v hl).2)

theorem beBytes_storedLoopEnabled (e : Bool) : beBytes 4 (storedLoopEnabled e).toNat =
    if e = true then [0#8, 0#8, 0#8, 1#8] else [0#8, 0#8, 0#8, 0#8] := by cases e <;> decide

/-- The stored `loop_enabled` heads the loop fields, as the big-endian u32 1 or 0 (90 C5). -/
theorem take_of_loopFieldBytes {b : List Byte} {l : LoopFields} (h : b.take 20 = loopFieldBytes l) :
    b.take 4 = if l.enabled = true then [0#8, 0#8, 0#8, 1#8] else [0#8, 0#8, 0#8, 0#8] :=
  calc b.take 4
    _ = (b.take 20).take 4 := by rw [List.take_take, Nat.min_eq_left (by decide)]
    _ = beBytes 4 (storedLoopEnabled l.enabled).toNat := by rw [h]; rfl
    _ = _ := beBytes_storedLoopEnabled l.enabled

/-- Settles O58: the fixed fields and the loop block are each read back; `loop_enabled` heads the loop fields. -/
theorem headerReadsBack : Obligations.HeaderReadsBack := by
  refine ⟨fun h hv => ⟨?_, ?_⟩, fun h al l => ⟨fun hl => ?_, fun hl => ?_⟩⟩
  · rw [writeHeader_eq, List.length_append, length_fixedFields, length_loopBlockBytes]
  · calc readHeader (writeHeader h)
      _ = .ok { h with loop := readLoopBlock (writeHeader h) } := readHeader_fixedFields h (length_loopBlockBytes h.loop)
      _ = .ok h := by rw [readLoopBlock_writeHeader hv]
  · exact take_of_loopFieldBytes (loopFields_writeHeader_v3 hl)
  · exact take_of_loopFieldBytes (loopFields_writeHeader_v4 hl)

/-- The header of the corrected worked example, whose loop fields are not given (30_encoding R118). -/
def workedHeader (et : Byte) : Header :=
  { copyrightOffset := 404#16, encodingType := et, blockSize := 18#8, sampleBitdepth := 4#8, channelCount := 2#8
    sampleRate := 44100#32, totalSamples := 100#32, highpassFrequency := 500#16, flags := 0#8, loop := .other 3#8 }

theorem fixedFields_workedHeader (et : Byte) : fixedFields (workedHeader et) =
    [0x80#8, 0x00#8, 0x01#8, 0x94#8, et, 0x12#8, 0x04#8, 0x02#8, 0x00#8, 0x00#8, 0xAC#8, 0x44#8, 0x00#8, 0x00#8, 0x00#8,
      0x64#8, 0x01#8, 0xF4#8, 0x03#8, 0x00#8] := by
  have hoffset : beBytes 2 (404#16).toNat = [0x01#8, 0x94#8] := by decide
  have hrate : beBytes 4 (44100#32).toNat = [0x00#8, 0x00#8, 0xAC#8, 0x44#8] := by decide
  have htotal : beBytes 4 (100#32).toNat = [0x00#8, 0x00#8, 0x00#8, 0x64#8] := by decide
  have hhighpass : beBytes 2 (500#16).toNat = [0x01#8, 0xF4#8] := by decide
  rw [fixedFields, workedHeader, hoffset, hrate, htotal, hhighpass]
  rfl

/-- Settles O59: the twenty bytes of the example are the fixed fields of its header, which are read back before any
remainder; the version is read with the loop block. -/
theorem headerWorkedExample : Obligations.HeaderWorkedExample := by
  intro et rest hr
  rw [← fixedFields_workedHeader]
  exact ⟨_, readHeader_fixedFields (workedHeader et) hr, rfl, rfl, rfl, rfl, rfl, rfl, rfl, rfl,
    (loopVersion_readLoopBlock _).trans (getD_version_fixedFields (workedHeader et) rest), rfl⟩

end Sys2Proof.Machine
end

section
/-! PROOFS. Binary64 values compared (00_scope R13): patterns are ordered as the magnitudes of their values, a value is
rounded to a nearest one, and bounds that the format has are kept by rounding. The proofs about the prediction filter use
these and do not look into an operation again. -/

namespace Sys2Proof.Machine

/-! ### Patterns in the order of their magnitudes -/

theorem f64Exp_eq (x : Binary64) : f64Exp x = ((f64Biased x - 1 : ℕ) : ℤ) - 1074 := by
  unfold f64Exp
  split <;> omega

theorem abs_f64Value (x : Binary64) : |(f64Value x : ℝ)| = f64Mant x * ulp (f64Biased x - 1) := by
  rw [cast_f64Value, abs_signed, f64Exp_eq, ← ulp, abs_of_nonneg (mul_nonneg (Nat.cast_nonneg _) (ulp_pos _).le)]

theorem canonical_f64Mant (x : Binary64) : Canonical (f64Biased x - 1) (f64Mant x) := by
  refine ⟨f64Mant_lt x, ?_⟩
  unfold f64Mant
  split <;> omega

/-- The pattern below the sign, as the exponent field and the significand that make it up. -/
theorem low63_eq (x : Binary64) : x.toNat % 2 ^ 63 = (f64Biased x - 1) * 2 ^ 52 + f64Mant x := by
  have hb := f64Biased_eq x
  have hf := f64Fraction_eq x
  unfold f64Mant
  split <;> omega

theorem Canonical.mul_ulp_lt {k s l t : ℕ} (hs : Canonical k s) (ht : Canonical l t)
    (h : k * 2 ^ 52 + s < l * 2 ^ 52 + t) : s * ulp k < t * ulp l := by
  obtain ⟨hs1, hs2⟩ := hs
  obtain ⟨ht1, ht2⟩ := ht
  have hs1' : (s : ℝ) < 2 ^ 53 := by exact_mod_cast hs1
  rcases eq_or_ne k l with rfl | hkl
  · exact mul_lt_mul_of_pos_right (by exact_mod_cast (by omega : s < t)) (ulp_pos k)
  · have hlt : k < l := by omega
    have ht2' : (2 : ℝ) ^ 52 ≤ t := by exact_mod_cast ht2.resolve_left (by omega)
    calc s * ulp k < 2 ^ 53 * ulp k := mul_lt_mul_of_pos_right hs1' (ulp_pos k)
      _ = 2 ^ 52 * ulp (k + 1) := by rw [ulp_succ]; ring
      _ ≤ 2 ^ 52 * ulp l := mul_le_mul_of_nonneg_left (ulp_mono hlt) (by positivity)
      _ ≤ t * ulp l := mul_le_mul_of_nonneg_right ht2' (ulp_pos l).le

theorem abs_f64Value_lt_of_low63_lt {x y : Binary64} (h : x.toNat % 2 ^ 63 < y.toNat % 2 ^ 63) :
    |(f64Value x : ℝ)| < |(f64Value y : ℝ)| := by
  rw [low63_eq, low63_eq] at h
  rw [abs_f64Value, abs_f64Value]
  exact (canonical_f64Mant x).mul_ulp_lt (canonical_f64Mant y) h

/-- Below the sign, patterns are ordered as the magnitudes of their values. -/
theorem low63_le_iff (x y : Binary64) :
    x.toNat % 2 ^ 63 ≤ y.toNat % 2 ^ 63 ↔ |(f64Value x : ℝ)| ≤ |(f64Value y : ℝ)| := by
  constructor
  · intro h
    rcases h.lt_or_eq with h | h
    · exact (abs_f64Value_lt_of_low63_lt h).le
    · have hb : f64Biased x = f64Biased y := by rw [f64Biased_eq, f64Biased_eq]; omega
      have hf : f64Fraction x = f64Fraction y := by rw [f64Fraction_eq, f64Fraction_eq]; omega
      rw [abs_f64Value, abs_f64Value, f64Mant, f64Mant, hb, hf]
  · intro h
    by_contra hlt
    exact h.not_gt (abs_f64Value_lt_of_low63_lt (not_le.1 hlt))

theorem f64Sign_eq (x : Binary64) : f64Sign x = decide (2 ^ 63 ≤ x.toNat) := BitVec.msb_eq_decide x

theorem f64Value_nonneg {x : Binary64} (h : f64Sign x = false) : 0 ≤ (f64Value x : ℝ) := by
  rw [cast_f64Value, h, signed_false]
  positivity

theorem f64Value_nonpos {x : Binary64} (h : f64Sign x = true) : (f64Value x : ℝ) ≤ 0 := by
  rw [cast_f64Value, h, signed_true]
  exact neg_nonpos.2 (by positivity)

theorem f64Sign_of_pos {x : Binary64} (h : 0 < (f64Value x : ℝ)) : f64Sign x = false :=
  Bool.eq_false_iff.2 fun hs => h.not_ge (f64Value_nonpos hs)

theorem f64Sign_of_neg {x : Binary64} (h : (f64Value x : ℝ) < 0) : f64Sign x = true :=
  Bool.not_eq_false _ ▸ fun hs => h.not_ge (f64Value_nonneg hs)

/-- The sign and the value determine the pattern. -/
theorem eq_of_f64Sign_eq_of_f64Value_eq {x y : Binary64} (hs : f64Sign x = f64Sign y)
    (hv : (f64Value x : ℝ) = f64Value y) : x = y := by
  have hlow := Nat.le_antisymm ((low63_le_iff x y).2 (by rw [hv])) ((low63_le_iff y x).2 (by rw [hv]))
  rw [f64Sign_eq, f64Sign_eq, decide_eq_decide] at hs
  exact BitVec.eq_of_toNat_eq (by omega)

theorem f64Value_of_isZero {x : Binary64} (h : f64IsZero x = true) : (f64Value x : ℝ) = 0 := by
  simp only [f64IsZero, Bool.and_eq_true, beq_iff_eq] at h
  rw [cast_f64Value, f64Mant, if_pos h.1, h.2]
  cases f64Sign x <;> simp

theorem f64IsZero_of_value {x : Binary64} (h : (f64Value x : ℝ) = 0) : f64IsZero x = true := by
  by_contra h0
  have hm : (0 : ℝ) < f64Mant x := by exact_mod_cast f64Mant_pos (Bool.not_eq_true _ ▸ h0)
  have habs := abs_f64Value x
  rw [h, abs_zero] at habs
  exact (mul_pos hm (ulp_pos _)).ne habs

/-- A finite pattern that is not negative is not below 0.0 (40_predict R136). -/
theorem f64BelowZero_eq_false {x : Binary64} (h : 0 ≤ (f64Value x : ℝ)) : f64BelowZero x = false := by
  cases hs : f64Sign x
  · simp [f64BelowZero, hs]
  · simp [f64BelowZero, f64IsZero_of_value ((f64Value_nonpos hs).antisymm h)]

theorem f64IsFinite_of_low63_lt {x : Binary64} (h : x.toNat % 2 ^ 63 < f64InfBits) : f64IsFinite x = true := by
  have hb := f64Biased_eq x
  unfold f64InfBits at h
  exact bne_iff_ne.2 (by omega)

/-! ### Values the format has -/

/-- The real number is the value of a finite pattern. -/
def Representable (v : ℝ) : Prop := ∃ z : Binary64, f64IsFinite z = true ∧ (f64Value z : ℝ) = v

theorem representable_f64Value {x : Binary64} (h : f64IsFinite x = true) : Representable (f64Value x) := ⟨x, h, rfl⟩

theorem representable_int {n : ℤ} (h : |n| < 2 ^ 53) : Representable n := by
  obtain ⟨hfin, hval⟩ := i2f_exact h
  exact ⟨i2f n, hfin, by exact_mod_cast hval⟩

/-- A whole number below 2^53 times a power of two that is not below the least unit: rounding keeps it. -/
theorem representable_dyadic {t e : ℤ} (ht : |t| < 2 ^ 53) (he : -1074 ≤ e) (he0 : e ≤ 0) : Representable (t * 2 ^ e) := by
  have ht' : |(t : ℝ)| < 2 ^ 53 := by exact_mod_cast ht
  have hlt : |(t : ℝ)| * 2 ^ e < 2 ^ 1024 - 2 ^ 970 := by
    refine lt_of_lt_of_le ?_ two_pow_53_le_threshold
    exact (mul_le_of_le_one_right (abs_nonneg _) (zpow_le_one_of_nonpos₀ one_le_two he0)).trans_lt ht'
  obtain ⟨k, s, x, hx, ha, -, -, hfin, hval⟩ := (isRounding_int t e).value hlt
  have hk : (k : ℤ) - 1074 ≤ e := by
    by_contra hk
    have hx52 : 2 ^ 52 ≤ x := hx.lower.resolve_left (by omega)
    have hu : 2 * (2 : ℝ) ^ e ≤ ulp k := by
      rw [ulp, ← zpow_one_add₀ two_ne_zero]
      exact zpow_le_zpow_right₀ one_le_two (by omega)
    have h2 : 2 ^ 52 * (2 * (2 : ℝ) ^ e) ≤ x * ulp k := mul_le_mul hx52 hu (by positivity) hx.nonneg
    have h3 : |(t : ℝ)| * 2 ^ e < 2 ^ 53 * 2 ^ e := mul_lt_mul_of_pos_right ht' (by positivity)
    linarith
  obtain ⟨d, hd⟩ := Int.eq_ofNat_of_zero_le (sub_nonneg.2 hk)
  have hscale : (2 : ℝ) ^ e = 2 ^ d * ulp k := by
    rw [ulp, ← zpow_natCast, ← zpow_add₀ two_ne_zero]
    congr 1
    omega
  have hxn : x = ((|t| * 2 ^ d : ℤ) : ℝ) := by
    rw [hscale, ← mul_assoc] at ha
    rw [← mul_right_cancel₀ (ulp_pos k).ne' ha]
    push_cast
    ring
  refine ⟨_, hfin, ?_⟩
  rw [hval, hx.sig_eq hxn, ← ha, signed_mul, signed_abs_int]

/-- Every number from 2^-1022 up has a value of the format below it, less than one part in 2^52 away. -/
theorem exists_representable_near {e : ℝ} (hlo : 2 ^ (-1022 : ℤ) ≤ e) (hhi : e < 2 ^ 53) :
    ∃ v, Representable v ∧ |v - e| ≤ 2 ^ (-52 : ℤ) * e := by
  have hpos : 0 < e := lt_of_lt_of_le (by positivity) hlo
  obtain ⟨j, hj1, hj2⟩ := exists_mem_Ico_zpow hpos one_lt_two
  have hjlo : -1022 ≤ j := by
    have := (zpow_lt_zpow_iff_right₀ (one_lt_two (α := ℝ))).1 (hlo.trans_lt hj2)
    omega
  have hjhi : j < 53 := (zpow_lt_zpow_iff_right₀ (one_lt_two (α := ℝ))).1 (hj1.trans_lt (by exact_mod_cast hhi))
  obtain ⟨u, hu⟩ : ∃ u : ℝ, u = 2 ^ (j - 52) := ⟨_, rfl⟩
  have hu0 : 0 < u := hu ▸ by positivity
  have hju : (2 : ℝ) ^ j = 2 ^ 52 * u := by
    rw [hu, ← zpow_natCast, ← zpow_add₀ two_ne_zero]
    congr 1
    omega
  have hfl := Int.floor_le (e / u)
  have hlt := Int.lt_floor_add_one (e / u)
  rw [le_div_iff₀ hu0] at hfl
  rw [div_lt_iff₀ hu0] at hlt
  have hnn : 0 ≤ ⌊e / u⌋ := Int.floor_nonneg.2 (by positivity)
  have hsmall : |⌊e / u⌋| < 2 ^ 53 := by
    rw [abs_of_nonneg hnn, Int.floor_lt, div_lt_iff₀ hu0]
    rw [zpow_add_one₀ two_ne_zero, hju] at hj2
    push_cast
    linarith
  have hrep : Representable (⌊e / u⌋ * u) := by
    have := representable_dyadic (e := j - 52) hsmall (by omega) (by omega)
    rwa [← hu] at this
  refine ⟨⌊e / u⌋ * u, hrep, ?_⟩
  have hule : u ≤ 2 ^ (-52 : ℤ) * e := by
    rw [zpow_neg, ← div_eq_inv_mul, le_div_iff₀ (by positivity)]
    rw [hju] at hj1
    exact_mod_cast (mul_comm _ _).trans_le hj1
  rw [abs_of_nonpos (by linarith)]
  linarith

/-! ### Rounding to a nearest value -/

/-- The pattern is finite and no finite value is nearer to the real number. -/
def IsNearest (r : Binary64) (e : ℝ) : Prop :=
  f64IsFinite r = true ∧ ∀ v, Representable v → |(f64Value r : ℝ) - e| ≤ |v - e|

namespace IsNearest

variable {r : Binary64} {e v : ℝ}

theorem finite (h : IsNearest r e) : f64IsFinite r = true := h.1

/-- A value of the format is not changed by rounding. -/
theorem eq (h : IsNearest r e) (he : Representable e) : (f64Value r : ℝ) = e := by
  have := h.2 e he
  rw [sub_self, abs_zero] at this
  exact sub_eq_zero.1 (abs_nonpos_iff.1 this)

/-- Rounding does not pass a value of the format, from below. -/
theorem le (h : IsNearest r e) (hv : Representable v) (hle : e ≤ v) : (f64Value r : ℝ) ≤ v := by
  have hd := h.2 v hv
  rw [abs_of_nonneg (sub_nonneg.2 hle)] at hd
  linarith [le_abs_self ((f64Value r : ℝ) - e)]

/-- Rounding does not pass a value of the format, from above. -/
theorem ge (h : IsNearest r e) (hv : Representable v) (hle : v ≤ e) : v ≤ (f64Value r : ℝ) := by
  have hd := h.2 v hv
  rw [abs_of_nonpos (sub_nonpos.2 hle)] at hd
  linarith [neg_abs_le ((f64Value r : ℝ) - e)]

theorem abs_le_int (h : IsNearest r e) {n : ℤ} (hn : |n| < 2 ^ 53) (hle : |e| ≤ n) : |(f64Value r : ℝ)| ≤ n := by
  obtain ⟨h1, h2⟩ := abs_le.1 hle
  have hneg : Representable (-(n : ℝ)) := by exact_mod_cast representable_int (n := -n) (by rwa [abs_neg])
  exact abs_le.2 ⟨h.ge hneg h1, h.le (representable_int hn) h2⟩

/-- The relative error of a rounding: less than one part in 2^52, where nothing is subnormal. -/
theorem rel_error (h : IsNearest r e) (hlo : e = 0 ∨ 2 ^ (-1022 : ℤ) ≤ e) (hhi : e < 2 ^ 53) :
    |(f64Value r : ℝ) - e| ≤ 2 ^ (-52 : ℤ) * e := by
  rcases hlo with rfl | hlo
  · have h0 := h.eq (by exact_mod_cast representable_int (n := 0) (by norm_num))
    rw [h0, sub_self, abs_zero, mul_zero]
  · obtain ⟨v, hv, hnear⟩ := exists_representable_near hlo hhi
    exact (h.2 v hv).trans hnear

end IsNearest

/-! ### What each operation rounds -/

theorem CorrectlyRounded.isNearest {r : Binary64} {e : ℚ} (h : CorrectlyRounded r e) (he : |(e : ℝ)| < 2 ^ 53) :
    IsNearest r e := by
  have hlt : |(e : ℝ)| < 2 ^ 1024 - 2 ^ 970 := he.trans_le two_pow_53_le_threshold
  obtain ⟨hfin, hnear⟩ := h.1 (by exact_mod_cast hlt)
  refine ⟨hfin, ?_⟩
  rintro v ⟨z, hz, rfl⟩
  exact_mod_cast (hnear z hz).1

section Operations

variable {x y : Binary64} (hx : f64IsFinite x = true) (hy : f64IsFinite y = true)

include hx hy

theorem isNearest_add (h : |(f64Value x : ℝ) + f64Value y| < 2 ^ 53) :
    IsNearest (f64Add x y) (f64Value x + f64Value y) := by
  exact_mod_cast (correctlyRounded_add hx hy).isNearest (by exact_mod_cast h)

theorem isNearest_sub (h : |(f64Value x : ℝ) - f64Value y| < 2 ^ 53) :
    IsNearest (f64Sub x y) (f64Value x - f64Value y) := by
  exact_mod_cast (correctlyRounded_sub hx hy).isNearest (by exact_mod_cast h)

theorem isNearest_mul (h : |(f64Value x : ℝ) * f64Value y| < 2 ^ 53) :
    IsNearest (f64Mul x y) (f64Value x * f64Value y) := by
  exact_mod_cast (correctlyRounded_mul hx hy).isNearest (by exact_mod_cast h)

theorem isNearest_div (h0 : f64IsZero y = false) (h : |(f64Value x : ℝ) / f64Value y| < 2 ^ 53) :
    IsNearest (f64Div x y) (f64Value x / f64Value y) := by
  exact_mod_cast (correctlyRounded_div hx hy h0).isNearest (by exact_mod_cast h)

end Operations

/-- The root of a value that is not below 0.0, a zero of negative sign included (40_predict R136). -/
theorem isNearest_sqrt {x : Binary64} (hx : f64IsFinite x = true) (h0 : 0 ≤ (f64Value x : ℝ)) :
    IsNearest (f64Sqrt x) √(f64Value x : ℝ) := by
  cases hs : f64Sign x
  · obtain ⟨hfin, hnear⟩ := (isRounding_f64Sqrt hx hs).nearest (sqrt_f64Value_lt hx)
    refine ⟨hfin, ?_⟩
    rintro v ⟨z, -, rfl⟩
    exact (hnear z).1
  · have hv : (f64Value x : ℝ) = 0 := (f64Value_nonpos hs).antisymm h0
    have hsqrt : f64Sqrt x = x := by simp [f64Sqrt, f64IsNaN_of_finite hx, f64IsZero_of_value hv]
    rw [hsqrt, hv, Real.sqrt_zero]
    refine ⟨hx, fun v _ => ?_⟩
    rw [hv, sub_self, abs_zero]
    exact abs_nonneg _

end Sys2Proof.Machine
end

section
/-! PROOFS. Rounding a prediction, the free cosine, and the bound of the prediction (40_predict R135, R138 to R143). -/

namespace Sys2Proof.Machine

/-! ### RoundPred -/

/-- `(2 * m + d) / (2 * d)` is `m / d` rounded to nearest, a tie going up. -/
theorem halfUp_div_spec {m d : ℕ} (hd : 0 < d) :
    (((2 * m + d) / (2 * d) : ℕ) : ℝ) - 1 / 2 ≤ (m : ℝ) / d ∧ (m : ℝ) / d < ((2 * m + d) / (2 * d) : ℕ) + 1 / 2 := by
  have hdr : (0 : ℝ) < d := by exact_mod_cast hd
  have hlo := Nat.div_mul_le_self (2 * m + d) (2 * d)
  have hhi := Nat.lt_div_mul_add (a := 2 * m + d) (by omega : 0 < 2 * d)
  generalize (2 * m + d) / (2 * d) = q at *
  have hlo' : (q : ℝ) * (2 * d) ≤ 2 * m + d := by exact_mod_cast hlo
  have hhi' : (2 : ℝ) * m + d < q * (2 * d) + 2 * d := by exact_mod_cast hhi
  constructor
  · rw [le_div_iff₀ hdr]
    linarith
  · rw [div_lt_iff₀ hdr]
    linarith

/-- The magnitude `f64RoundHalfAway` gives. -/
def halfAwayMagnitude (x : Binary64) : ℕ :=
  if 0 ≤ f64Exp x then f64Mant x * 2 ^ (f64Exp x).toNat
  else (2 * f64Mant x + 2 ^ (-f64Exp x).toNat) / 2 ^ ((-f64Exp x).toNat + 1)

theorem cast_f64RoundHalfAway (x : Binary64) :
    (f64RoundHalfAway x : ℝ) = signed (f64Sign x) (halfAwayMagnitude x) := by
  have h : f64RoundHalfAway x = if f64Sign x then -(halfAwayMagnitude x : ℤ) else halfAwayMagnitude x := rfl
  rw [h]
  cases f64Sign x <;> simp

/-- It is nearest to the exact magnitude, and above it in a tie. -/
theorem halfAwayMagnitude_spec (x : Binary64) :
    (halfAwayMagnitude x : ℝ) - 1 / 2 ≤ |(f64Value x : ℝ)| ∧ |(f64Value x : ℝ)| < halfAwayMagnitude x + 1 / 2 := by
  rw [cast_f64Value, abs_signed, abs_of_nonneg (by positivity), halfAwayMagnitude]
  split
  next he =>
    have hpow : (2 : ℝ) ^ f64Exp x = 2 ^ (f64Exp x).toNat := by rw [← zpow_natCast, Int.toNat_of_nonneg he]
    rw [hpow, Nat.cast_mul, Nat.cast_pow, Nat.cast_ofNat]
    constructor <;> linarith
  next he =>
    have hpow : (f64Mant x : ℝ) * 2 ^ f64Exp x = f64Mant x / (2 ^ (-f64Exp x).toNat : ℕ) := by
      rw [Nat.cast_pow, Nat.cast_ofNat, ← zpow_natCast, Int.toNat_of_nonneg (by omega), zpow_neg, div_inv_eq_mul]
    rw [hpow, pow_succ']
    exact halfUp_div_spec (Nat.two_pow_pos _)

theorem roundPred_of_finite {p : Binary64} (h : f64IsFinite p = true) : roundPred p = f64RoundHalfAway p := if_pos h

/-- What `RoundPred` gives a number, over the reals (40_predict R139). -/
theorem roundPred_spec {p : Binary64} (h : f64IsFinite p = true) :
    |(f64Value p : ℝ) - roundPred p| ≤ 1 / 2 ∧
      (|(f64Value p : ℝ) - roundPred p| = 1 / 2 → |(f64Value p : ℝ)| < |(roundPred p : ℝ)|) := by
  obtain ⟨hlo, hhi⟩ := halfAwayMagnitude_spec p
  have hround : (roundPred p : ℝ) = signed (f64Sign p) (halfAwayMagnitude p) := by
    rw [roundPred_of_finite h, cast_f64RoundHalfAway]
  have hdist : |(f64Value p : ℝ) - roundPred p| = abs (|(f64Value p : ℝ)| - halfAwayMagnitude p) := by
    rw [hround]
    cases hs : f64Sign p
    · rw [signed_false, abs_of_nonneg (f64Value_nonneg hs)]
    · rw [signed_true, abs_of_nonpos (f64Value_nonpos hs), ← abs_neg]
      congr 1
      ring
  rw [hdist, hround, abs_signed, Nat.abs_cast]
  refine ⟨abs_le.2 ⟨by linarith, by linarith⟩, fun htie => ?_⟩
  rcases abs_choice (|(f64Value p : ℝ)| - halfAwayMagnitude p) with hc | hc <;> rw [hc] at htie <;> linarith

/-- Settles O21: the magnitude is rounded to the nearest integer, a tie going up, and takes the sign back. -/
theorem roundPredIsNearestTiesAway : Obligations.RoundPredIsNearestTiesAway := by
  intro p hp
  obtain ⟨hnear, htie⟩ := roundPred_spec hp
  have h2 : ((1 / 2 : ℚ) : ℝ) = 1 / 2 := by norm_num
  rw [← h2] at hnear htie
  exact ⟨by exact_mod_cast hnear, by exact_mod_cast htie⟩

theorem abs_roundPred_le {p : Binary64} (h : f64IsFinite p = true) {n : ℤ} (hn : |(f64Value p : ℝ)| ≤ n) :
    |roundPred p| ≤ n := by
  have hnear := (roundPred_spec h).1
  have htri := abs_sub_abs_le_abs_sub (roundPred p : ℝ) (f64Value p)
  rw [abs_sub_comm] at htri
  have hlt : |(roundPred p : ℝ)| < n + 1 := by linarith
  exact Int.lt_add_one_iff.1 (by exact_mod_cast hlt)

/-- An integer needs no rounding. -/
theorem roundPred_of_int {p : Binary64} (h : f64IsFinite p = true) {n : ℤ} (hn : (f64Value p : ℝ) = n) :
    roundPred p = n := by
  have hnear := (roundPred_spec h).1
  rw [hn, ← Int.cast_sub, ← Int.cast_abs] at hnear
  have hlt : (|n - roundPred p| : ℤ) < (1 : ℝ) := by linarith
  exact (sub_eq_zero.1 (Int.abs_lt_one_iff.1 (by exact_mod_cast hlt))).symm

/-! ### The constants of the tables and the cosine -/

theorem f64Value_one : (f64Value 0x3FF0000000000000#64 : ℝ) = 1 := by
  rw [cast_f64Value, show f64Sign 0x3FF0000000000000#64 = false by decide,
    show f64Mant 0x3FF0000000000000#64 = 2 ^ 52 by decide, show f64Exp 0x3FF0000000000000#64 = -52 by decide]
  norm_num

theorem f64Value_two : (f64Value 0x4000000000000000#64 : ℝ) = 2 := by
  rw [cast_f64Value, show f64Sign 0x4000000000000000#64 = false by decide,
    show f64Mant 0x4000000000000000#64 = 2 ^ 52 by decide, show f64Exp 0x4000000000000000#64 = -51 by decide]
  norm_num

theorem f64Value_negOne : (f64Value 0xBFF0000000000000#64 : ℝ) = -1 := by
  rw [cast_f64Value, show f64Sign 0xBFF0000000000000#64 = true by decide,
    show f64Mant 0xBFF0000000000000#64 = 2 ^ 52 by decide, show f64Exp 0xBFF0000000000000#64 = -52 by decide]
  norm_num

/-- What the pattern test of P2 says of the value (40_predict R135). -/
theorem finite_and_abs_le_of_f64AbsLeOne {x : Binary64} (h : f64AbsLeOne x = true) :
    f64IsFinite x = true ∧ |(f64Value x : ℝ)| ≤ 1 := by
  have hlow : x.toNat % 2 ^ 63 ≤ 1023 * 2 ^ 52 := by rw [← toNat_low63]; exact of_decide_eq_true h
  refine ⟨f64IsFinite_of_low63_lt (by unfold f64InfBits; omega), ?_⟩
  have hle := (low63_le_iff x 0x3FF0000000000000#64).1 hlow
  rwa [f64Value_one, abs_one] at hle

theorem f64AbsLeOne_cos64 (x : Binary64) : f64AbsLeOne (cos64 x) = true := by
  unfold cos64
  split
  next => decide
  next =>
    split
    next h => exact h
    next => decide

/-- Settles O22: both are imposed on the draw, and the pattern test of P2 bounds the value. -/
theorem cosineHasItsNamedProperties : Obligations.CosineHasItsNamedProperties := by
  refine ⟨if_pos rfl, fun x => ?_⟩
  obtain ⟨hfin, habs⟩ := finite_and_abs_le_of_f64AbsLeOne (f64AbsLeOne_cos64 x)
  obtain ⟨hlo, hhi⟩ := abs_le.1 habs
  exact ⟨hfin, by exact_mod_cast hlo, by exact_mod_cast hhi⟩

/-! ### Predict and PredInt -/

theorem sample_bounds (x : Half) : -32768 ≤ x.toInt ∧ x.toInt < 32768 := ⟨BitVec.le_toInt x, BitVec.toInt_lt⟩

/-- `i2f` of a sample is exact, and at most 32768 in magnitude (40_predict R138). -/
theorem sample_exact (x : Half) :
    f64IsFinite (i2f x.toInt) = true ∧ (f64Value (i2f x.toInt) : ℝ) = x.toInt ∧ |(x.toInt : ℝ)| ≤ 32768 := by
  obtain ⟨hlo, hhi⟩ := sample_bounds x
  have hle : |x.toInt| ≤ 32768 := abs_le.2 ⟨hlo, hhi.le⟩
  obtain ⟨hfin, hval⟩ := i2f_exact (k := x.toInt) (hle.trans_lt (by norm_num))
  exact ⟨hfin, by exact_mod_cast hval, by exact_mod_cast hle⟩

/-- One product of the prediction is bounded by an integer as the exact one is. -/
theorem coef_mul_sample_bounded {c : Binary64} (hc : f64IsFinite c = true) {n : ℤ} (hn : |n| < 2 ^ 20)
    (hle : |(f64Value c : ℝ)| ≤ n) (x : Half) :
    f64IsFinite (f64Mul c (i2f x.toInt)) = true ∧ |(f64Value (f64Mul c (i2f x.toInt)) : ℝ)| ≤ (n * 32768 : ℤ) := by
  obtain ⟨hx, hv, hle'⟩ := sample_exact x
  have hprod : |(f64Value c : ℝ) * x.toInt| ≤ (n * 32768 : ℤ) := by
    push_cast
    rw [abs_mul]
    exact mul_le_mul hle hle' (abs_nonneg _) ((abs_nonneg _).trans hle)
  have hlt : |n * 32768| < 2 ^ 53 := by
    rw [abs_mul, show |(32768 : ℤ)| = 32768 from rfl]
    omega
  have hsmall : |(f64Value c : ℝ) * x.toInt| < 2 ^ 53 :=
    lt_of_le_of_lt hprod (by exact_mod_cast (le_abs_self _).trans_lt hlt)
  have hnear := isNearest_mul hc hx (by rwa [hv])
  rw [hv] at hnear
  exact ⟨hnear.finite, hnear.abs_le_int hlt hprod⟩

/-- The bound of 40_predict R141, from the magnitudes of the table. -/
theorem predict_bounded {c0 c1 : Binary64} (h0 : f64IsFinite c0 = true) (h1 : f64IsFinite c1 = true)
    (hle0 : |(f64Value c0 : ℝ)| ≤ 2) (hle1 : |(f64Value c1 : ℝ)| ≤ 1) (p : Prediction) :
    f64IsFinite (predict c0 c1 p) = true ∧ |(f64Value (predict c0 c1 p) : ℝ)| ≤ 98304 := by
  obtain ⟨hfin0, hp0⟩ := coef_mul_sample_bounded h0 (n := 2) (by norm_num) (by exact_mod_cast hle0) p.prev1
  obtain ⟨hfin1, hp1⟩ := coef_mul_sample_bounded h1 (n := 1) (by norm_num) (by exact_mod_cast hle1) p.prev2
  have hsum := abs_add_le (f64Value (f64Mul c0 (i2f p.prev1.toInt)) : ℝ) (f64Value (f64Mul c1 (i2f p.prev2.toInt)))
  push_cast at hp0 hp1
  have hnear := isNearest_add hfin0 hfin1 (by linarith)
  exact ⟨hnear.finite, by exact_mod_cast hnear.abs_le_int (n := 98304) (by norm_num) (by push_cast; linarith)⟩

/-- The pattern bounds of 40_predict R137 bound the magnitudes. -/
theorem TableInRange.abs_le {c0 c1 : Binary64} (h : TableInRange c0 c1) :
    (f64IsFinite c0 = true ∧ |(f64Value c0 : ℝ)| ≤ 2) ∧ f64IsFinite c1 = true ∧ |(f64Value c1 : ℝ)| ≤ 1 := by
  obtain ⟨⟨-, h0⟩, h1, h2⟩ := h
  have hlow0 : c0.toNat % 2 ^ 63 ≤ 1024 * 2 ^ 52 := by rw [BitVec.toNat_ofNat] at h0; omega
  have hlow1 : c1.toNat % 2 ^ 63 ≤ 1023 * 2 ^ 52 := by
    have := c1.isLt
    rw [BitVec.toNat_ofNat] at h1 h2
    omega
  have hle0 := (low63_le_iff c0 0x4000000000000000#64).1 hlow0
  rw [f64Value_two, abs_two] at hle0
  have hone : f64AbsLeOne c1 = true := decide_eq_true (by rwa [toNat_low63])
  exact ⟨⟨f64IsFinite_of_low63_lt (by unfold f64InfBits; omega), hle0⟩, finite_and_abs_le_of_f64AbsLeOne hone⟩

/-- Settles O27: |COEF0| <= 2 and |COEF1| <= 1 bound the two products and the sum by integers, which no rounding passes. -/
theorem predictionIsBounded : Obligations.PredictionIsBounded := by
  intro c0 c1 p h
  obtain ⟨⟨hfin0, hle0⟩, hfin1, hle1⟩ := h.abs_le
  obtain ⟨hfin, hle⟩ := predict_bounded hfin0 hfin1 hle0 hle1 p
  obtain ⟨h1, h2⟩ := abs_le.1 (abs_roundPred_le hfin (n := 98304) (by exact_mod_cast hle))
  exact ⟨hfin, h1, h2⟩

end Sys2Proof.Machine
end

section
/-! PROOFS. The derivation of the coefficient table by its steps, COEF, and the exact case of a cutoff of 0 (40_predict R131
to R134, R143). -/

namespace Sys2Proof.Machine

/-! ### The steps of the derivation -/

/-- `a` of 40_predict R133. -/
def excess (cz : Binary64) : Binary64 := f64Sub 0x3FF6A09E667F3BCD#64 cz

/-- `b` of 40_predict R133, the same for every stream (R134). -/
def leastExcess : Binary64 := 0x3FDA827999FCEF34#64

/-- `d` of 40_predict R133, before the guard. -/
def discriminant (cz : Binary64) : Binary64 :=
  f64Mul (f64Add (excess cz) leastExcess) (f64Sub (excess cz) leastExcess)

/-- `c` of 40_predict R133, the pole of the filter (R144), from the guarded discriminant `d`. -/
def poleOf (cz d : Binary64) : Binary64 := f64Div (f64Sub (excess cz) (f64Sqrt d)) leastExcess

theorem sqrt2_64_eq : sqrt2_64 = 0x3FF6A09E667F3BCD#64 := by decide +kernel

theorem sqrt2_64_sub_one64 : f64Sub sqrt2_64 one64 = leastExcess := by decide +kernel

theorem discriminant_eq (cz : Binary64) :
    f64Mul (f64Add (f64Sub sqrt2_64 cz) (f64Sub sqrt2_64 one64)) (f64Sub (f64Sub sqrt2_64 cz) (f64Sub sqrt2_64 one64)) =
      discriminant cz := by
  rw [sqrt2_64_sub_one64, sqrt2_64_eq]
  rfl

/-- The table is that of the pole. -/
theorem coefFromCos_of_pole {cz c : Binary64}
    (hc : c = poleOf cz (if f64BelowZero (discriminant cz) = true then 0#64 else discriminant cz)) :
    coefFromCos cz = (f64Mul 0x4000000000000000#64 c, f64Neg (f64Mul c c)) := by
  subst hc
  rw [← discriminant_eq, poleOf, excess, ← sqrt2_64_sub_one64, ← sqrt2_64_eq]
  rfl

/-! ### COEF -/

theorem exec_coef_of_table {s : State} {c0 c1 : Binary64} (he : s.err = false) (hr : s.sampleRate ≠ 0#32)
    (ht : tableOf s = (c0, c1)) :
    exec .coef s = .next { s with coef0 := c0, coef1 := c1, coefValid := true, dout := 0#32 } := by
  show execCoef s = _
  rw [execCoef, unlessFaulted_clear _ he, check_pass _ _ _ _ hr, ht]
  rfl

/-- Settles O23: the derivation of the model is that of the spec with its two constants evaluated. -/
theorem coefComputesTheTable : Obligations.CoefComputesTheTable := by
  refine ⟨fun s x cz a d c he hr hx hcz ha hd hc => ?_, fun s he hr => ?_, fun s he => ?_⟩
  · subst ha hd
    refine exec_coef_of_table he hr ?_
    have hangle : tableOf s = coefFromCos cz := by rw [hcz, hx]; rfl
    rw [hangle, coefFromCos_of_pole hc]
  · show execCoef s = _
    rw [execCoef, unlessFaulted_clear _ he, check_fail _ _ _ _ (not_not.2 hr)]
    exact faulted_eq .badParam _ he
  · exact unlessFaulted_faulted _ he

/-! ### Signs -/

theorem f64Sign_round (neg : Bool) (m : ℕ) (e : ℤ) : f64Sign (f64Round neg m e) = neg := by
  unfold f64Round
  split
  · exact f64Sign_pack neg (by decide)
  · exact f64Sign_pack neg (lt_of_le_of_lt (min_le_right _ _) (by decide))

theorem f64Sign_i2f (k : ℤ) : f64Sign (i2f k) = decide (k < 0) := f64Sign_round _ _ _

theorem f64Sign_mul_of_finite {x y : Binary64} (hx : f64IsFinite x = true) (hy : f64IsFinite y = true) :
    f64Sign (f64Mul x y) = (f64Sign x != f64Sign y) := by
  rw [f64Mul_of_finite hx hy, f64Sign_round]

/-- A product of positive signs has positive sign, whatever the factors are. -/
theorem f64Sign_mul_of_positive {x y : Binary64} (hx : f64Sign x = false) (hy : f64Sign y = false) :
    f64Sign (f64Mul x y) = false := by
  unfold f64Mul
  simp only [hx, hy]
  split
  · decide
  · split
    · split <;> decide
    · exact f64Sign_round _ _ _

/-- An exact sum of zero is negative only if both terms are (00_scope R13). -/
theorem f64Sign_add_of_sum_zero {x y : Binary64} (hx : f64IsFinite x = true) (hy : f64IsFinite y = true)
    (h : (f64Value x : ℝ) + f64Value y = 0) : f64Sign (f64Add x y) = (f64Sign x && f64Sign y) := by
  have hex : sumExp x y ≤ f64Exp x := min_le_left _ _
  have hey : sumExp x y ≤ f64Exp y := min_le_right _ _
  have hsum : (sumSig x y : ℝ) * 2 ^ sumExp x y = 0 := by
    rw [sumSig, Int.cast_add, add_mul, f64Aligned_value hex, f64Aligned_value hey, h]
  have hzero : sumSig x y = 0 := by exact_mod_cast (mul_eq_zero.1 hsum).resolve_right (by positivity)
  rw [f64Add_of_finite hx hy, if_pos hzero]
  exact f64Sign_pack _ (by decide)

theorem f64Sign_eq_of_f64Value_eq {x y : Binary64} (h : (f64Value x : ℝ) = f64Value y) (h0 : (f64Value x : ℝ) ≠ 0) :
    f64Sign x = f64Sign y := by
  rcases h0.lt_or_gt with hneg | hpos
  · rw [f64Sign_of_neg hneg, f64Sign_of_neg (h ▸ hneg)]
  · rw [f64Sign_of_pos hpos, f64Sign_of_pos (h ▸ hpos)]

/-! ### A cutoff of 0 -/

/-- With a cutoff of 0 the argument of the cosine is +0.0 (40_predict R143). -/
theorem coefAngle_zero {pi64 : Binary64} {rate : ℕ} (hs : f64Sign pi64 = false)
    (hfin : f64IsFinite (f64Mul two64 pi64) = true) (hr : rate ≠ 0) (hlt : rate < 2 ^ 53) :
    coefAngle pi64 rate 0 = 0#64 := by
  have hsign : f64Sign (f64Mul two64 pi64) = false := f64Sign_mul_of_positive rfl hs
  have hprod : f64Mul (f64Mul two64 pi64) (i2f 0) = 0#64 := by
    rw [f64Mul_of_finite hfin rfl, hsign]
    rfl
  obtain ⟨hrfin, hrval⟩ := i2f_exact (k := rate) (by rw [Nat.abs_cast]; exact_mod_cast hlt)
  have hrzero : f64IsZero (i2f rate) = false := by
    refine Bool.eq_false_iff.2 fun h0 => hr ?_
    have := f64Value_of_isZero h0
    rw [hrval] at this
    exact_mod_cast this
  have hrsign : f64Sign (i2f rate) = false := by rw [f64Sign_i2f]; simp
  rw [coefAngle, Nat.cast_zero, hprod, f64Div_of_finite rfl hrfin hrzero, hrsign, show f64Mant 0#64 = 0 from rfl, Nat.zero_mul,
    Nat.zero_div, Nat.zero_mod]
  rfl

theorem coefFromCos_one : coefFromCos one64 = (0x4000000000000000#64, 0xBFF0000000000000#64) := by decide +kernel

theorem tableOf_zero_cutoff {s : State} (hr : s.sampleRate ≠ 0#32) (hh : s.highpass = 0#16)
    (hs : f64Sign s.openParams.pi64 = false) (hfin : f64IsFinite (f64Mul two64 s.openParams.pi64) = true) :
    tableOf s = (0x4000000000000000#64, 0xBFF0000000000000#64) := by
  have hrate : s.sampleRate.toNat ≠ 0 := fun h => hr (BitVec.eq_of_toNat_eq h)
  have hangle := coefAngle_zero hs hfin hrate (s.sampleRate.isLt.trans (by decide))
  rw [tableOf, coefDerive, hh, show (0#16).toNat = 0 from rfl, hangle, show cos64 0#64 = one64 from if_pos rfl,
    coefFromCos_one]

/-- A product of an integer coefficient and a sample is exact. -/
theorem int_mul_sample {c : Binary64} (hc : f64IsFinite c = true) {n : ℤ} (hv : (f64Value c : ℝ) = n) (hn : |n| ≤ 2)
    (x : Half) :
    f64IsFinite (f64Mul c (i2f x.toInt)) = true ∧ (f64Value (f64Mul c (i2f x.toInt)) : ℝ) = (n * x.toInt : ℤ) ∧
      f64Sign (f64Mul c (i2f x.toInt)) = (f64Sign c != decide (x.toInt < 0)) := by
  obtain ⟨hx, hxv, hle⟩ := sample_exact x
  have hprod : |n * x.toInt| < 2 ^ 53 := by
    rw [abs_mul]
    have : |x.toInt| ≤ 32768 := by exact_mod_cast hle
    nlinarith [abs_nonneg x.toInt]
  have hnear := isNearest_mul hc hx (by rw [hv, hxv]; exact_mod_cast hprod)
  rw [hv, hxv, ← Int.cast_mul] at hnear
  exact ⟨hnear.finite, hnear.eq (representable_int hprod), by rw [f64Sign_mul_of_finite hc hx, f64Sign_i2f]⟩

theorem abs_zeroCutoffPrediction_lt (p : Prediction) : |2 * p.prev1.toInt - p.prev2.toInt| < 2 ^ 53 := by
  have h1 := sample_bounds p.prev1
  have h2 := sample_bounds p.prev2
  exact abs_lt.2 ⟨by omega, by omega⟩

/-- The two products and the sum are integers, which no rounding changes; a sum of zero is +0.0, since the products are
not both negative (40_predict R143). -/
theorem predict_zero_cutoff (p : Prediction) :
    f64IsFinite (predict 0x4000000000000000#64 0xBFF0000000000000#64 p) = true ∧
      (f64Value (predict 0x4000000000000000#64 0xBFF0000000000000#64 p) : ℝ) = (2 * p.prev1.toInt - p.prev2.toInt : ℤ) ∧
      (2 * p.prev1.toInt - p.prev2.toInt = 0 →
        f64Sign (predict 0x4000000000000000#64 0xBFF0000000000000#64 p) = false) := by
  obtain ⟨hfin1, hval1, hsign1⟩ := int_mul_sample (c := 0x4000000000000000#64) rfl (n := 2) (by exact_mod_cast f64Value_two)
    (by decide) p.prev1
  obtain ⟨hfin2, hval2, hsign2⟩ := int_mul_sample (c := 0xBFF0000000000000#64) rfl (n := -1)
    (by exact_mod_cast f64Value_negOne) (by decide) p.prev2
  have hsum : (f64Value (f64Mul 0x4000000000000000#64 (i2f p.prev1.toInt)) : ℝ) +
      f64Value (f64Mul 0xBFF0000000000000#64 (i2f p.prev2.toInt)) = (2 * p.prev1.toInt - p.prev2.toInt : ℤ) := by
    rw [hval1, hval2, ← Int.cast_add]
    congr 1
    ring
  have hlt := abs_zeroCutoffPrediction_lt p
  have hnear := isNearest_add hfin1 hfin2 (by rw [hsum]; exact_mod_cast hlt)
  rw [hsum] at hnear
  refine ⟨hnear.finite, hnear.eq (representable_int hlt), fun h0 => ?_⟩
  rw [predict, f64Sign_add_of_sum_zero hfin1 hfin2 (by rw [hsum, h0, Int.cast_zero]), hsign1, hsign2,
    show f64Sign 0x4000000000000000#64 = false from rfl, show f64Sign 0xBFF0000000000000#64 = true from rfl]
  by_cases h1 : p.prev1.toInt < 0
  · simp [show p.prev2.toInt < 0 by omega]
  · simp [h1]

/-- Settles O24: the argument of the cosine is +0.0, so that P1 gives the table; the prediction is an exact integer, and
+0.0 where that is 0. -/
theorem zeroCutoffIsExact : Obligations.ZeroCutoffIsExact := by
  refine ⟨fun s he hr hh hs hfin => exec_coef_of_table he hr (tableOf_zero_cutoff hr hh hs hfin), fun p => ?_⟩
  obtain ⟨hfin, hval, hzero⟩ := predict_zero_cutoff p
  refine ⟨?_, roundPred_of_int hfin hval⟩
  obtain ⟨-, hk⟩ := i2f_exact (abs_zeroCutoffPrediction_lt p)
  have heq : (f64Value (predict 0x4000000000000000#64 0xBFF0000000000000#64 p) : ℝ) =
      f64Value (i2f (2 * p.prev1.toInt - p.prev2.toInt)) := by rw [hval, hk, Rat.cast_intCast]
  refine eq_of_f64Sign_eq_of_f64Value_eq ?_ heq
  by_cases h0 : 2 * p.prev1.toInt - p.prev2.toInt = 0
  · rw [hzero h0, h0]
    rfl
  · exact f64Sign_eq_of_f64Value_eq heq (by rw [hval]; exact_mod_cast h0)

end Sys2Proof.Machine
end

section
/-! PROOFS. The guard and the range of the derived table (40_predict R136, R137). The derivation is followed step by step over
the reals, each rounded result known to one part in 1024: that is enough to keep `c` in (0, 1]. -/

namespace Sys2Proof.Machine

/-! ### Numbers that are not near the least values of the format -/

theorem representable_zero : Representable 0 := by exact_mod_cast representable_int (n := 0) (by norm_num)

theorem representable_one : Representable 1 := by exact_mod_cast representable_int (n := 1) (by norm_num)

/-- The powers of two from the least unit up to 1. -/
theorem representable_two_zpow_neg {j : ℕ} (hj : j ≤ 1074) : Representable (2 ^ (-(j : ℤ))) := by
  simpa using representable_dyadic (t := 1) (e := -(j : ℤ)) (by norm_num) (by omega) (by omega)

/-- The number is 0 or at least 2^-j. -/
def ZeroOrAtLeast (j : ℕ) (v : ℝ) : Prop := v = 0 ∨ 2 ^ (-(j : ℤ)) ≤ v

namespace ZeroOrAtLeast

variable {j l : ℕ} {v w : ℝ}

theorem nonneg (h : ZeroOrAtLeast j v) : 0 ≤ v := h.elim (fun h => h.ge) fun h => le_trans (by positivity) h

theorem mono (h : ZeroOrAtLeast j v) (hjl : j ≤ l) : ZeroOrAtLeast l v :=
  h.imp_right fun h => (zpow_le_zpow_right₀ one_le_two (by omega)).trans h

theorem mul (hv : ZeroOrAtLeast j v) (hw : ZeroOrAtLeast l w) : ZeroOrAtLeast (j + l) (v * w) := by
  rcases hv with rfl | hv
  · exact .inl (zero_mul w)
  · rcases hw with rfl | hw
    · exact .inl (mul_zero v)
    · right
      rw [Nat.cast_add, neg_add, zpow_add₀ two_ne_zero]
      exact mul_le_mul hv hw (by positivity) (le_trans (by positivity) hv)

theorem sqrt (h : ZeroOrAtLeast j v) : ZeroOrAtLeast j √v := by
  rcases h with rfl | h
  · exact .inl Real.sqrt_zero
  · have hone : (2 : ℝ) ^ (-(j : ℤ)) ≤ 1 := zpow_le_one_of_nonpos₀ one_le_two (by omega)
    refine .inr (Real.le_sqrt_of_sq_le ?_)
    rw [sq]
    exact (mul_le_of_le_one_left (by positivity) hone).trans h

end ZeroOrAtLeast

theorem IsNearest.zeroOrAtLeast {r : Binary64} {e : ℝ} (h : IsNearest r e) {j : ℕ} (he : ZeroOrAtLeast j e)
    (hj : j ≤ 1074) : ZeroOrAtLeast j (f64Value r) := by
  rcases he with rfl | he
  · exact .inl (h.eq representable_zero)
  · exact .inr (h.ge (representable_two_zpow_neg hj) he)

/-- `r` is `e` to one part in 1024. -/
def Close (r e : ℝ) : Prop := 1023 / 1024 * e ≤ r ∧ r ≤ 1025 / 1024 * e

theorem IsNearest.close {r : Binary64} {e : ℝ} (h : IsNearest r e) (hlo : ZeroOrAtLeast 1022 e) (hhi : e < 2 ^ 53) :
    Close (f64Value r) e := by
  have hcoarse : (2 : ℝ) ^ (-52 : ℤ) * e ≤ 1 / 1024 * e := mul_le_mul_of_nonneg_right (by norm_num) hlo.nonneg
  obtain ⟨h1, h2⟩ := abs_le.1 ((h.rel_error hlo hhi).trans hcoarse)
  constructor <;> linarith

/-! ### The excess of sqrt(2) over the cosine -/

theorem finite_leastExcess : f64IsFinite leastExcess = true := by decide

theorem f64Value_leastExcess : (f64Value leastExcess : ℝ) = 7461808180621108 / 2 ^ 54 := by
  rw [cast_f64Value, show f64Sign leastExcess = false by decide, show f64Mant leastExcess = 7461808180621108 by decide,
    show f64Exp leastExcess = -54 by decide]
  norm_num

/-- `SQRT2_64 (-) 1.0` is exact (40_predict R134). -/
theorem f64Value_sqrt2 : (f64Value 0x3FF6A09E667F3BCD#64 : ℝ) = 1 + f64Value leastExcess := by
  rw [f64Value_leastExcess, cast_f64Value, show f64Sign 0x3FF6A09E667F3BCD#64 = false by decide,
    show f64Mant 0x3FF6A09E667F3BCD#64 = 6369051672525773 by decide, show f64Exp 0x3FF6A09E667F3BCD#64 = -52 by decide]
  norm_num

theorem leastExcess_bounds : 2 / 5 ≤ (f64Value leastExcess : ℝ) ∧ (f64Value leastExcess : ℝ) ≤ 1 / 2 := by
  rw [f64Value_leastExcess]
  norm_num

/-- A value of at least 1/4 is a whole number of 2^-54. -/
theorem exists_int_mul_of_quarter_le {z : Binary64} (hz : 1 / 4 ≤ (f64Value z : ℝ)) :
    ∃ n : ℤ, (f64Value z : ℝ) = n * 2 ^ (-54 : ℤ) := by
  have hu : ulp 1020 = 2 ^ (-54 : ℤ) := rfl
  obtain ⟨v, hv, ⟨n, rfl⟩ | ⟨-, hlt⟩⟩ := f64Value_in_units z 1020
  · exact ⟨n, hu ▸ hv⟩
  · have hsmall : v * ulp 1020 < 2 ^ 52 * ulp 1020 := mul_lt_mul_of_pos_right (abs_lt.1 hlt).2 (ulp_pos _)
    rw [← hv, hu] at hsmall
    norm_num at hsmall
    linarith

/-- The difference of two such values is a whole number of 2^-54 too, so that it is 0 or no less. -/
theorem zeroOrAtLeast_sub {x y : Binary64} (hx : 1 / 4 ≤ (f64Value x : ℝ)) (hxy : (f64Value x : ℝ) ≤ f64Value y) :
    ZeroOrAtLeast 54 ((f64Value y : ℝ) - f64Value x) := by
  obtain ⟨n, hn⟩ := exists_int_mul_of_quarter_le hx
  obtain ⟨m, hm⟩ := exists_int_mul_of_quarter_le (hx.trans hxy)
  rw [hn, hm] at hxy ⊢
  have hnm : n ≤ m := by exact_mod_cast le_of_mul_le_mul_right hxy (by positivity)
  rw [← sub_mul]
  rcases hnm.eq_or_lt with rfl | hlt
  · exact .inl (by rw [sub_self, zero_mul])
  · have hone : (n : ℝ) + 1 ≤ m := by exact_mod_cast hlt
    exact .inr (le_mul_of_one_le_left (by positivity) (by linarith))

/-! ### The argument over the reals -/

/-- The square of the rounded root of the rounded product of two rounded factors: five roundings in all, which together
stay below one part in 100. -/
theorem sq_between_of_close {a b p m d s : ℝ} (hb : 0 ≤ b) (hba : b ≤ a) (hp : Close p (a + b)) (hm : Close m (a - b))
    (hd : Close d (p * m)) (hs : Close s √d) :
    99 / 100 * ((a + b) * (a - b)) ≤ s ^ 2 ∧ s ^ 2 ≤ 101 / 100 * ((a + b) * (a - b)) := by
  obtain ⟨hp1, hp2⟩ := hp
  obtain ⟨hm1, hm2⟩ := hm
  obtain ⟨hd1, hd2⟩ := hd
  obtain ⟨hs1, hs2⟩ := hs
  have hsum : 0 ≤ a + b := by linarith
  have hdiff : 0 ≤ a - b := by linarith
  have hprod : 0 ≤ (a + b) * (a - b) := mul_nonneg hsum hdiff
  have hpm1 : 1023 / 1024 * (a + b) * (1023 / 1024 * (a - b)) ≤ p * m :=
    mul_le_mul hp1 hm1 (by positivity) (by linarith)
  have hpm2 : p * m ≤ 1025 / 1024 * (a + b) * (1025 / 1024 * (a - b)) :=
    mul_le_mul hp2 hm2 (by linarith) (by positivity)
  have hd0 : 0 ≤ d := by linarith
  have hsq := Real.sq_sqrt hd0
  have hs0 : 0 ≤ s := le_trans (by positivity) hs1
  have h1 : (1023 / 1024 * √d) ^ 2 ≤ s ^ 2 := pow_le_pow_left₀ (by positivity) hs1 2
  have h2 : s ^ 2 ≤ (1025 / 1024 * √d) ^ 2 := pow_le_pow_left₀ hs0 hs2 2
  rw [mul_pow, hsq] at h1 h2
  constructor <;> linarith

/-- A root of `(a + b) * (a - b)` as close as that is at least 1/64 and at most `b` below `a` (40_predict R137). -/
theorem sub_root_bounds {a b s : ℝ} (hb : 2 / 5 ≤ b) (hba : b ≤ a) (ha : a ≤ 5 / 2) (hs0 : 0 ≤ s)
    (h1 : 99 / 100 * ((a + b) * (a - b)) ≤ s ^ 2) (h2 : s ^ 2 ≤ 101 / 100 * ((a + b) * (a - b))) :
    1 / 64 ≤ a - s ∧ a - s ≤ b := by
  have hratio : (a - b) * (a - b) ≤ 99 / 100 * (a + b) * (a - b) :=
    mul_le_mul_of_nonneg_right (by linarith) (by linarith)
  have hlo : (a - b) ^ 2 ≤ s ^ 2 := by linarith
  have hb2 : (2 / 5) ^ 2 ≤ b ^ 2 := pow_le_pow_left₀ (by norm_num) hb 2
  have ha2 : a ^ 2 ≤ (5 / 2) ^ 2 := pow_le_pow_left₀ (by linarith) ha 2
  have hhi : s ^ 2 ≤ (a - 1 / 64) ^ 2 := by linarith
  have h3 := (pow_le_pow_iff_left₀ (by linarith) hs0 two_ne_zero).1 hlo
  have h4 := (pow_le_pow_iff_left₀ hs0 (by linarith) two_ne_zero).1 hhi
  constructor <;> linarith

/-! ### The derivation -/

section Derivation

variable {cz : Binary64} (h : f64AbsLeOne cz = true)

include h

/-- The excess is between that of a cosine of 1 and 5/2. -/
theorem excess_spec : f64IsFinite (excess cz) = true ∧ (f64Value leastExcess : ℝ) ≤ f64Value (excess cz) ∧
    (f64Value (excess cz) : ℝ) ≤ 5 / 2 := by
  obtain ⟨hfin, habs⟩ := finite_and_abs_le_of_f64AbsLeOne h
  obtain ⟨h1, h2⟩ := abs_le.1 habs
  obtain ⟨hb1, hb2⟩ := leastExcess_bounds
  have hnear := isNearest_sub (x := 0x3FF6A09E667F3BCD#64) (y := cz) (by decide) hfin
    (by rw [f64Value_sqrt2, abs_lt]; constructor <;> linarith)
  rw [f64Value_sqrt2] at hnear
  have hrep : Representable (5 / 2) := by
    have := representable_dyadic (t := 5) (e := -1) (by norm_num) (by norm_num) (by norm_num)
    norm_num at this
    exact this
  exact ⟨hnear.finite, hnear.ge (representable_f64Value finite_leastExcess) (by linarith), hnear.le hrep (by linarith)⟩

/-- `a (+) b` (40_predict R133). -/
theorem excess_add_spec : f64IsFinite (f64Add (excess cz) leastExcess) = true ∧
    Close (f64Value (f64Add (excess cz) leastExcess)) (f64Value (excess cz) + f64Value leastExcess) ∧
    ZeroOrAtLeast 1 (f64Value (f64Add (excess cz) leastExcess)) ∧
    (f64Value (f64Add (excess cz) leastExcess) : ℝ) ≤ 3 := by
  obtain ⟨hfin, hle, hge⟩ := excess_spec h
  obtain ⟨hb1, hb2⟩ := leastExcess_bounds
  have hexact : ZeroOrAtLeast 1 ((f64Value (excess cz) : ℝ) + f64Value leastExcess) :=
    .inr (by norm_num; linarith)
  have hnear := isNearest_add hfin finite_leastExcess (by rw [abs_of_nonneg hexact.nonneg]; linarith)
  have hthree : Representable 3 := by exact_mod_cast representable_int (n := 3) (by norm_num)
  exact ⟨hnear.finite, hnear.close (hexact.mono (by omega)) (by linarith), hnear.zeroOrAtLeast hexact (by omega),
    hnear.le hthree (by linarith)⟩

/-- `a (-) b` (40_predict R133). -/
theorem excess_sub_spec : f64IsFinite (f64Sub (excess cz) leastExcess) = true ∧
    Close (f64Value (f64Sub (excess cz) leastExcess)) (f64Value (excess cz) - f64Value leastExcess) ∧
    ZeroOrAtLeast 54 (f64Value (f64Sub (excess cz) leastExcess)) ∧
    (f64Value (f64Sub (excess cz) leastExcess) : ℝ) ≤ 3 := by
  obtain ⟨hfin, hle, hge⟩ := excess_spec h
  obtain ⟨hb1, hb2⟩ := leastExcess_bounds
  have hexact := zeroOrAtLeast_sub (by linarith) hle
  have hnear := isNearest_sub hfin finite_leastExcess (by rw [abs_of_nonneg hexact.nonneg]; linarith)
  have hthree : Representable 3 := by exact_mod_cast representable_int (n := 3) (by norm_num)
  exact ⟨hnear.finite, hnear.close (hexact.mono (by omega)) (by linarith), hnear.zeroOrAtLeast hexact (by omega),
    hnear.le hthree (by linarith)⟩

/-- `d` (40_predict R133). -/
theorem discriminant_spec : f64IsFinite (discriminant cz) = true ∧
    Close (f64Value (discriminant cz))
      (f64Value (f64Add (excess cz) leastExcess) * f64Value (f64Sub (excess cz) leastExcess)) ∧
    ZeroOrAtLeast 55 (f64Value (discriminant cz)) ∧ (f64Value (discriminant cz) : ℝ) ≤ 9 := by
  obtain ⟨hfinp, -, hp, hp3⟩ := excess_add_spec h
  obtain ⟨hfinm, -, hm, hm3⟩ := excess_sub_spec h
  have hexact := hp.mul hm
  have hle : (f64Value (f64Add (excess cz) leastExcess) : ℝ) * f64Value (f64Sub (excess cz) leastExcess) ≤ 3 * 3 :=
    mul_le_mul hp3 hm3 hm.nonneg (by norm_num)
  have hnear := isNearest_mul hfinp hfinm (by rw [abs_of_nonneg hexact.nonneg]; linarith)
  have hnine : Representable 9 := by exact_mod_cast representable_int (n := 9) (by norm_num)
  exact ⟨hnear.finite, hnear.close (hexact.mono (by omega)) (by linarith), hnear.zeroOrAtLeast hexact (by omega),
    hnear.le hnine (by linarith)⟩

/-- `d` is not negative (40_predict R136). -/
theorem discriminant_nonneg : 0 ≤ (f64Value (discriminant cz) : ℝ) := by
  obtain ⟨-, -, hd, -⟩ := discriminant_spec h
  exact hd.nonneg

/-- `sqrt64(d)` (40_predict R133). -/
theorem sqrt_discriminant_spec : f64IsFinite (f64Sqrt (discriminant cz)) = true ∧
    0 ≤ (f64Value (f64Sqrt (discriminant cz)) : ℝ) ∧
    Close (f64Value (f64Sqrt (discriminant cz))) √(f64Value (discriminant cz) : ℝ) := by
  obtain ⟨hfin, -, hd, hd9⟩ := discriminant_spec h
  have hnear := isNearest_sqrt hfin hd.nonneg
  have hlt : √(f64Value (discriminant cz) : ℝ) < 2 ^ 53 := by
    rw [Real.sqrt_lt' (by positivity)]
    exact hd9.trans_lt (by norm_num)
  exact ⟨hnear.finite, (hnear.zeroOrAtLeast hd.sqrt (by omega)).nonneg, hnear.close (hd.sqrt.mono (by omega)) hlt⟩

/-- `c` is in (0, 1], and far enough from 0 that its square is too (40_predict R137). -/
theorem poleOf_spec : f64IsFinite (poleOf cz (discriminant cz)) = true ∧
    1 / 64 ≤ (f64Value (poleOf cz (discriminant cz)) : ℝ) ∧ (f64Value (poleOf cz (discriminant cz)) : ℝ) ≤ 1 := by
  obtain ⟨hfina, hba, ha⟩ := excess_spec h
  obtain ⟨hb1, hb2⟩ := leastExcess_bounds
  obtain ⟨-, hp, -⟩ := excess_add_spec h
  obtain ⟨-, hm, -⟩ := excess_sub_spec h
  obtain ⟨-, hd, -⟩ := discriminant_spec h
  obtain ⟨hfins, hs0, hs⟩ := sqrt_discriminant_spec h
  obtain ⟨hsq1, hsq2⟩ := sq_between_of_close (by linarith) hba hp hm hd hs
  obtain ⟨hn1, hn2⟩ := sub_root_bounds hb1 hba ha hs0 hsq1 hsq2
  have hnum := isNearest_sub hfina hfins (by rw [abs_of_nonneg (by linarith)]; linarith)
  have h64 : Representable (1 / 64) := by convert representable_two_zpow_neg (j := 6) (by omega); norm_num
  have hlo := hnum.ge h64 hn1
  have hhi := hnum.le (representable_f64Value finite_leastExcess) hn2
  have hq1 := (le_div_iff₀ (by linarith : 0 < (f64Value leastExcess : ℝ))).2
    (by linarith : 1 / 64 * (f64Value leastExcess : ℝ) ≤ f64Value (f64Sub (excess cz) (f64Sqrt (discriminant cz))))
  have hq2 := div_le_one_of_le₀ hhi (by linarith)
  have hquot := isNearest_div hnum.finite finite_leastExcess rfl (by rw [abs_of_nonneg (by linarith)]; linarith)
  exact ⟨hquot.finite, hquot.ge h64 hq1, hquot.le representable_one hq2⟩

end Derivation

/-- Settles O25: with a cosine of at most 1, `a >= b`, and no rounding takes `d` below 0. -/
theorem guardNeverFires : Obligations.GuardNeverFires := by
  intro cz h
  rw [discriminant_eq]
  exact f64BelowZero_eq_false (discriminant_nonneg h)

/-! ### The table -/

theorem low63_pos {x : Binary64} (h : (f64Value x : ℝ) ≠ 0) : 0 < x.toNat % 2 ^ 63 := by
  by_contra h0
  have hle := (low63_le_iff x 0#64).1 (by omega)
  rw [f64Value_of_isZero (x := 0#64) rfl, abs_zero] at hle
  exact h (abs_nonpos_iff.1 hle)

/-- The pattern bounds of 40_predict R137 from those of the values. -/
theorem tableInRange_of_values {c0 c1 : Binary64} (h0 : 0 < (f64Value c0 : ℝ)) (h0' : (f64Value c0 : ℝ) ≤ 2)
    (h1 : (f64Value c1 : ℝ) < 0) (h1' : -1 ≤ (f64Value c1 : ℝ)) : TableInRange c0 c1 := by
  have hpos0 := low63_pos h0.ne'
  have hpos1 := low63_pos h1.ne
  have hle0 := (low63_le_iff c0 0x4000000000000000#64).2 (by rwa [f64Value_two, abs_two, abs_of_pos h0])
  have hle1 := (low63_le_iff c1 0xBFF0000000000000#64).2 (by rw [f64Value_negOne, abs_of_neg h1]; norm_num; linarith)
  have hs0 := f64Sign_of_pos h0
  have hs1 := f64Sign_of_neg h1
  rw [f64Sign_eq, decide_eq_false_iff_not] at hs0
  rw [f64Sign_eq, decide_eq_true_iff] at hs1
  have hlt1 := c1.isLt
  rw [BitVec.toNat_ofNat] at hle0 hle1
  unfold TableInRange
  simp only [BitVec.toNat_ofNat]
  omega

/-- The table of a pole in [1/64, 1]. -/
theorem tableInRange_of_pole {c : Binary64} (hfin : f64IsFinite c = true) (hlo : 1 / 64 ≤ (f64Value c : ℝ))
    (hhi : (f64Value c : ℝ) ≤ 1) : TableInRange (f64Mul 0x4000000000000000#64 c) (f64Neg (f64Mul c c)) := by
  have hdouble := isNearest_mul (x := 0x4000000000000000#64) rfl hfin
    (by rw [f64Value_two, abs_of_nonneg (by linarith)]; linarith)
  rw [f64Value_two] at hdouble
  have hsq1 : 2 ^ (-(12 : ℕ) : ℤ) ≤ (f64Value c : ℝ) * f64Value c := by norm_num; nlinarith
  have hsq2 : (f64Value c : ℝ) * f64Value c ≤ 1 := by nlinarith
  have hsquare := isNearest_mul hfin hfin (by rw [abs_of_nonneg (mul_self_nonneg _)]; linarith)
  have hlow := hsquare.ge (representable_two_zpow_neg (j := 12) (by omega)) hsq1
  have hhigh := hsquare.le representable_one hsq2
  have h32 := hdouble.ge (representable_two_zpow_neg (j := 5) (by omega)) (by norm_num; linarith)
  have htwo := hdouble.le (v := 2) (by exact_mod_cast representable_int (n := 2) (by norm_num)) (by linarith)
  refine tableInRange_of_values (lt_of_lt_of_le (by positivity) h32) htwo ?_ ?_
  · rw [f64Value_neg, Rat.cast_neg]
    exact neg_neg_of_pos (lt_of_lt_of_le (by positivity) hlow)
  · rw [f64Value_neg, Rat.cast_neg]
    exact neg_le_neg hhigh

/-- Settles O26: every cosine gives a pole in [1/64, 1], and the guard does not change that. -/
theorem derivedTableIsInRange : Obligations.DerivedTableIsInRange := by
  intro pi64 rate hp _
  have hcos := f64AbsLeOne_cos64 (coefAngle pi64 rate.toNat hp.toNat)
  rw [coefDerive]
  generalize cos64 (coefAngle pi64 rate.toNat hp.toNat) = cz at hcos ⊢
  obtain ⟨hfin, hlo, hhi⟩ := poleOf_spec hcos
  have hguard : poleOf cz (discriminant cz) =
      poleOf cz (if f64BelowZero (discriminant cz) = true then 0#64 else discriminant cz) := by
    rw [f64BelowZero_eq_false (discriminant_nonneg hcos), if_neg Bool.false_ne_true]
  rw [coefFromCos_of_pole hguard]
  exact tableInRange_of_pole hfin hlo hhi

end Sys2Proof.Machine
end

section
/-! PROOFS. The block decoder (41_decode R161 to R173): DECBLK by the outcome of its checks, what `decodeFrame_spec` says of a
channel written out with the spec's numbers, and that two states alike in what a channel's decode reads give it the same
samples. -/

namespace Sys2Proof.Machine

/-! ### The samples owed -/

theorem decodeCount_eq {s : State} (h : ParamsLegal s) :
    decodeCount s = min ((s.blockSize.toNat - 2) * 2) (s.totalSamples.toNat - s.samplesDone.toNat) := by
  rw [decodeCount, spb_eq h]

theorem decodeCount_eq_zero_iff {s : State} (h : ParamsLegal s) :
    decodeCount s = 0 ↔ s.totalSamples.toNat ≤ s.samplesDone.toNat := by
  obtain ⟨hspb, -, -⟩ := spb_bounds h
  unfold decodeCount
  omega

/-! ### DECBLK by the outcome of its checks -/

section Checks

variable {s : State} (he : s.err = false)
include he

theorem exec_decblk_of_illegal_params (hp : ¬ParamsLegal s) :
    exec .decblk s = .next (faulted 4#4 0x00000020#32 s) := by
  show execDecblk s = _
  rw [execDecblk, unlessFaulted_clear _ he, check_fail _ _ _ _ hp]
  exact faulted_eq .badParam _ he

variable (hp : ParamsLegal s)
include hp

theorem exec_decblk_of_invalid_table (hv : s.coefValid = false) :
    exec .decblk s = .next (faulted 5#4 0x00000020#32 s) := by
  show execDecblk s = _
  rw [execDecblk, unlessFaulted_clear _ he, check_pass _ _ _ _ hp, check_fail _ _ _ _ (ne_true_of_eq_false hv)]
  exact faulted_eq .notConfigured _ he

variable (hv : s.coefValid = true)
include hv

/-- Past its two checks of registers, DECBLK looks at the samples owed and then at the length (41_decode R161). -/
theorem exec_decblk_of_configured :
    exec .decblk s =
      if decodeCount s = 0 then .next (setDout 0#32 { s with nout := 0#16 })
      else check (blockBytes s ≤ s.blkLen.toNat) .truncated (commandOf .decblk) s
        (.next (setDout 0#32 (decodeBlock (decodeCount s) s))) := by
  show execDecblk s = _
  rw [execDecblk, unlessFaulted_clear _ he, check_pass _ _ _ _ hp, check_pass _ _ _ _ hv, complete_eq, complete_eq]

theorem exec_decblk_of_none_owed (h0 : decodeCount s = 0) :
    exec .decblk s = .next (setDout 0#32 { s with nout := 0#16 }) :=
  (exec_decblk_of_configured he hp hv).trans (if_pos h0)

theorem exec_decblk_of_short_block (h0 : decodeCount s ≠ 0) (hb : s.blkLen.toNat < blockBytes s) :
    exec .decblk s = .next (faulted 6#4 0x00000020#32 s) := by
  rw [exec_decblk_of_configured he hp hv, if_neg h0, check_fail _ _ _ _ (Nat.not_le.2 hb)]
  exact faulted_eq .truncated _ he

theorem exec_decblk_of_block (h0 : decodeCount s ≠ 0) (hb : blockBytes s ≤ s.blkLen.toNat) :
    exec .decblk s = .next (setDout 0#32 (decodeBlock (decodeCount s) s)) := by
  rw [exec_decblk_of_configured he hp hv, if_neg h0, check_pass _ _ _ _ hb]

end Checks

/-- Settles O39: the three faults are the failures of the three checks, in their order; samples are owed, so the length is
tested. -/
theorem decblkFaultsInOrder : Obligations.DecblkFaultsInOrder := by
  refine fun s => ⟨fun he => unlessFaulted_faulted _ he, exec_decblk_of_illegal_params,
    exec_decblk_of_invalid_table, fun he hp hv howed hb => ?_⟩
  exact exec_decblk_of_short_block he hp hv (mt (decodeCount_eq_zero_iff hp).1 (Nat.not_le.2 howed)) hb

/-- Settles O40: past the end no samples are owed. -/
theorem decblkPastTheEnd : Obligations.DecblkPastTheEnd :=
  fun _ he hend =>
    ⟨fun hp hv => exec_decblk_of_none_owed he hp hv ((decodeCount_eq_zero_iff hp).2 hend),
      exec_decblk_of_illegal_params he, exec_decblk_of_invalid_table he⟩

/-! ### The state after a block -/

@[simp] theorem prediction_decodeBlock (n : Nat) (s : State) (ch : Channel) :
    prediction (decodeBlock n s) ch = prediction (decodeFrame n s) ch := by cases ch <;> rfl

@[simp] theorem prediction_setDout (v : Word) (s : State) (ch : Channel) :
    prediction (setDout v s) ch = prediction s ch := by cases ch <;> rfl

/-- A completed DECBLK changes `PCM`, the prediction state and the three counters only. -/
theorem setDout_decodeBlock_eq {s : State} (h : ParamsLegal s) (n : Nat) :
    setDout 0#32 (decodeBlock n s) =
      { s with
        pcm := (decodeFrame n s).pcm, pred0 := (decodeFrame n s).pred0, pred1 := (decodeFrame n s).pred1
        nout := BitVec.ofNat 16 n, samplesDone := BitVec.ofNat 32 (s.samplesDone.toNat + n)
        blocksDone := s.blocksDone + 1#32, dout := 0#32 } := by
  have hone : BitVec.ofNat 32 (s.blocksDone.toNat + 1) = s.blocksDone + 1#32 := rfl
  rw [decodeBlock, hone, decodeFrame_frame n h]
  rfl

theorem decodeCount_le {s : State} (h : ParamsLegal s) : decodeCount s ≤ 506 :=
  (Nat.min_le_left _ _).trans (spb_bounds h).2.1

/-! ### A channel in the spec's own expressions -/

theorem toNat_readBlk16 (s : State) (a : Nat) :
    (readBlk16 s a).toNat = (readBlk s a).toNat * 256 + (readBlk s (a + 1)).toNat := by
  rw [readBlk16, BitVec.toNat_ofNat]
  omega

theorem toNat_nibble (s : State) (d j : Nat) :
    (nibble s d j).toNat =
      if j % 2 = 0 then (readBlk s (d + j / 2)).toNat / 16 else (readBlk s (d + j / 2)).toNat % 16 := by
  unfold nibble
  split
  · rw [BitVec.extractLsb'_toNat, Nat.shiftRight_eq_div_pow]
    omega
  · rw [BitVec.extractLsb'_toNat, Nat.shiftRight_zero]

/-- What `decodeFrame_spec` says of an active channel is what `DecodesChannel` writes out. -/
theorem decodesChannel_decodeFrame {s t : State} {n : Nat} (h : ParamsLegal s) {ch : Channel}
    (hc : ch ∈ activeChannels s) (ht : ∀ a, readPcm t a = readPcm (decodeFrame n s) a) :
    DecodesChannel s t (channelIndex ch) n (prediction s ch) (prediction (decodeFrame n s) ch) := by
  obtain ⟨hspec, -⟩ := decodeFrame_spec n h
  obtain ⟨hstate, hsample⟩ := hspec ch hc
  simp only [← ht] at hstate hsample
  refine ⟨hstate, fun j hj => ⟨_, _, _, _, rfl, rfl, rfl, rfl, ?_⟩⟩
  change (readPcm t (pcmIndex s ch j)).toInt = _
  rw [hsample j hj, decodedAt, toInt_ofInt_clamp16, sext4, toNat_nibble, toNat_readBlk16]
  rfl

/-- Channel 0 is active whatever `CHANNELS` is (41_decode R173). -/
theorem ch0_mem_activeChannels (s : State) : Channel.ch0 ∈ activeChannels s := by
  unfold activeChannels
  split <;> simp

/-- Settles O41: `decodeFrame_spec` gives the channels and the rest of `PCM`; the counters do not wrap. -/
theorem decblkDecodesTheBlock : Obligations.DecblkDecodesTheBlock := by
  intro s n he hp hv hn hpos hb
  obtain rfl : n = decodeCount s := hn.trans (decodeCount_eq hp).symm
  obtain ⟨-, hidle, hrest, -⟩ := decodeFrame_spec (decodeCount s) hp
  have hcount := decodeCount_le hp
  have hframe := setDout_decodeBlock_eq hp (decodeCount s)
  refine ⟨_, exec_decblk_of_block he hp hv hpos.ne' hb, hframe, ?_, ?_, ?_, fun h2 => ?_, fun h1 => ?_, hrest⟩
  · exact Nat.mod_eq_of_lt (samplesDone_add_decodeCount_lt s)
  · exact Nat.mod_eq_of_lt (by omega)
  · exact decodesChannel_decodeFrame hp (ch0_mem_activeChannels s) fun _ => rfl
  · exact decodesChannel_decodeFrame hp (ch := .ch1) (by simp [activeChannels_two h2]) fun _ => rfl
  · exact hidle .ch1 (by simp [activeChannels_one h1])

/-! ### The channels are independent -/

/-- Two states are alike in all that DECBLK reads for one channel: the parameters, the table, the counters, the channel's
prediction state and its segment. -/
structure SameChannelInput (ch : Channel) (s s' : State) : Prop where
  blockSize : s.blockSize = s'.blockSize
  bitdepth : s.bitdepth = s'.bitdepth
  channels : s.channels = s'.channels
  coef0 : s.coef0 = s'.coef0
  coef1 : s.coef1 = s'.coef1
  totalSamples : s.totalSamples = s'.totalSamples
  samplesDone : s.samplesDone = s'.samplesDone
  blkLen : s.blkLen = s'.blkLen
  prediction : prediction s ch = prediction s' ch
  segment : SameSegment ch s s'

namespace SameChannelInput

variable {ch : Channel} {s s' : State} (h : SameChannelInput ch s s')
include h

theorem paramsLegal (hp : ParamsLegal s) : ParamsLegal s' := by
  unfold ParamsLegal
  rwa [← h.blockSize, ← h.bitdepth, ← h.channels]

theorem decodeCount_eq : decodeCount s = decodeCount s' := by
  unfold decodeCount spb
  rw [h.blockSize, h.bitdepth, h.totalSamples, h.samplesDone]

theorem blockBytes_eq : blockBytes s = blockBytes s' := by
  unfold blockBytes
  rw [h.blockSize, h.channels]

theorem pcmIndex_eq (ch' : Channel) (j : Nat) : pcmIndex s ch' j = pcmIndex s' ch' j := by
  unfold pcmIndex
  rw [h.channels]

theorem segmentBase_eq : segmentBase s ch = segmentBase s' ch := by
  unfold segmentBase
  rw [h.blockSize]

variable (hp : ParamsLegal s)
include hp

/-- The scale field is in the segment. -/
theorem scale_eq : readBlk16 s (segmentBase s ch) = readBlk16 s' (segmentBase s' ch) := by
  obtain ⟨hbs, -⟩ := hp
  unfold readBlk16
  rw [← h.segmentBase_eq, h.segment _ le_rfl (by omega), h.segment (segmentBase s ch + 1) (by omega) (by omega)]

/-- The nibbles of the block are in the segment. -/
theorem nibble_eq {j : Nat} (hj : j < spb s) :
    nibble s (segmentBase s ch + 2) j = nibble s' (segmentBase s' ch + 2) j := by
  rw [spb_eq hp] at hj
  unfold nibble
  rw [← h.segmentBase_eq, h.segment (segmentBase s ch + 2 + j / 2) (by omega) (by omega)]

theorem decodedAt_eq (scale : Half) (x : Nat → Half) {j : Nat} (hj : j < spb s) :
    decodedAt s ch scale x j = decodedAt s' ch scale x j := by
  unfold decodedAt
  rw [h.nibble_eq hp hj, h.coef0, h.coef1, h.prediction]

end SameChannelInput

/-- The recurrence of 41_decode R167 has one solution: each sample is fixed by those before it. -/
theorem decodedAt_unique {s : State} {ch : Channel} {scale : Half} {x y : Nat → Half} {n : Nat}
    (hx : ∀ j, j < n → x j = decodedAt s ch scale x j) (hy : ∀ j, j < n → y j = decodedAt s ch scale y j) :
    ∀ j, j < n → x j = y j := by
  intro j
  induction j using Nat.strong_induction_on with
  | _ j ih =>
    intro hj
    have hhist : history (prediction s ch) x j = history (prediction s ch) y j :=
      history_congr _ fun k hk => ih k hk (hk.trans hj)
    rw [hx j hj, hy j hj, decodedAt, decodedAt, hhist]

/-- The frames two such states decode are alike in the channel. -/
theorem decodeFrame_congr {ch : Channel} {s s' : State} (h : SameChannelInput ch s s') (hp : ParamsLegal s)
    (hc : channelIndex ch < s.channels.toNat) {n : Nat} (hn : n ≤ spb s) :
    prediction (decodeFrame n s) ch = prediction (decodeFrame n s') ch ∧
      ∀ j, j < n →
        readPcm (decodeFrame n s) (pcmIndex s ch j) = readPcm (decodeFrame n s') (pcmIndex s ch j) := by
  have hp' := h.paramsLegal hp
  obtain ⟨hspec, -⟩ := decodeFrame_spec n hp
  obtain ⟨hspec', -⟩ := decodeFrame_spec n hp'
  obtain ⟨hstate, hx⟩ := hspec ch ((mem_activeChannels hp ch).2 hc)
  obtain ⟨hstate', hy⟩ := hspec' ch ((mem_activeChannels hp' ch).2 (h.channels ▸ hc))
  simp only [← h.pcmIndex_eq, ← h.scale_eq hp, ← h.prediction] at hstate' hy
  have hsame := decodedAt_unique hx fun j hj =>
    (hy j hj).trans (h.decodedAt_eq hp _ _ (hj.trans_le hn)).symm
  exact ⟨by rw [hstate, hstate', history_congr _ hsame], hsame⟩

/-- Settles O42: the second state passes the same checks, and its frame agrees in the channel. -/
theorem decodedChannelsAreIndependent : Obligations.DecodedChannelsAreIndependent := by
  intro s s' t t' ch hp he he' _ hv' hbs hbd hch hc0 hc1 htot hdone hlen hc hpred hseg ht ht' hterr
  have h : SameChannelInput ch s s' := ⟨hbs, hbd, hch, hc0, hc1, htot, hdone, hlen, hpred, hseg⟩
  have hp' := h.paramsLegal hp
  rcases exec_cases ht with ⟨hfault, -⟩ | ⟨-, c, rfl⟩ | ⟨-, -, -, ⟨h0, rfl⟩ | ⟨h0, hb, rfl⟩⟩
  · cases he.symm.trans hfault
  · cases hterr
  · cases (exec_decblk_of_none_owed he' hp' hv' (h.decodeCount_eq ▸ h0)).symm.trans ht'
    exact ⟨he', by cases ch <;> exact hpred, fun j hj => absurd hj (Nat.not_lt_zero j)⟩
  · rw [h.blockBytes_eq, hlen] at hb
    cases (exec_decblk_of_block he' hp' hv' (h.decodeCount_eq ▸ h0) hb).symm.trans ht'
    rw [← h.decodeCount_eq]
    obtain ⟨hstate, hsamples⟩ := decodeFrame_congr h hp hc (n := decodeCount s) (Nat.min_le_left _ _)
    refine ⟨?_, by simpa using hstate, fun j hj => hsamples j (hj.trans_le (toNat_ofNat16_le le_rfl))⟩
    rw [setDout_decodeBlock_eq hp']
    exact he'

end Sys2Proof.Machine
end

section
/-! PROOFS. The arithmetic of the encoder (42_encode R196 to R207): the scale of a list of residuals, the three quantiser
modes, the nibble codes, and what the ceiling scale and `half_away` give together. -/

namespace Sys2Proof.Machine

/-! ### The extremes -/

/-- `max_positive` is the largest of the residuals and 0. -/
theorem maxPositive_spec (res : List Int) : maxPositive res ∈ 0 :: res ∧ ∀ r ∈ 0 :: res, r ≤ maxPositive res :=
  List.max?_eq_some_iff.1 List.max?_cons'

/-- `min_negative` is the least of the residuals and 0. -/
theorem minNegative_spec (res : List Int) : minNegative res ∈ 0 :: res ∧ ∀ r ∈ 0 :: res, minNegative res ≤ r :=
  List.min?_eq_some_iff.1 List.min?_cons'

theorem maxPositive_nonneg (res : List Int) : 0 ≤ maxPositive res := (maxPositive_spec res).2 0 List.mem_cons_self

theorem minNegative_nonpos (res : List Int) : minNegative res ≤ 0 := (minNegative_spec res).2 0 List.mem_cons_self

theorem maxPositive_le_iff {res : List Int} {b : Int} (hb : 0 ≤ b) : maxPositive res ≤ b ↔ ∀ r ∈ res, r ≤ b := by
  obtain ⟨hmem, hle⟩ := maxPositive_spec res
  refine ⟨fun h r hr => (hle r (List.mem_cons_of_mem _ hr)).trans h, fun h => ?_⟩
  rcases List.mem_cons.1 hmem with h0 | hr
  · rw [h0]
    exact hb
  · exact h _ hr

theorem neg_minNegative_le_iff {res : List Int} {b : Int} (hb : 0 ≤ b) :
    -minNegative res ≤ b ↔ ∀ r ∈ res, -r ≤ b := by
  obtain ⟨hmem, hle⟩ := minNegative_spec res
  refine ⟨fun h r hr => (neg_le_neg (hle r (List.mem_cons_of_mem _ hr))).trans h, fun h => ?_⟩
  rcases List.mem_cons.1 hmem with h0 | hr
  · rw [h0, neg_zero]
    exact hb
  · exact h _ hr

/-! ### The scale -/

theorem scaleOf_eq (d : ScaleDiv) (res : List Int) :
    scaleOf d res =
      max 1 (max (scaleDiv d (maxPositive res).toNat 7) (scaleDiv d (-minNegative res).toNat 8)) := by
  unfold scaleOf
  dsimp only
  split <;> omega

theorem one_le_scaleOf (d : ScaleDiv) (res : List Int) : 1 ≤ scaleOf d res := by
  rw [scaleOf_eq]
  exact le_max_left _ _

theorem scaleDiv_ceil_le_iff {m k b : Nat} (hk : 0 < k) : scaleDiv .ceil m k ≤ b ↔ m ≤ k * b := by
  rw [scaleDiv, Nat.div_le_iff_le_mul_add_pred hk]
  omega

theorem scaleDiv_le_ceil (d : ScaleDiv) (m : Nat) {k : Nat} (hk : 0 < k) : scaleDiv d m k ≤ scaleDiv .ceil m k := by
  cases d with
  | ceil => exact le_rfl
  | floor => exact Nat.div_le_div_right (by omega)

/-- The ceiling scale is at most `sc` exactly when `sc` covers every residual. -/
theorem scaleOf_ceil_le_iff (res : List Int) {sc : Nat} (h : 1 ≤ sc) :
    scaleOf .ceil res ≤ sc ↔ ∀ r ∈ res, r ≤ 7 * (sc : Int) ∧ -r ≤ 8 * (sc : Int) := by
  rw [scaleOf_eq, max_le_iff, max_le_iff, scaleDiv_ceil_le_iff (by norm_num), scaleDiv_ceil_le_iff (by norm_num),
    Int.toNat_le, Int.toNat_le, maxPositive_le_iff (by positivity), neg_minNegative_le_iff (by positivity)]
  push_cast
  exact ⟨fun ⟨_, hpos, hneg⟩ r hr => ⟨hpos r hr, hneg r hr⟩,
    fun hcover => ⟨h, fun r hr => (hcover r hr).1, fun r hr => (hcover r hr).2⟩⟩

theorem scaleOf_ceil_covers {res : List Int} {r : Int} (hr : r ∈ res) :
    r ≤ 7 * (scaleOf .ceil res : Int) ∧ -r ≤ 8 * (scaleOf .ceil res : Int) :=
  (scaleOf_ceil_le_iff res (one_le_scaleOf _ _)).1 le_rfl r hr

theorem scaleOf_le_ceil (d : ScaleDiv) (res : List Int) : scaleOf d res ≤ scaleOf .ceil res := by
  rw [scaleOf_eq, scaleOf_eq]
  exact max_le_max le_rfl (max_le_max (scaleDiv_le_ceil d _ (by norm_num)) (scaleDiv_le_ceil d _ (by norm_num)))

/-- Settles O45: both halves are `scaleOf_ceil_le_iff`, at the scale itself and at any other cover. -/
theorem ceilingScaleIsTheLeastCover : Obligations.CeilingScaleIsTheLeastCover :=
  fun res => ⟨⟨one_le_scaleOf _ _, fun _ hr => scaleOf_ceil_covers hr⟩,
    fun _ h1 hcover => (scaleOf_ceil_le_iff res h1).2 hcover⟩

/-- Settles O46: 18725 covers the residuals, and the floor's scale is at most the ceiling's. -/
theorem scaleIsBounded : Obligations.ScaleIsBounded := by
  refine fun d res => ⟨one_le_scaleOf d res, fun hres => (scaleOf_le_ceil d res).trans ?_⟩
  refine (scaleOf_ceil_le_iff res (by norm_num)).2 fun r hr => ?_
  obtain ⟨hlo, hhi⟩ := hres r hr
  constructor <;> push_cast <;> omega

/-! ### The quantiser -/

/-- The two modes with a sign and a magnitude are odd. -/
theorem roundQuant_neg {mode : RModeQuant} (hm : mode ≠ .halfUp) (r : Int) (scale : Nat) :
    roundQuant mode (-r) scale = -roundQuant mode r scale := by
  cases mode with
  | halfUp => exact absurd rfl hm
  | halfAway => simp only [roundQuant, Int.sign_neg, Int.natAbs_neg, neg_mul]
  | trunc => simp only [roundQuant, Int.sign_neg, Int.natAbs_neg, neg_mul]

theorem roundQuant_trunc_of_nonneg {r : Int} (h : 0 ≤ r) (scale : Nat) : roundQuant .trunc r scale = r / scale := by
  lift r to Nat using h
  rcases r.eq_zero_or_pos with rfl | hr
  · simp [roundQuant]
  · simp [roundQuant, Int.sign_natCast_of_ne_zero hr.ne']

section Positive

variable {scale : Nat} (hs : 0 < scale)
include hs

/-- Away from zero is upward for a residual that is not negative. -/
theorem roundQuant_halfAway_of_nonneg {r : Int} (h : 0 ≤ r) :
    roundQuant .halfAway r scale = roundQuant .halfUp r scale := by
  lift r to Nat using h
  have hup : roundQuant .halfUp r scale = ((2 * r + scale) / (2 * scale) : Nat) := by
    rw [roundQuant]
    push_cast
    rfl
  rcases r.eq_zero_or_pos with rfl | hr
  · rw [hup, Nat.div_eq_of_lt (by omega)]
    simp [roundQuant]
  · rw [hup, roundQuant, Int.sign_natCast_of_ne_zero hr.ne', one_mul, Int.natAbs_natCast]

/-- `half_up` is the nearest integer, a tie going up. -/
theorem roundQuant_halfUp_spec (r : Int) :
    2 * (roundQuant .halfUp r scale * scale) ≤ 2 * r + scale ∧
      2 * r < 2 * (roundQuant .halfUp r scale * scale) + scale := by
  have hd : (0 : Int) < 2 * scale := by omega
  have hlo := Int.ediv_mul_le (2 * r + scale) hd.ne'
  have hhi := Int.lt_ediv_add_one_mul_self (2 * r + scale) hd
  rw [roundQuant]
  constructor <;> linarith

theorem roundQuant_halfAway_spec_of_nonneg {r : Int} (h : 0 ≤ r) :
    2 * |r - roundQuant .halfAway r scale * scale| ≤ scale ∧
      (2 * |r - roundQuant .halfAway r scale * scale| = scale → |r| < |roundQuant .halfAway r scale * scale|) := by
  obtain ⟨hlo, hhi⟩ := roundQuant_halfUp_spec hs r
  rw [roundQuant_halfAway_of_nonneg hs h, abs_of_nonneg h]
  generalize roundQuant .halfUp r scale * scale = p at *
  rcases abs_choice (r - p) with hc | hc <;> rw [hc] <;>
    exact ⟨by linarith, fun htie => lt_of_lt_of_le (by linarith) (le_abs_self p)⟩

/-- `half_away` is a nearest integer, on a tie the one of larger magnitude. -/
theorem roundQuant_halfAway_spec (r : Int) :
    2 * |r - roundQuant .halfAway r scale * scale| ≤ scale ∧
      (2 * |r - roundQuant .halfAway r scale * scale| = scale → |r| < |roundQuant .halfAway r scale * scale|) := by
  rcases le_total 0 r with h | h
  · exact roundQuant_halfAway_spec_of_nonneg hs h
  · have hneg := roundQuant_halfAway_spec_of_nonneg hs (neg_nonneg.2 h)
    rwa [roundQuant_neg (by decide), neg_mul, neg_sub_neg, abs_sub_comm, abs_neg, abs_neg] at hneg

theorem roundQuant_trunc_spec_of_nonneg {r : Int} (h : 0 ≤ r) :
    |roundQuant .trunc r scale * scale| ≤ |r| ∧ |r - roundQuant .trunc r scale * scale| < scale ∧
      0 ≤ r * roundQuant .trunc r scale := by
  have hd : (0 : Int) < scale := by omega
  have hlo := Int.ediv_mul_le r hd.ne'
  have hhi := Int.lt_ediv_add_one_mul_self r hd
  have hq : 0 ≤ r / (scale : Int) := Int.ediv_nonneg h hd.le
  rw [roundQuant_trunc_of_nonneg h, abs_of_nonneg h, abs_of_nonneg (mul_nonneg hq hd.le), abs_of_nonneg (by linarith)]
  exact ⟨hlo, by linarith, mul_nonneg h hq⟩

/-- `trunc` is toward zero, by less than 1. -/
theorem roundQuant_trunc_spec (r : Int) :
    |roundQuant .trunc r scale * scale| ≤ |r| ∧ |r - roundQuant .trunc r scale * scale| < scale ∧
      0 ≤ r * roundQuant .trunc r scale := by
  rcases le_total 0 r with h | h
  · exact roundQuant_trunc_spec_of_nonneg hs h
  · have hneg := roundQuant_trunc_spec_of_nonneg hs (neg_nonneg.2 h)
    rwa [roundQuant_neg (by decide), neg_mul, neg_sub_neg, abs_sub_comm, abs_neg, abs_neg, neg_mul_neg] at hneg

theorem roundQuant_halfUp_mul (q : Int) : roundQuant .halfUp (q * scale) scale = q := by
  have hd : (2 * (scale : Int)) ≠ 0 := by omega
  rw [roundQuant, show 2 * (q * (scale : Int)) + scale = scale + q * (2 * scale) by ring,
    Int.add_mul_ediv_right _ _ hd, Int.ediv_eq_zero_of_lt (by omega) (by omega), zero_add]

theorem roundQuant_mul_of_nonneg (mode : RModeQuant) {q : Int} (h : 0 ≤ q) : roundQuant mode (q * scale) scale = q := by
  have hr : 0 ≤ q * (scale : Int) := by positivity
  cases mode with
  | halfUp => exact roundQuant_halfUp_mul hs q
  | halfAway => rw [roundQuant_halfAway_of_nonneg hs hr, roundQuant_halfUp_mul hs]
  | trunc => rw [roundQuant_trunc_of_nonneg hr, Int.mul_ediv_cancel _ (by omega)]

/-- Every mode is exact on a multiple of the scale. -/
theorem roundQuant_mul (mode : RModeQuant) (q : Int) : roundQuant mode (q * scale) scale = q := by
  by_cases hm : mode = .halfUp
  · rw [hm, roundQuant_halfUp_mul hs]
  rcases le_total 0 q with h | h
  · exact roundQuant_mul_of_nonneg hs mode h
  · have hneg := roundQuant_mul_of_nonneg hs mode (neg_nonneg.2 h)
    rwa [neg_mul, roundQuant_neg hm, neg_inj] at hneg

end Positive

/-- Settles O47: the three modes one by one, and `roundQuant_mul`. -/
theorem quantiserRoundsAsNamed : Obligations.QuantiserRoundsAsNamed := by
  refine fun r scale hs => ⟨roundQuant_halfAway_spec hs r, roundQuant_halfUp_spec hs r, roundQuant_trunc_spec hs r, ?_⟩
  rintro mode q rfl
  exact roundQuant_mul hs mode q

/-! ### The nibble codes -/

theorem sext4_enc4 {q : Int} (hlo : -8 ≤ q) (hhi : q ≤ 7) : sext4 (enc4 q) = q := by
  interval_cases q <;> rfl

/-- Settles O49: the codes and the values are finitely many. -/
theorem nibbleCodeTable : Obligations.NibbleCodeTable :=
  ⟨by decide, fun _ hlo hhi => sext4_enc4 hlo hhi, rfl⟩

theorem clampInt_of_mem {v lo hi : Int} (h1 : lo ≤ v) (h2 : v ≤ hi) : clampInt v lo hi = v := by
  rw [clampInt, if_neg (not_lt.2 h1), if_neg (not_lt.2 h2)]

/-- A code is the spec's `nibbleCode` (42_encode R204, R205). -/
theorem toNat_enc4_quantise (mode : RModeQuant) (r : Int) (scale : Nat) :
    (enc4 (quantise mode r scale)).toNat = nibbleCode mode r scale := by
  have hclamp : quantise mode r scale = max (-8) (min 7 (roundQuant mode r scale)) := by
    unfold quantise clampInt
    split
    · omega
    · split <;> omega
  rw [enc4, BitVec.toNat_ofInt, hclamp]
  rfl

/-! ### The ceiling scale against the codes -/

/-- Where the ceiling scale covers the residual, the clamp of `half_away` does nothing. -/
theorem quantise_halfAway_of_covered {r : Int} {scale : Nat} (hs : 0 < scale) (hpos : r ≤ 7 * (scale : Int))
    (hneg : -r ≤ 8 * (scale : Int)) : quantise .halfAway r scale = roundQuant .halfAway r scale := by
  obtain ⟨hnear, -⟩ := roundQuant_halfAway_spec hs r
  have hlo := neg_abs_le (r - roundQuant .halfAway r scale * scale)
  have hhi := le_abs_self (r - roundQuant .halfAway r scale * scale)
  have hs' : (0 : Int) < scale := by omega
  have hup : roundQuant .halfAway r scale * scale < 8 * scale := by omega
  have hdown : -9 * (scale : Int) < roundQuant .halfAway r scale * scale := by omega
  have hlt := lt_of_mul_lt_mul_right hup hs'.le
  have hgt := lt_of_mul_lt_mul_right hdown hs'.le
  exact clampInt_of_mem (by omega) (by omega)

/-- Settles O48: the scale covers the residual, so the quantiser is `half_away` itself. -/
theorem quantisationErrorIsHalfScale : Obligations.QuantisationErrorIsHalfScale := by
  intro res r hr
  obtain ⟨hpos, hneg⟩ := scaleOf_ceil_covers hr
  have hs : 0 < scaleOf .ceil res := one_le_scaleOf _ _
  rw [quantise_halfAway_of_covered hs hpos hneg]
  exact (roundQuant_halfAway_spec hs r).1

/-- A code times the ceiling scale is the residual again when the scale divides it, whatever the mode (42_encode R207). -/
theorem sext4_enc4_quantise_mul {mode : RModeQuant} {r : Int} {scale : Nat} (hs : 0 < scale)
    (hpos : r ≤ 7 * (scale : Int)) (hneg : -r ≤ 8 * (scale : Int)) (hdvd : (scale : Int) ∣ r) :
    sext4 (enc4 (quantise mode r scale)) * scale = r := by
  obtain ⟨q, rfl⟩ := exists_eq_mul_left_of_dvd hdvd
  have hs' : (0 : Int) < scale := by omega
  have hhi : q ≤ 7 := le_of_mul_le_mul_right hpos hs'
  have hlo : -q ≤ 8 := le_of_mul_le_mul_right (by rwa [neg_mul]) hs'
  rw [quantise, roundQuant_mul hs, clampInt_of_mem (by omega) hhi, sext4_enc4 (by omega) hhi]

end Sys2Proof.Machine
end

section
/-! PROOFS. The block encoder (42_encode R191 to R211): ENCBLK by the outcome of its checks, what `encodeFrame_spec` says of
a channel written out with the spec's numbers, that two states alike in what a channel's encode reads give it the same
segment, and that DECBLK undoes ENCBLK where the scale divides every residual. -/

namespace Sys2Proof.Machine

/-! ### ENCBLK by the outcome of its checks -/

section Checks

variable {s : State} {n : Half} (he : s.err = false)
include he

theorem exec_encblk_of_illegal_params (hp : ¬ParamsLegal s) :
    exec (.encblk n) s = .next (faulted 4#4 (commandOf (.encblk n)) s) := by
  show execEncblk n s = _
  rw [execEncblk, unlessFaulted_clear _ he, check_fail _ _ _ _ hp]
  exact faulted_eq .badParam _ he

variable (hp : ParamsLegal s)
include hp

theorem exec_encblk_of_invalid_table (hv : s.coefValid = false) :
    exec (.encblk n) s = .next (faulted 5#4 (commandOf (.encblk n)) s) := by
  show execEncblk n s = _
  rw [execEncblk, unlessFaulted_clear _ he, check_pass _ _ _ _ hp, check_fail _ _ _ _ (ne_true_of_eq_false hv)]
  exact faulted_eq .notConfigured _ he

variable (hv : s.coefValid = true)
include hv

/-- Past its two checks of registers, ENCBLK looks at the length and then at the count (42_encode R191). -/
theorem exec_encblk_of_configured :
    exec (.encblk n) s =
      check (1 ≤ n.toNat ∧ n.toNat ≤ spb s) .badLength (commandOf (.encblk n)) s
        (check (s.samplesDone.toNat + n.toNat ≤ 2 ^ 32 - 1) .range (commandOf (.encblk n)) s
          (.next (setDout 0#32 (encodeBlock n.toNat s)))) := by
  show execEncblk n s = _
  rw [execEncblk, unlessFaulted_clear _ he, check_pass _ _ _ _ hp, check_pass _ _ _ _ hv, complete_eq]

theorem exec_encblk_of_bad_length (hn : ¬(1 ≤ n.toNat ∧ n.toNat ≤ spb s)) :
    exec (.encblk n) s = .next (faulted 7#4 (commandOf (.encblk n)) s) := by
  rw [exec_encblk_of_configured he hp hv, check_fail _ _ _ _ hn]
  exact faulted_eq .badLength _ he

variable (hn : 1 ≤ n.toNat ∧ n.toNat ≤ spb s)
include hn

theorem exec_encblk_of_overflow (hd : ¬s.samplesDone.toNat + n.toNat ≤ 2 ^ 32 - 1) :
    exec (.encblk n) s = .next (faulted 8#4 (commandOf (.encblk n)) s) := by
  rw [exec_encblk_of_configured he hp hv, check_pass _ _ _ _ hn, check_fail _ _ _ _ hd]
  exact faulted_eq .range _ he

theorem exec_encblk_of_frame (hd : s.samplesDone.toNat + n.toNat ≤ 2 ^ 32 - 1) :
    exec (.encblk n) s = .next (setDout 0#32 (encodeBlock n.toNat s)) := by
  rw [exec_encblk_of_configured he hp hv, check_pass _ _ _ _ hn, check_pass _ _ _ _ hd]

end Checks

/-- Settles O43: the four faults are the failures of the four checks, in their order. -/
theorem encblkFaultsInOrder : Obligations.EncblkFaultsInOrder := by
  refine fun s n => ⟨fun he => unlessFaulted_faulted _ he, exec_encblk_of_illegal_params,
    exec_encblk_of_invalid_table, fun he hp hv hbad => ?_, fun he hp hv h0 hle hover => ?_⟩
  · refine exec_encblk_of_bad_length he hp hv fun ⟨hpos, hle⟩ => ?_
    rw [spb_eq hp] at hle
    rcases hbad with rfl | hlt
    · exact absurd hpos (by decide)
    · exact absurd hle (Nat.not_le.2 hlt)
  · have hpos : n.toNat ≠ 0 := fun h => h0 (BitVec.eq_of_toNat_eq h)
    exact exec_encblk_of_overflow he hp hv ⟨Nat.one_le_iff_ne_zero.2 hpos, spb_eq hp ▸ hle⟩ (by omega)

/-! ### The state after a block -/

@[simp] theorem prediction_encodeBlock (n : Nat) (s : State) (ch : Channel) :
    prediction (encodeBlock n s) ch = prediction (encodeFrame n s) ch := by cases ch <;> rfl

/-- A completed ENCBLK changes `BLK`, its length, the prediction state and the two counters only. -/
theorem setDout_encodeBlock_eq {s : State} (h : ParamsLegal s) {n : Nat} (hn : n ≤ spb s) :
    setDout 0#32 (encodeBlock n s) =
      { s with
        blk := (encodeFrame n s).blk, pred0 := (encodeFrame n s).pred0, pred1 := (encodeFrame n s).pred1
        blkLen := BitVec.ofNat 16 (blockBytes s), samplesDone := BitVec.ofNat 32 (s.samplesDone.toNat + n)
        blocksDone := s.blocksDone + 1#32, dout := 0#32 } := by
  obtain ⟨hframe, -⟩ := encodeFrame_spec s h hn
  have hone : BitVec.ofNat 32 (s.blocksDone.toNat + 1) = s.blocksDone + 1#32 := rfl
  rw [encodeBlock, hone, hframe]
  rfl

theorem toNat_ofNat_blockBytes {s : State} (h : ParamsLegal s) :
    (BitVec.ofNat 16 (blockBytes s)).toNat = blockBytes s := by
  obtain ⟨-, hle⟩ := blockBytes_bounds h
  exact Nat.mod_eq_of_lt (by omega)

/-! ### A channel in the spec's own expressions -/

/-- The two bytes of a scale field. -/
theorem toNat_scale_bytes {t : State} {a scale : Nat} (h : readBlk16 t a = BitVec.ofNat 16 scale) :
    (readBlk t a).toNat = scale / 256 % 256 ∧ (readBlk t (a + 1)).toNat = scale % 256 := by
  have hsum := congrArg BitVec.toNat h
  rw [toNat_readBlk16, BitVec.toNat_ofNat] at hsum
  have hlow := (readBlk t (a + 1)).isLt
  omega

theorem toNat_channelByte (s : State) (ch : Channel) (n k : Nat) :
    (channelByte s ch n k).toNat = (channelCode s ch n (2 * k)).toNat * 16 + (channelCode s ch n (2 * k + 1)).toNat := by
  rw [channelByte, BitVec.toNat_ofNat]
  omega

/-- `max_positive` and the magnitude of `min_negative` of a function's first `m` values, as `EncodesChannel` has them. -/
theorem extremes_spec {r : Nat → Int} {m mp mn : Nat} (hmp : (mp : Int) = maxPositive ((List.range m).map r))
    (hmn : (mn : Int) = -minNegative ((List.range m).map r)) :
    (∀ j, j < m → r j ≤ (mp : Int) ∧ -(mn : Int) ≤ r j) ∧ (mp = 0 ∨ ∃ j, j < m ∧ r j = (mp : Int)) ∧
      (mn = 0 ∨ ∃ j, j < m ∧ r j = -(mn : Int)) := by
  obtain ⟨hmax, hle⟩ := maxPositive_spec ((List.range m).map r)
  obtain ⟨hmin, hge⟩ := minNegative_spec ((List.range m).map r)
  have hneg : -(mn : Int) = minNegative ((List.range m).map r) := by rw [hmn, neg_neg]
  rw [← hmp] at hmax hle
  rw [← hneg] at hmin hge
  simp only [List.mem_cons, List.mem_map, List.mem_range, Int.natCast_eq_zero, neg_eq_zero] at hmax hle hmin hge
  exact ⟨fun j hj => ⟨hle _ (.inr ⟨j, hj, rfl⟩), hge _ (.inr ⟨j, hj, rfl⟩)⟩, hmax, hmin⟩

/-- What `encodeFrame_spec` says of an active channel is what `EncodesChannel` writes out. -/
theorem encodesChannel_encodeFrame {s t : State} {n : Nat} (h : ParamsLegal s) (hn : n ≤ spb s) {ch : Channel}
    (hc : ch ∈ activeChannels s) (ht : ∀ a, readBlk t a = readBlk (encodeFrame n s) a) :
    EncodesChannel s t (channelIndex ch) n (prediction s ch) (prediction (encodeFrame n s) ch) := by
  obtain ⟨-, hspec, -⟩ := encodeFrame_spec s h hn
  obtain ⟨hstate, hscale, hbyte⟩ := hspec ch hc
  obtain ⟨hhigh, hlow⟩ := toNat_scale_bytes hscale
  obtain ⟨hbound, hmp, hmn⟩ := extremes_spec (r := residualAt s ch n) (m := spb s)
    (Int.toNat_of_nonneg (maxPositive_nonneg _)) (Int.toNat_of_nonneg (neg_nonneg.2 (minNegative_nonpos _)))
  rw [← ht] at hhigh hlow
  simp only [spb_eq h] at hbound hmp hmn
  refine ⟨hstate, residualAt s ch n, _, _, channelScale s ch n, fun j => rfl, hbound, hmp, hmn, ?_, hhigh, hlow,
    fun k hk => ?_⟩
  · rw [channelScale, scaleOf_eq, spb_eq h]
    cases s.openParams.scaleDiv <;> rfl
  · have hk' : k < spb s / 2 := by
      rw [spb_eq h]
      omega
    have hcode : ∀ j, (channelCode s ch n j).toNat =
        nibbleCode s.openParams.rmode (residualAt s ch n j) (channelScale s ch n) :=
      fun j => toNat_enc4_quantise _ _ _
    rw [← hcode, ← hcode, ← toNat_channelByte, ← hbyte k hk', ← ht]
    rfl

/-- Settles O44: `encodeFrame_spec` gives the channels and the rest of `BLK`; the length fits its register and the count does
not wrap. -/
theorem encblkEncodesTheFrame : Obligations.EncblkEncodesTheFrame := by
  intro s n he hp hv hpos hle hd
  have hn : n.toNat ≤ spb s := (spb_eq hp).symm ▸ hle
  obtain ⟨-, -, hidle, hrest, -⟩ := encodeFrame_spec s hp hn
  refine ⟨_, exec_encblk_of_frame he hp hv ⟨hpos, hn⟩ hd, setDout_encodeBlock_eq hp hn, ?_, ?_, ?_, fun h2 => ?_,
    fun h1 => ?_, hrest⟩
  · exact Nat.mod_eq_of_lt (by omega)
  · exact toNat_ofNat_blockBytes hp
  · exact encodesChannel_encodeFrame hp hn (ch0_mem_activeChannels s) fun _ => rfl
  · exact encodesChannel_encodeFrame hp hn (ch := .ch1) (by simp [activeChannels_two h2]) fun _ => rfl
  · exact hidle .ch1 (by simp [activeChannels_one h1])

/-! ### The channels are independent -/

/-- Two states are alike in all that the encode of a channel's `n` samples reads: the parameters, the table, the channel's
prediction state and its words of `PCM`. -/
structure SameChannelSource (ch : Channel) (n : Nat) (s s' : State) : Prop where
  blockSize : s.blockSize = s'.blockSize
  bitdepth : s.bitdepth = s'.bitdepth
  channels : s.channels = s'.channels
  coef0 : s.coef0 = s'.coef0
  coef1 : s.coef1 = s'.coef1
  openParams : s.openParams = s'.openParams
  prediction : prediction s ch = prediction s' ch
  samples : ∀ j, j < n → readPcm s (pcmIndex s ch j) = readPcm s' (pcmIndex s' ch j)

namespace SameChannelSource

variable {ch : Channel} {n : Nat} {s s' : State} (h : SameChannelSource ch n s s')
include h

theorem paramsLegal (hp : ParamsLegal s) : ParamsLegal s' := by
  unfold ParamsLegal
  rwa [← h.blockSize, ← h.bitdepth, ← h.channels]

theorem spb_eq : spb s = spb s' := by
  unfold spb
  rw [h.blockSize, h.bitdepth]

theorem segmentBase_eq : segmentBase s ch = segmentBase s' ch := by
  unfold segmentBase
  rw [h.blockSize]

/-- A residual looks at no sample after its own. -/
theorem residualAt_eq (j : Nat) : residualAt s ch n j = residualAt s' ch n j := by
  unfold residualAt
  split
  next hj =>
    rw [h.samples j hj, h.coef0, h.coef1, h.prediction, history_congr _ fun k hk => h.samples k (hk.trans hj)]
  next => rfl

theorem channelScale_eq : channelScale s ch n = channelScale s' ch n := by
  unfold channelScale
  rw [h.openParams, h.spb_eq, funext h.residualAt_eq]

theorem channelByte_eq (k : Nat) : channelByte s ch n k = channelByte s' ch n k := by
  unfold channelByte channelCode
  simp only [h.residualAt_eq, h.channelScale_eq, h.openParams]

end SameChannelSource

/-- A segment is its scale field and its nibble bytes. -/
theorem sameSegment_of_fields {ch : Channel} {t t' : State}
    (hscale : readBlk16 t (segmentBase t ch) = readBlk16 t' (segmentBase t ch))
    (hbyte : ∀ k, k < t.blockSize.toNat - 2 →
      readBlk t (segmentBase t ch + 2 + k) = readBlk t' (segmentBase t ch + 2 + k)) :
    SameSegment ch t t' := by
  intro a hlo hhi
  have hsum := congrArg BitVec.toNat hscale
  rw [toNat_readBlk16, toNat_readBlk16] at hsum
  have hlow := (readBlk t (segmentBase t ch + 1)).isLt
  have hlow' := (readBlk t' (segmentBase t ch + 1)).isLt
  obtain ⟨k, rfl⟩ := Nat.exists_eq_add_of_le hlo
  match k with
  | 0 => exact BitVec.eq_of_toNat_eq (by rw [Nat.add_zero]; omega)
  | 1 => exact BitVec.eq_of_toNat_eq (by omega)
  | k + 2 =>
    have := hbyte k (by omega)
    rwa [show segmentBase t ch + (k + 2) = segmentBase t ch + 2 + k by omega]

/-- The blocks two such states encode are alike in the channel. -/
theorem encodeBlock_congr {ch : Channel} {n : Nat} {s s' : State} (h : SameChannelSource ch n s s') (hp : ParamsLegal s)
    (hc : channelIndex ch < s.channels.toNat) (hn : n ≤ spb s) :
    prediction (encodeFrame n s) ch = prediction (encodeFrame n s') ch ∧
      SameSegment ch (setDout 0#32 (encodeBlock n s)) (setDout 0#32 (encodeBlock n s')) := by
  have hp' := h.paramsLegal hp
  obtain ⟨hframe, hspec, -⟩ := encodeFrame_spec s hp hn
  obtain ⟨-, hspec', -⟩ := encodeFrame_spec s' hp' (h.spb_eq ▸ hn)
  obtain ⟨hstate, hscale, hbyte⟩ := hspec ch ((mem_activeChannels hp ch).2 hc)
  obtain ⟨hstate', hscale', hbyte'⟩ := hspec' ch ((mem_activeChannels hp' ch).2 (h.channels ▸ hc))
  have hbs : (setDout 0#32 (encodeBlock n s)).blockSize = s.blockSize := by
    rw [setDout_encodeBlock_eq hp hn]
  have hbase : segmentBase (setDout 0#32 (encodeBlock n s)) ch = segmentBase s ch := by
    rw [segmentBase, hbs, segmentBase]
  refine ⟨?_, sameSegment_of_fields ?_ fun k hk => ?_⟩
  · rw [hstate, hstate', h.prediction, history_congr _ h.samples]
  · rw [hbase]
    exact hscale.trans (h.channelScale_eq ▸ h.segmentBase_eq ▸ hscale'.symm)
  · have hk' : k < spb s / 2 := by
      rw [spb_eq hp]
      rw [hbs] at hk
      omega
    rw [hbase]
    exact (hbyte k hk').trans
      (h.channelByte_eq k ▸ h.segmentBase_eq ▸ (hbyte' k (h.spb_eq ▸ hk')).symm)

/-- Settles O50: the second state passes the same checks, and its block agrees in the channel. -/
theorem encodedChannelsAreIndependent : Obligations.EncodedChannelsAreIndependent := by
  intro s s' t t' ch n hp he he' _ hv' hbs hbd hch hc0 hc1 hdone hopen hc hpred hpcm ht ht' hterr
  have h : SameChannelSource ch n.toNat s s' := by
    refine ⟨hbs, hbd, hch, hc0, hc1, hopen, hpred, fun j hj => ?_⟩
    rw [hpcm j hj, pcmIndex, pcmIndex, hch]
  have hp' := h.paramsLegal hp
  rcases exec_cases ht with ⟨hfault, -⟩ | ⟨-, c, rfl⟩ | ⟨-, -, -, ⟨hpos, hn⟩, hd, rfl⟩
  · cases he.symm.trans hfault
  · cases hterr
  · have hn' : n.toNat ≤ spb s' := h.spb_eq ▸ hn
    cases (exec_encblk_of_frame he' hp' hv' ⟨hpos, hn'⟩ (hdone ▸ hd)).symm.trans ht'
    obtain ⟨hstate, hseg⟩ := encodeBlock_congr h hp hc hn
    refine ⟨?_, by simpa using hstate, hseg⟩
    rw [setDout_encodeBlock_eq hp' hn']
    exact he'

/-! ### The round trip -/

@[simp] theorem readPcm_decodeBlock (n : Nat) (s : State) (a : Nat) :
    readPcm (decodeBlock n s) a = readPcm (decodeFrame n s) a := rfl

/-- The block of `s` just encoded, with the prediction state and the count it was encoded from and its `n` samples owed. -/
def playback (n : Nat) (s : State) : State :=
  { setDout 0#32 (encodeBlock n s) with
    pred0 := s.pred0, pred1 := s.pred1, samplesDone := s.samplesDone
    totalSamples := BitVec.ofNat 32 (s.samplesDone.toNat + n) }

section Playback

variable {s : State} {n : Nat} (hp : ParamsLegal s) (hn : n ≤ spb s)
include hp hn

/-- All that DECBLK reads of it but the block is as in `s`. -/
theorem playback_eq :
    playback n s =
      { s with
        blk := (encodeFrame n s).blk, blkLen := BitVec.ofNat 16 (blockBytes s), blocksDone := s.blocksDone + 1#32
        totalSamples := BitVec.ofNat 32 (s.samplesDone.toNat + n), dout := 0#32 } := by
  rw [playback, setDout_encodeBlock_eq hp hn]

theorem paramsLegal_playback : ParamsLegal (playback n s) := by
  rw [playback_eq hp hn]
  exact hp

theorem pcmIndex_playback (ch : Channel) (j : Nat) : pcmIndex (playback n s) ch j = pcmIndex s ch j := by
  rw [playback_eq hp hn]
  rfl

theorem segmentBase_playback (ch : Channel) : segmentBase (playback n s) ch = segmentBase s ch := by
  rw [playback_eq hp hn]
  rfl

theorem activeChannels_playback : activeChannels (playback n s) = activeChannels s := by
  rw [playback_eq hp hn]
  rfl

theorem decodeCount_playback (hd : s.samplesDone.toNat + n ≤ 2 ^ 32 - 1) : decodeCount (playback n s) = n := by
  have hown : decodeCount (playback n s) =
      min (spb s) ((BitVec.ofNat 32 (s.samplesDone.toNat + n)).toNat - s.samplesDone.toNat) := by
    rw [playback_eq hp hn]
    rfl
  rw [hown, BitVec.toNat_ofNat, Nat.mod_eq_of_lt (by omega)]
  omega

theorem blockBytes_playback_le : blockBytes (playback n s) ≤ (playback n s).blkLen.toNat := by
  rw [playback_eq hp hn]
  exact (toNat_ofNat_blockBytes hp).ge

variable {ch : Channel} (hc : ch ∈ activeChannels s)
include hc

theorem scale_playback : readBlk16 (playback n s) (segmentBase s ch) = BitVec.ofNat 16 (channelScale s ch n) := by
  obtain ⟨-, hspec, -⟩ := encodeFrame_spec s hp hn
  obtain ⟨-, hscale, -⟩ := hspec ch hc
  exact hscale

/-- The nibbles are read in the order they were packed (42_encode R202, 41_decode R165). -/
theorem nibble_playback {j : Nat} (hj : j < spb s) :
    nibble (playback n s) (segmentBase s ch + 2) j = channelCode s ch n j := by
  obtain ⟨-, hspec, -⟩ := encodeFrame_spec s hp hn
  obtain ⟨-, -, hbyte⟩ := hspec ch hc
  obtain ⟨-, -, heven⟩ := spb_bounds hp
  have hread : readBlk (playback n s) (segmentBase s ch + 2 + j / 2) = channelByte s ch n (j / 2) :=
    hbyte (j / 2) (by omega)
  apply BitVec.eq_of_toNat_eq
  rw [toNat_nibble, hread, toNat_channelByte]
  have hlt := (channelCode s ch n (2 * (j / 2) + 1)).isLt
  split
  · rw [show 2 * (j / 2) = j by omega]
    omega
  · rw [show 2 * (j / 2) + 1 = j by omega]
    omega

/-- The source samples solve the decoder's recurrence: code times scale is the residual, and the prediction was taken off it
(42_encode R207, 41_decode R167). -/
theorem decodedAt_playback_source (hceil : s.openParams.scaleDiv = .ceil) (hfit : channelScale s ch n < 2 ^ 16) {j : Nat}
    (hj : j < n) (hdvd : (channelScale s ch n : Int) ∣ residualAt s ch n j) :
    decodedAt (playback n s) ch (BitVec.ofNat 16 (channelScale s ch n)) (fun k => readPcm s (pcmIndex s ch k)) j =
      readPcm s (pcmIndex s ch j) := by
  have hjs : j < spb s := hj.trans_le hn
  have hscale : channelScale s ch n = scaleOf .ceil ((List.range (spb s)).map (residualAt s ch n)) := by
    rw [channelScale, hceil]
  obtain ⟨hpos, hneg⟩ := scaleOf_ceil_covers (List.mem_map_of_mem (f := residualAt s ch n) (List.mem_range.2 hjs))
  rw [← hscale] at hpos hneg
  have hexact : sext4 (channelCode s ch n j) * channelScale s ch n = residualAt s ch n j :=
    sext4_enc4_quantise_mul (one_le_scaleOf _ _) hpos hneg hdvd
  have hres : residualAt s ch n j = (readPcm s (pcmIndex s ch j)).toInt -
      predIntOf s.coef0 s.coef1 (history (prediction s ch) (fun k => readPcm s (pcmIndex s ch k)) j) := if_pos hj
  obtain ⟨hc0, hc1⟩ : (playback n s).coef0 = s.coef0 ∧ (playback n s).coef1 = s.coef1 := by
    rw [playback_eq hp hn]
    exact ⟨rfl, rfl⟩
  have hpred : prediction (playback n s) ch = prediction s ch := by cases ch <;> rfl
  obtain ⟨hlo, hhi⟩ := sample_bounds (readPcm s (pcmIndex s ch j))
  rw [decodedAt, segmentBase_playback hp hn, nibble_playback hp hn hc hjs, BitVec.toNat_ofNat, Nat.mod_eq_of_lt hfit,
    hexact, hc0, hc1, hpred, hres, sub_add_cancel, clamp16, clampInt_of_mem hlo (by omega), BitVec.ofInt_toInt]

/-- So the decoder's samples are the source samples, since its recurrence has one solution. -/
theorem readPcm_decodeFrame_playback (hceil : s.openParams.scaleDiv = .ceil) (hfit : channelScale s ch n < 2 ^ 16)
    (hdvd : ∀ j, j < n → (channelScale s ch n : Int) ∣ residualAt s ch n j) {j : Nat} (hj : j < n) :
    readPcm (decodeFrame n (playback n s)) (pcmIndex s ch j) = readPcm s (pcmIndex s ch j) := by
  obtain ⟨hspec, -⟩ := decodeFrame_spec n (paramsLegal_playback hp hn)
  obtain ⟨-, hsample⟩ := hspec ch ((activeChannels_playback hp hn).symm ▸ hc)
  simp only [pcmIndex_playback hp hn, segmentBase_playback hp hn, scale_playback hp hn hc] at hsample
  exact decodedAt_unique hsample
    (fun k hk => (decodedAt_playback_source hp hn hc hceil hfit hk (hdvd k hk)).symm) j hj

end Playback

/-- Settles O51: ENCBLK leaves what `playback` starts from, and DECBLK of that passes its checks and gives every source
sample. -/
theorem exactRoundTrip : Obligations.ExactRoundTrip := by
  intro s n he hp hv hceil hpos hle hd hexact
  have hn : n.toNat ≤ spb s := (spb_eq hp).symm ▸ hle
  have hcount := decodeCount_playback hp hn hd
  obtain ⟨he', hv'⟩ : (playback n.toNat s).err = false ∧ (playback n.toNat s).coefValid = true := by
    rw [playback_eq hp hn]
    exact ⟨he, hv⟩
  have hp' := paramsLegal_playback hp hn
  have hdec := exec_decblk_of_block he' hp' hv' (by omega) (blockBytes_playback_le hp hn)
  rw [hcount] at hdec
  refine ⟨_, exec_encblk_of_frame he hp hv ⟨hpos, hn⟩ hd, _, hdec, ?_, ?_, fun ch hc j hj => ?_⟩
  · rw [setDout_decodeBlock_eq hp']
    exact he'
  · exact BitVec.eq_of_toNat_eq (Nat.mod_eq_of_lt n.isLt)
  · obtain ⟨hfit, hdvd⟩ := hexact ch hc
    rw [readPcm_setDout, readPcm_decodeBlock]
    exact readPcm_decodeFrame_playback hp hn ((mem_activeChannels hp ch).2 hc) hceil hfit hdvd hj

end Sys2Proof.Machine
end

section
/-! PROOFS. The loop converter (43_loopconv R230 to R238): the encoding of an operand-less command, what the three
converter commands share, and that their results are functions of the parameter and operand registers they name. -/

namespace Sys2Proof.Machine

/-! ### The encoding of an operand-less command -/

theorem step_legal {s : State} {cw din : Word} {q : List HostAction} {i : Instr}
    (hh : s.host = .transaction cw din :: q) (hd : decode cw din = .ok i) : step s = exec i (setHost q s) := by
  simp only [step, hh, hd]

/-- Another word with the `op` of an operand-less command has a bit of `idx` or `rsv` set (30_encoding R95 (b), (c)). -/
theorem illegalEncoding_of_bare {cw : Word} (din : Word) (hop : cw.toNat % 2 ^ 8 ∈ bareOps)
    (hne : cw.toNat ≠ cw.toNat % 2 ^ 8) : IllegalEncoding cw din := by
  by_cases hrsv : cw.toNat / 2 ^ 24 = 0
  · exact .inr (.inr (.inl ⟨hop, by omega⟩))
  · exact .inr (.inl hrsv)

theorem runsAs_of_bare {i : Instr} (hop : (commandOf i).toNat ∈ bareOps)
    (hdec : ∀ din, decode (commandOf i) din = .ok i) : RunsAs (commandOf i).toNat i := by
  intro s cw din q hh hcw
  constructor
  · intro heq
    obtain rfl := BitVec.eq_of_toNat_eq heq
    exact step_legal hh (hdec din)
  · intro hne he
    have hill : IllegalEncoding cw din := illegalEncoding_of_bare din (hcw ▸ hop) (hcw ▸ hne)
    exact (step_illegal hh hill).trans (rejectEncoding_clear cw (s := setHost q s) he)

/-! ### The view `SPB` -/

theorem exec_rd_spb (s : State) : exec (.rd 0x15#16) s = .next { s with dout := BitVec.ofNat 32 (spbView s) } :=
  exec_rd_of_number (r := .spb) rfl s

/-- Settles O56: `spb_eq` and its bounds; the view tests the two parameters `SPB()` is computed from. -/
theorem samplesPerBlockIsInRange : Obligations.SamplesPerBlockIsInRange := by
  refine ⟨fun s hp => ?_, fun s hbad => ?_⟩
  · obtain ⟨hlo, hhi, heven⟩ := spb_bounds hp
    have ⟨hbs, hbd, _⟩ := hp
    have hexact : spb s * s.bitdepth.toNat = (s.blockSize.toNat - 2) * 8 := by
      rw [spb_eq hp, hbd]
      exact Nat.mul_assoc _ 2 4
    have hview : spbView s = spb s := if_pos ⟨hbs, hbd⟩
    exact ⟨spb_eq hp, hexact, hlo, hhi, heven, hview ▸ exec_rd_spb s, blockBytes_bounds hp⟩
  · have hview : spbView s = 0 := if_neg fun ⟨hbs, hbd⟩ => hbad.elim (Nat.not_lt.2 hbs) (absurd hbd)
    exact hview ▸ exec_rd_spb s

/-! ### What the three commands share -/

/-- The three commands make the same checks: refused while `ERR` = 1, then the parameters, then whether every offset of
the result `u` fits u32, said by `p` (R234, R236, R238). `exec_s2b_eq`, `exec_boff_eq` and `exec_loopset_eq` say so. -/
def converterCommand (i : Instr) (p : Prop) [Decidable p] (s u : State) : Result :=
  unlessFaulted s <| check (ParamsLegal s) .badParam (commandOf i) s <| check p .range (commandOf i) s <| complete u

theorem exec_s2b_eq (s : State) :
    exec .s2b s = converterCommand .s2b (sampleToByte s s.smpIn.toNat ≤ 2 ^ 32 - 1) s
      { s with offOut := BitVec.ofNat 32 (sampleToByte s s.smpIn.toNat) } := rfl

theorem exec_boff_eq (s : State) :
    exec .boff s = converterCommand .boff (blockOffset s s.blkidxIn.toNat ≤ 2 ^ 32 - 1) s
      { s with offOut := BitVec.ofNat 32 (blockOffset s s.blkidxIn.toNat) } := rfl

theorem exec_loopset_eq (s : State) :
    exec .loopset s = converterCommand .loopset
      (sampleToByte s s.loopBeginSample.toNat ≤ 2 ^ 32 - 1 ∧ sampleToByte s s.loopEndSample.toNat ≤ 2 ^ 32 - 1) s
      (setLoop s) := rfl

section Checks

variable {i : Instr} {p : Prop} [Decidable p] {s u : State}

theorem converterCommand_refused (he : s.err = true) : converterCommand i p s u = .next (setDout 0#32 s) :=
  unlessFaulted_faulted _ he

theorem converterCommand_of_illegal_params (he : s.err = false) (hp : ¬ParamsLegal s) :
    converterCommand i p s u = .next (faulted 4#4 (commandOf i) s) := by
  rw [converterCommand, unlessFaulted_clear _ he, check_fail _ _ _ _ hp]
  exact faulted_eq .badParam _ he

theorem converterCommand_of_overflow (he : s.err = false) (hp : ParamsLegal s) (h : ¬p) :
    converterCommand i p s u = .next (faulted 8#4 (commandOf i) s) := by
  rw [converterCommand, unlessFaulted_clear _ he, check_pass _ _ _ _ hp, check_fail _ _ _ _ h]
  exact faulted_eq .range _ he

theorem converterCommand_of_fits (he : s.err = false) (hp : ParamsLegal s) (h : p) :
    converterCommand i p s u = .next (setDout 0#32 u) := by
  rw [converterCommand, unlessFaulted_clear _ he, check_pass _ _ _ _ hp, check_pass _ _ _ _ h, complete_eq]

/-- The inversion: with `ERR` = 0, a command that does not fault passed its checks. -/
theorem converterCommand_completes {t : State} (he : s.err = false) (h : converterCommand i p s u = .next t)
    (ht : t.err = false) : ParamsLegal s ∧ p ∧ t = setDout 0#32 u := by
  by_cases hp : ParamsLegal s
  · by_cases hfit : p
    · cases (converterCommand_of_fits he hp hfit).symm.trans h
      exact ⟨hp, hfit, rfl⟩
    · cases (converterCommand_of_overflow he hp hfit).symm.trans h
      cases ht
  · cases (converterCommand_of_illegal_params he hp).symm.trans h
    cases ht

end Checks

/-! ### The results -/

theorem sampleToByte_eq {s : State} (h : ParamsLegal s) (k : Nat) :
    sampleToByte s k = k / ((s.blockSize.toNat - 2) * 2) * s.blockSize.toNat * s.channels.toNat := by
  rw [sampleToByte, spb_eq h]

/-- Settles O52: the word, then the outcomes of the checks; the offset is `sampleToByte`. -/
theorem s2bConvertsTheSampleIndex : Obligations.S2bConvertsTheSampleIndex := by
  refine ⟨runsAs_of_bare (i := .s2b) (by decide) fun _ => rfl, fun s v hv => ?_⟩
  rw [exec_s2b_eq]
  refine ⟨fun he hp hfit => ?_, fun he hp hover => ?_, converterCommand_of_illegal_params, converterCommand_refused⟩
  · rw [← sampleToByte_eq hp] at hv
    exact hv ▸ converterCommand_of_fits he hp (hv ▸ hfit)
  · rw [← sampleToByte_eq hp] at hv
    exact converterCommand_of_overflow he hp (by omega)

/-- Settles O53: the word, then the outcomes of the checks; the offset is `blockOffset` by definition. -/
theorem boffGivesTheBlockOffset : Obligations.BoffGivesTheBlockOffset := by
  refine ⟨runsAs_of_bare (i := .boff) (by decide) fun _ => rfl, fun s v hv => ?_⟩
  replace hv : v = blockOffset s s.blkidxIn.toNat := hv
  rw [exec_boff_eq, ← hv]
  exact ⟨converterCommand_of_fits, fun he hp hover => converterCommand_of_overflow he hp (by omega),
    converterCommand_of_illegal_params, converterCommand_refused⟩

/-- Settles O54: the word, then the outcomes of the checks; each offset is `sampleToByte`. -/
theorem loopsetDerivesTheLoop : Obligations.LoopsetDerivesTheLoop := by
  refine ⟨runsAs_of_bare (i := .loopset) (by decide) fun _ => rfl, fun s vb ve hvb hve => ?_⟩
  rw [exec_loopset_eq]
  refine ⟨fun he hp hb hend => ?_, fun he hp hover => ?_, converterCommand_of_illegal_params, converterCommand_refused⟩
  · rw [← sampleToByte_eq hp] at hvb hve
    subst hvb hve
    exact converterCommand_of_fits he hp ⟨hb, hend⟩
  · rw [← sampleToByte_eq hp] at hvb hve
    exact converterCommand_of_overflow he hp (by omega)

/-! ### The base offset -/

/-- The block of a sample starts the base past the sample's offset (43_loopconv R237). -/
theorem blockOffset_block_of_sample {s : State} (h : ParamsLegal s) {k : Nat} (j : Nat)
    (hk : k = j / ((s.blockSize.toNat - 2) * 2)) :
    blockOffset s k = s.copyrightOffset.toNat + 4 + sampleToByte s j := by
  rw [blockOffset, sampleToByte_eq h, hk]

theorem toNat_ofNat32 {v : Nat} (h : v ≤ 2 ^ 32 - 1) : (BitVec.ofNat 32 v).toNat = v :=
  (BitVec.toNat_ofNat v 32).trans (Nat.mod_eq_of_lt (by omega))

/-- Settles O55: where the block's offset fits so does the sample's, which is smaller, and neither is cut to 32 bits. -/
theorem blockOffsetIsBasePlusSampleOffset : Obligations.BlockOffsetIsBasePlusSampleOffset := by
  intro s t u he hp hblk ht hu huerr
  rw [exec_s2b_eq] at ht
  rw [exec_boff_eq] at hu
  obtain ⟨-, hfit, rfl⟩ := converterCommand_completes he hu huerr
  have hbase := blockOffset_block_of_sample hp _ hblk
  have hsample : sampleToByte s s.smpIn.toNat ≤ 2 ^ 32 - 1 := by omega
  cases (converterCommand_of_fits he hp hsample).symm.trans ht
  refine ⟨he, ?_⟩
  rw [setDout_offOut, setDout_offOut, toNat_ofNat32 hfit, toNat_ofNat32 hsample, hbase]

/-! ### What the results depend on -/

/-- `s` and `s'` agree in `ERR` and in the parameter registers that all three commands name (43_loopconv R232). -/
structure SameParams (s s' : State) : Prop where
  err : s.err = s'.err
  blockSize : s.blockSize = s'.blockSize
  bitdepth : s.bitdepth = s'.bitdepth
  channels : s.channels = s'.channels

namespace SameParams

variable {s s' : State} (h : SameParams s s')
include h

theorem paramsLegal (hp : ParamsLegal s) : ParamsLegal s' := by
  unfold ParamsLegal
  rwa [← h.blockSize, ← h.bitdepth, ← h.channels]

theorem sampleToByte_eq (k : Nat) : sampleToByte s k = sampleToByte s' k := by
  unfold sampleToByte spb
  rw [h.blockSize, h.bitdepth, h.channels]

theorem blockOffset_eq (hc : s.copyrightOffset = s'.copyrightOffset) (k : Nat) :
    blockOffset s k = blockOffset s' k := by
  unfold blockOffset
  rw [h.blockSize, h.channels, hc]

/-- A command that completes on `s` completes on `s'`, if its offsets then fit there. -/
theorem converterCommand_completes_both {i : Instr} {p p' : Prop} [Decidable p] [Decidable p'] {u u' t t' : State}
    (hfits : p → p') (ht : converterCommand i p s u = .next t) (ht' : converterCommand i p' s' u' = .next t')
    (he : s.err = false) (hterr : t.err = false) : t = setDout 0#32 u ∧ t' = setDout 0#32 u' := by
  obtain ⟨hp, hfit, rfl⟩ := converterCommand_completes he ht hterr
  have he' : s'.err = false := h.err ▸ he
  cases (converterCommand_of_fits he' (h.paramsLegal hp) (hfits hfit)).symm.trans ht'
  exact ⟨rfl, rfl⟩

end SameParams

/-- Settles O57: the second state passes the same checks, and the offsets are computed from what the states share. -/
theorem converterIsPure : Obligations.ConverterIsPure := by
  intro s s' t t' herr hbs hbd hch
  have h : SameParams s s' := ⟨herr, hbs, hbd, hch⟩
  refine ⟨fun hin ht ht' he hterr => ?_, fun hin hbase ht ht' he hterr => ?_, fun hb hend ht ht' he hterr => ?_⟩
  · have hoff : sampleToByte s s.smpIn.toNat = sampleToByte s' s'.smpIn.toNat := by rw [h.sampleToByte_eq, hin]
    rw [exec_s2b_eq] at ht ht'
    obtain ⟨rfl, rfl⟩ := h.converterCommand_completes_both hoff.ge.trans ht ht' he hterr
    exact ⟨herr ▸ he, congrArg (BitVec.ofNat 32) hoff⟩
  · have hoff : blockOffset s s.blkidxIn.toNat = blockOffset s' s'.blkidxIn.toNat := by
      rw [h.blockOffset_eq hbase, hin]
    rw [exec_boff_eq] at ht ht'
    obtain ⟨rfl, rfl⟩ := h.converterCommand_completes_both hoff.ge.trans ht ht' he hterr
    exact ⟨herr ▸ he, congrArg (BitVec.ofNat 32) hoff⟩
  · have hbegin : sampleToByte s s.loopBeginSample.toNat = sampleToByte s' s'.loopBeginSample.toNat := by
      rw [h.sampleToByte_eq, hb]
    have hstop : sampleToByte s s.loopEndSample.toNat = sampleToByte s' s'.loopEndSample.toNat := by
      rw [h.sampleToByte_eq, hend]
    rw [exec_loopset_eq] at ht ht'
    obtain ⟨rfl, rfl⟩ := h.converterCommand_completes_both (And.imp hbegin.ge.trans hstop.ge.trans) ht ht' he hterr
    exact ⟨herr ▸ he, by simp only [setDout_loopEnabled, setLoop, hb, hend], congrArg (BitVec.ofNat 32) hbegin,
      congrArg (BitVec.ofNat 32) hstop⟩

end Sys2Proof.Machine
end

section
/-! PROOFS. The system transactions (44_system R250 to R257): the step that runs one, the registers by number, the two
buffers by index, and START. -/

namespace Sys2Proof.Machine

/-! ### The step (44_system R257) -/

theorem step_waiting {s : State} (hh : s.host = []) : step s = .next s := by
  simp only [step, hh]

/-- Settles O4: `step_legal` for a decoded pair, which an encoded transaction is; `step_waiting` with nothing pending. -/
theorem stepRunsDecodedTransaction : Obligations.StepRunsDecodedTransaction :=
  ⟨fun _ _ _ _ _ hh hd => step_legal hh hd, fun _ _ i hw hh => step_legal hh (decodeUndoesEncode i hw),
    fun _ hh => step_waiting hh⟩

/-! ### Register numbers (10_state R21) -/

theorem writableReg_regNumber {r : Reg} {w : Nat} (h : writableWidth r = some w) :
    writableReg (regNumber r) = some (r, w) := by
  simp only [writableReg, regOfNumber_regNumber, h, Option.map_some]

/-- The RW registers are those with the numbers 0x00 to 0x0B. -/
theorem regNumber_le_of_writable (r : Reg) : (writableWidth r).isSome = true → (regNumber r).toNat ≤ 0x0B := by
  cases r <;> decide

theorem writableReg_eq_none {n : Half} (h : 0x0B < n.toNat) : writableReg n = none := by
  cases hn : writableReg n with
  | none => rfl
  | some rw =>
    obtain ⟨rfl, hw⟩ := writableReg_eq_some hn
    exact absurd (regNumber_le_of_writable rw.1 (hw ▸ rfl)) (Nat.not_le.2 h)

/-- The assigned numbers of R21, as ranges. -/
theorem regNumber_ranges (r : Reg) :
    (regNumber r).toNat ≤ 0x0B ∨ (0x10 ≤ (regNumber r).toNat ∧ (regNumber r).toNat ≤ 0x19) ∨
      (0x20 ≤ (regNumber r).toNat ∧ (regNumber r).toNat ≤ 0x23) ∨
      (0x28 ≤ (regNumber r).toNat ∧ (regNumber r).toNat ≤ 0x2B) := by
  cases r <;> decide

theorem regOfNumber_eq_none {n : Half}
    (h : (0x0B < n.toNat ∧ n.toNat < 0x10) ∨ (0x19 < n.toNat ∧ n.toNat < 0x20) ∨ (0x23 < n.toNat ∧ n.toNat < 0x28) ∨
      0x2B < n.toNat) : regOfNumber n = none := by
  cases hn : regOfNumber n with
  | none => rfl
  | some r =>
    obtain rfl := regOfNumber_eq_some hn
    have hr := regNumber_ranges r
    omega

/-! ### WR (44_system R250) -/

theorem valueFits_iff {r : Reg} {w : Nat} {v : Word} :
    valueFits r w v = true ↔ v.toNat < 2 ^ w ∧ (r = .blkLen → v.toNat ≤ 510) := by
  simp [valueFits, imp_iff_not_or]

section Wr

variable {r : Reg} {w : Nat} {s : State} {v : Word} (he : s.err = false) (hw : writableWidth r = some w)
include he

theorem exec_wr_of_unwritable {n : Half} (hn : writableReg n = none) :
    exec (.wr n v) s = .next (faulted 2#4 (commandOf (.wr n v)) s) := by
  show execWr n v s = _
  rw [execWr, unlessFaulted_clear _ he, hn]
  exact faulted_eq .badRegister _ he

include hw

theorem exec_wr_of_writable :
    exec (.wr (regNumber r) v) s = check (valueFits r w v = true) .badParam (commandOf (.wr (regNumber r) v)) s
      (complete (writeReg r v s)) := by
  show execWr (regNumber r) v s = _
  rw [execWr, unlessFaulted_clear _ he, writableReg_regNumber hw]

theorem exec_wr_of_fits (hv : v.toNat < 2 ^ w) (hb : r = .blkLen → v.toNat ≤ 510) :
    exec (.wr (regNumber r) v) s = .next (setDout 0#32 (writeReg r v s)) := by
  rw [exec_wr_of_writable he hw, check_pass _ _ _ _ (valueFits_iff.2 ⟨hv, hb⟩), complete_eq]

theorem exec_wr_of_unfit (hv : 2 ^ w ≤ v.toNat ∨ r = .blkLen ∧ 510 < v.toNat) :
    exec (.wr (regNumber r) v) s = .next (faulted 4#4 (commandOf (.wr (regNumber r) v)) s) := by
  have hbad : ¬valueFits r w v = true := fun h => by
    obtain ⟨hlt, hb⟩ := valueFits_iff.1 h
    rcases hv with hwide | ⟨hr, hlong⟩
    · exact Nat.not_lt.2 hwide hlt
    · exact Nat.not_lt.2 (hb hr) hlong
  rw [exec_wr_of_writable he hw, check_fail _ _ _ _ hbad]
  exact faulted_eq .badParam _ he

end Wr

/-- Settles O28: `exec_wr_of_fits` for each RW register; every value fits a register of 32 bits. -/
theorem wrWritesTheNamedRegister : Obligations.WrWritesTheNamedRegister := fun _ v he =>
  ⟨fun hv => exec_wr_of_fits (r := .blockSize) he rfl hv nofun,
    fun hv => exec_wr_of_fits (r := .bitdepth) he rfl hv nofun,
    fun hv => exec_wr_of_fits (r := .channels) he rfl hv nofun,
    exec_wr_of_fits (r := .sampleRate) he rfl v.isLt nofun,
    fun hv => exec_wr_of_fits (r := .highpass) he rfl hv nofun,
    exec_wr_of_fits (r := .totalSamples) he rfl v.isLt nofun,
    fun hv => exec_wr_of_fits (r := .copyrightOffset) he rfl hv nofun,
    fun hv => exec_wr_of_fits (r := .blkLen) he rfl (Nat.lt_of_le_of_lt hv (by decide)) fun _ => hv,
    exec_wr_of_fits (r := .smpIn) he rfl v.isLt nofun,
    exec_wr_of_fits (r := .blkidxIn) he rfl v.isLt nofun,
    exec_wr_of_fits (r := .loopBeginSample) he rfl v.isLt nofun,
    exec_wr_of_fits (r := .loopEndSample) he rfl v.isLt nofun⟩

/-- Settles O29: the numbers of each clause are named, and `exec_wr_of_unfit` says what their checks do. -/
theorem wrFaults : Obligations.WrFaults := by
  intro s n v he
  have number (r : Reg) (h : n.toNat = (regNumber r).toNat) : n = regNumber r := BitVec.eq_of_toNat_eq h
  refine ⟨fun hn => exec_wr_of_unwritable he (writableReg_eq_none hn), fun hn hv => ?_, fun hn hv => ?_,
    fun hn hv => ?_⟩
  · obtain h0 | h1 | h2 : n.toNat = 0 ∨ n.toNat = 1 ∨ n.toNat = 2 := by omega
    · exact number .blockSize h0 ▸ exec_wr_of_unfit he rfl (.inl hv)
    · exact number .bitdepth h1 ▸ exec_wr_of_unfit he rfl (.inl hv)
    · exact number .channels h2 ▸ exec_wr_of_unfit he rfl (.inl hv)
  · rcases hn with h4 | h6
    · exact number .highpass h4 ▸ exec_wr_of_unfit he rfl (.inl hv)
    · exact number .copyrightOffset h6 ▸ exec_wr_of_unfit he rfl (.inl hv)
  · exact number .blkLen hn ▸ exec_wr_of_unfit he rfl (.inr ⟨rfl, hv⟩)

/-! ### RD (44_system R251) -/

theorem exec_rd_of_unassigned {n : Half} (h : regOfNumber n = none) (s : State) :
    exec (.rd n) s = raise .badRegister (commandOf (.rd n)) s := by
  show execRd n s = _
  rw [execRd, h]

/-- Settles O32: `BadRegister` is raised, which records the fault if it is the first and keeps the earlier one if not. -/
theorem rdOfUnassignedNumberFaults : Obligations.RdOfUnassignedNumberFaults := by
  intro s n hn
  rw [exec_rd_of_unassigned (regOfNumber_eq_none hn)]
  exact ⟨faulted_eq .badRegister _, raise_faulted _ _⟩

/-- A read of a register with a specified value uses no draw. -/
theorem afterRead_of_specified {r : Reg} {s : State} (h : isCoefHalf r = false ∨ s.coefValid = true) :
    afterRead r s = s := by
  rcases h with h | h <;> simp [afterRead, h]

theorem exec_rd_of_specified {n : Half} {r : Reg} {s : State} {v : Word} (hn : regOfNumber n = some r)
    (h : isCoefHalf r = false ∨ s.coefValid = true) (hv : readReg r s = v) :
    exec (.rd n) s = .next { s with dout := v } := by
  rw [exec_rd_of_number hn, afterRead_of_specified h, hv]
  rfl

theorem coefHalf_valid {s : State} (hv : s.coefValid = true) (half : Word) : coefHalf s half = half := if_pos hv

theorem highHalf_eq (x : Binary64) : x.extractLsb' 32 32 = BitVec.ofNat 32 (x.toNat / 2 ^ 32) := by
  rw [← Nat.shiftRight_eq_div_pow]
  rfl

theorem lowHalf_eq (x : Binary64) : x.extractLsb' 0 32 = BitVec.ofNat 32 (x.toNat % 2 ^ 32) := by
  apply BitVec.eq_of_toNat_eq
  rw [BitVec.extractLsb'_toNat, BitVec.toNat_ofNat, Nat.shiftRight_zero, Nat.mod_mod]

/-- With a bit depth of 4 a byte holds two samples. -/
theorem ofNat_spbView (s : State) :
    BitVec.ofNat 32 (spbView s) =
      if 3 ≤ s.blockSize.toNat ∧ s.bitdepth = 4#8 then BitVec.ofNat 32 ((s.blockSize.toNat - 2) * 2) else 0#32 := by
  unfold spbView
  split
  next h =>
    have hspb : spb s = (s.blockSize.toNat - 2) * 2 := by
      rw [spb, h.2]
      exact Nat.mul_div_assoc _ (by decide)
    rw [hspb]
  next => rfl

theorem setWidth_ofBool (b : Bool) : (BitVec.ofBool b).setWidth 32 = if b = true then 1#32 else 0#32 := by
  cases b <;> rfl

/-- Settles O30: `exec_rd_of_specified` for each assigned number, with the coding of its register (30_encoding R94). -/
theorem rdReturnsTheNamedRegister : Obligations.RdReturnsTheNamedRegister := by
  intro s
  have plain {n : Half} {r : Reg} {v : Word} (hn : regOfNumber n = some r) (hr : isCoefHalf r = false)
      (hv : readReg r s = v) : exec (.rd n) s = .next { s with dout := v } := exec_rd_of_specified hn (.inl hr) hv
  refine ⟨plain rfl rfl rfl, plain rfl rfl rfl, plain rfl rfl rfl, plain rfl rfl rfl, plain rfl rfl rfl,
    plain rfl rfl rfl, plain rfl rfl rfl, plain rfl rfl rfl, plain rfl rfl rfl, plain rfl rfl rfl, plain rfl rfl rfl,
    plain rfl rfl rfl, plain rfl rfl rfl, plain rfl rfl rfl, plain rfl rfl rfl, plain rfl rfl rfl, plain rfl rfl rfl,
    plain rfl rfl (ofNat_spbView s), plain rfl rfl rfl, plain rfl rfl (setWidth_ofBool _), plain rfl rfl rfl,
    plain rfl rfl rfl, fun hc => ?_, plain rfl rfl rfl, plain rfl rfl rfl, plain rfl rfl rfl, plain rfl rfl rfl⟩
  have half {n : Half} {r : Reg} {x v : Word} (hn : regOfNumber n = some r) (hr : readReg r s = coefHalf s x)
      (hx : x = v) : exec (.rd n) s = .next { s with dout := v } :=
    exec_rd_of_specified hn (.inr hc) (hr.trans ((coefHalf_valid hc x).trans hx))
  exact ⟨half rfl rfl (highHalf_eq _), half rfl rfl (lowHalf_eq _), half rfl rfl (highHalf_eq _),
    half rfl rfl (lowHalf_eq _)⟩

/-! ### The buffers by index (44_system R252 to R255) -/

section Inside

variable {idx : Half} {d : Word} {s : State}

theorem exec_bw_inside (he : s.err = false) (hd : d.toNat < 2 ^ 8) (h : idx.toNat < blkBytes) :
    exec (.bw idx d) s = .next (setDout 0#32 (writeBlk idx.toNat (d.setWidth 8) s)) := by
  show execBw idx d s = _
  rw [execBw, unlessFaulted_clear _ he, check_pass _ _ _ _ hd, check_pass _ _ _ _ h, complete_eq]

theorem exec_pw_inside (he : s.err = false) (hd : d.toNat < 2 ^ 16) (h : idx.toNat < pcmWords) :
    exec (.pw idx d) s = .next (setDout 0#32 (writePcm idx.toNat (d.setWidth 16) s)) := by
  show execPw idx d s = _
  rw [execPw, unlessFaulted_clear _ he, check_pass _ _ _ _ hd, check_pass _ _ _ _ h, complete_eq]

theorem exec_br_inside (h : idx.toNat < blkBytes) :
    exec (.br idx) s = .next (setDout ((readBlk s idx.toNat).setWidth 32) s) :=
  check_pass _ _ _ _ h

theorem exec_pr_inside (h : idx.toNat < pcmWords) :
    exec (.pr idx) s = .next (setDout ((readPcm s idx.toNat).signExtend 32) s) :=
  check_pass _ _ _ _ h

end Inside

/-- Settles O33: the byte is written as `writeBlk` does, and data below 2^8 loses no bit. -/
theorem bwWritesOneByte : Obligations.BwWritesOneByte := by
  intro s idx d he hi hd
  refine ⟨_, exec_bw_inside he hd (Nat.lt_succ_of_le hi), rfl, ?_, fun a ha => ?_⟩
  · rw [readBlk_setDout, readBlk_writeBlk_same, BitVec.toNat_setWidth, Nat.mod_eq_of_lt hd]
  · rw [readBlk_setDout, readBlk_writeBlk_other _ _ ha]

/-- Settles O35: the word is written as `writePcm` does, and data below 2^16 loses no bit. -/
theorem pwWritesOneWord : Obligations.PwWritesOneWord := by
  intro s idx d he hi hd
  refine ⟨_, exec_pw_inside he hd (Nat.lt_succ_of_le hi), rfl, ?_, fun a ha => ?_⟩
  · rw [readPcm_setDout, readPcm_writePcm_same, BitVec.toNat_setWidth, Nat.mod_eq_of_lt hd]
  · rw [readPcm_setDout, readPcm_writePcm_other _ _ ha]

/-- Settles O34: the index is inside `BLK`, and zero extension keeps the number. -/
theorem brReturnsTheByte : Obligations.BrReturnsTheByte := by
  intro s idx hi
  rw [exec_br_inside (Nat.lt_succ_of_le hi), BitVec.ofNat_toNat]
  rfl

/-- Settles O36: the index is inside `PCM`, and sign extension keeps the integer. -/
theorem prReturnsTheSample : Obligations.PrReturnsTheSample := by
  intro s idx hi
  rw [exec_pr_inside (Nat.lt_succ_of_le hi)]
  rfl

/-! ### START (44_system R256) -/

/-- Settles O38: the word of an operand-less command, then the two outcomes of the refusal gate, the one check START
makes. -/
theorem startZeroesTheStream : Obligations.StartZeroesTheStream :=
  ⟨runsAs_of_bare (i := .start) (by decide) fun _ => rfl, fun _ he => unlessFaulted_clear _ he,
    fun _ he => unlessFaulted_faulted _ he⟩

end Sys2Proof.Machine
end

section
/-! PROOFS. Faults and the faulted condition (60_exceptions R274 to R277): what refuses a transaction while `ERR` = 1,
that a completed one leaves `ERR` alone, and who can clear the record. -/

namespace Sys2Proof.Machine

/-! ### The refusal (60_exceptions R276) -/

theorem readsOnly_eq_false_iff (cw : Word) :
    readsOnly cw = false ↔ cw.toNat % 2 ^ 8 ≠ 0x02 ∧ cw.toNat % 2 ^ 8 ≠ 0x04 ∧ cw.toNat % 2 ^ 8 ≠ 0x06 := by
  simp only [readsOnly, Bool.or_eq_false_iff, beq_eq_false_iff_ne, ne_eq, ← BitVec.toNat_inj, toNat_opField,
    BitVec.toNat_ofNat, Nat.reducePow, Nat.reduceMod, and_assoc]

theorem readsOnly_commandOf (i : Instr) :
    readsOnly (commandOf i) = (i.opcode == .rd || i.opcode == .br || i.opcode == .pr) := by
  rw [commandOf_eq, readsOnly, opField_commandWord]
  cases i.opcode <;> rfl

/-- The transactions other than RD, BR and PR make the refusal their first check (44_system R257, step 1). -/
theorem exec_refused {i : Instr} {s : State} (hr : readsOnly (commandOf i) = false) (he : s.err = true) :
    exec i s = .next (setDout 0#32 s) := by
  rw [readsOnly_commandOf] at hr
  cases i
  case rd | br | pr => cases hr
  case wr | bw | pw | coef | start | decblk | encblk | s2b | boff | loopset => exact unlessFaulted_faulted _ he

/-- Settles O9: a legal encoding is refused by the transaction it runs, an illegal one by the rejection. -/
theorem refusedWhileFaulted : Obligations.RefusedWhileFaulted := by
  intro s cw din q hh he hrd hbr hpr
  cases hd : decode cw din with
  | ok i =>
    obtain ⟨-, rfl, -⟩ := decode_eq_ok_iff.1 hd
    exact (step_legal hh hd).trans (exec_refused ((readsOnly_eq_false_iff _).2 ⟨hrd, hbr, hpr⟩) he)
  | error e =>
    exact (step_illegal hh ((decode_error_iff cw din).1 ⟨e, hd⟩)).trans (rejectEncoding_faulted cw he)

/-! ### Precise faults (60_exceptions R274) -/

/-- No transaction sets or clears `ERR` by completing. -/
theorem Completes.err_eq {i : Instr} {s t : State} (h : Completes i s t) : t.err = s.err := by
  cases i
  case wr reg value =>
    obtain ⟨r, -, -, -, rfl⟩ := h
    exact (congrArg State.err (writeReg_frame r value s) :)
  case rd reg =>
    obtain ⟨r, -, rfl⟩ := h
    exact afterRead_err r s
  case decblk =>
    obtain ⟨hp, -, ⟨-, rfl⟩ | ⟨-, -, rfl⟩⟩ := h
    · rfl
    · exact (congrArg State.err (decodeBlock_frame _ hp) :)
  case encblk n =>
    obtain ⟨hp, -, ⟨-, hn⟩, -, rfl⟩ := h
    exact (congrArg State.err (encodeBlock_frame hp hn n) :)
  case coef =>
    obtain ⟨-, c0, c1, -, rfl⟩ := h
    rfl
  case start =>
    obtain rfl := h
    rfl
  case br | pr =>
    obtain ⟨-, rfl⟩ := h
    rfl
  case bw | pw | s2b | boff | loopset =>
    obtain ⟨-, -, rfl⟩ := h
    rfl

/-- With `ERR` = 1 a transaction is refused, reads, or keeps the first record: of `exec_cases` the first answer is
left. -/
theorem exec_while_faulted {i : Instr} {s t : State} (he : s.err = true) (h : exec i s = .next t) :
    t = { s with dout := t.dout, draws := t.draws } := by
  rcases exec_cases h with ⟨-, ht⟩ | ⟨he', -⟩ | ⟨he', -⟩
  · exact ht
  · cases he.symm.trans he'
  · cases he.symm.trans he'

/-- A transaction that sets `ERR` did not complete, so of `exec_cases` the fault is left. -/
theorem exec_sets_err {i : Instr} {s t : State} (he : s.err = false) (h : exec i s = .next t) (ht : t.err = true) :
    ∃ c, t = faulted (causeCode c) (commandOf i) s := by
  rcases exec_cases h with ⟨he', -⟩ | ⟨-, hf⟩ | ⟨-, hc⟩
  · cases he.symm.trans he'
  · exact hf
  · cases (hc.err_eq.trans he).symm.trans ht

/-- Settles O10: the two outcomes of `raise`, and the two of a transaction by `ERR` before it. -/
theorem faultsArePrecise : Obligations.FaultsArePrecise :=
  ⟨fun c cw _ => ⟨faulted_eq c cw, raise_faulted c cw⟩, fun _ _ _ => exec_sets_err,
    fun _ _ _ => exec_while_faulted⟩

/-! ### The return from the faulted condition (60_exceptions R277) -/

/-- Settles O11: a wait, an executed and a rejected transaction keep the record, and the reset input clears `ERR`. -/
theorem errorStaysUntilReset : Obligations.ErrorStaysUntilReset := by
  intro s t he h
  rcases step_cases h with ⟨-, rfl⟩ | ⟨q, hh, rfl⟩ | ⟨cw, din, q, -, ⟨i, -, hx⟩ | ⟨-, hx⟩⟩
  · exact .inl ⟨he, rfl, rfl⟩
  · exact .inr ⟨rfl, q, hh⟩
  · rw [exec_while_faulted (s := setHost q s) he hx]
    exact .inl ⟨he, rfl, rfl⟩
  · cases (rejectEncoding_faulted cw (s := setHost q s) he).symm.trans hx
    exact .inl ⟨he, rfl, rfl⟩

end Sys2Proof.Machine
end

section
/-! PROOFS. Reset (70_reset_and_hazards R300, R301): the step that applies the reset input, what the buffers read as after
it, and the commands that need a configuration. -/

namespace Sys2Proof.Machine

/-! ### The reset input (R301) -/

theorem step_reset {s : State} {q : List HostAction} (hh : s.host = .reset :: q) :
    step s = .next (hardwareReset (setHost q s)) := by
  simp only [step, hh]

@[simp] theorem readBlk_hardwareReset (s : State) (a : Nat) :
    readBlk (hardwareReset s) a = Config.blkDraw (s.epoch + 1) a := rfl

@[simp] theorem readPcm_hardwareReset (s : State) (a : Nat) :
    readPcm (hardwareReset s) a = Config.pcmDraw (s.epoch + 1) a := rfl

/-- Settles O2: the state is that of `hardwareReset`, whose empty buffers read as the draws of the next epoch. -/
theorem hardwareResetFromAnyState : Obligations.HardwareResetFromAnyState := fun s q hh =>
  ⟨hardwareReset (setHost q s), step_reset hh, rfl, readBlk_hardwareReset _, readPcm_hardwareReset _⟩

/-! ### Commands before configuration (R300, last sentence) -/

theorem not_paramsLegal_reset : ¬ParamsLegal State.reset := by decide

/-- Settles O3: at reset COEF finds `SAMPLE_RATE` = 0, and each other command illegal parameters. -/
theorem unconfiguredCommandsFault : Obligations.UnconfiguredCommandsFault := by
  have he : State.reset.err = false := rfl
  have hp : ¬ParamsLegal State.reset := not_paramsLegal_reset
  rintro i (hi | ⟨n, rfl⟩)
  · simp only [List.mem_cons, List.not_mem_nil, or_false] at hi
    obtain rfl | rfl | rfl | rfl | rfl := hi
    · obtain ⟨-, hzeroRate, -⟩ := coefComputesTheTable
      exact hzeroRate State.reset he rfl
    · exact exec_decblk_of_illegal_params he hp
    · exact (exec_s2b_eq _).trans (converterCommand_of_illegal_params he hp)
    · exact (exec_boff_eq _).trans (converterCommand_of_illegal_params he hp)
    · exact (exec_loopset_eq _).trans (converterCommand_of_illegal_params he hp)
  · exact exec_encblk_of_illegal_params he hp

end Sys2Proof.Machine
end
